-- ==== Sys2Proof/Word.lean ====
section
/-! DEFINITION. Word.lean: the widths of the block (00_scope.md R5, R6, R9). -/

namespace Sys2Proof

/-- A byte: a segment pattern, a bus byte, a chip register (00_scope.md R5, PATTERN_W). -/
abbrev Byte := BitVec 8

/-- A host register or command word (00_scope.md R5, HOST_W). -/
abbrev Word := BitVec 32

/-- A line level: `true` is high (1), `false` is low (0) (00_scope.md R9). -/
abbrev Level := Bool

end Sys2Proof
end

