-- ==== Sys2Proof/Config.lean ====
section
/-! DEFINITION. Config.lean: what is fixed for one machine (00_scope.md R5), and the free values: opaque
constants without a body, one for each value that the spec leaves open (93_implementation_defined.md). -/

namespace Sys2Proof

/-- TW_DIGITS: digit capacity of the two-wire chip (00_scope.md R5). -/
def twDigits : Nat := 6

/-- SR_DIGITS: configured digit count of the shift-register chip (00_scope.md R5). -/
def srDigits : Nat := 4

/-- How much of an operation one step of the model takes (10_state.md R29: "A model may take it as one step").
DESIGN CHOICE (log 2): `operation` runs a whole accepted command in one step; `action` makes the acceptance a
step and each port action a step, so that STATUS.BUSY = 1 is visible. -/
inductive Grain where
  | operation
  | action
deriving DecidableEq, Repr

/-- What the platform does with port actions outside its init/deinit window (70_reset_and_hazards.md R283).
`inWindow`: the wire effect is any value (93_implementation_defined.md). `always`: the platform performs them
as inside the window; a claim that takes it names it as a premise. DESIGN CHOICE (log 12). -/
inductive WirePolicy where
  | inWindow
  | always
deriving DecidableEq, Repr

/-- The parameters of the block, an argument of the model (00_scope.md R5). They stand in State so that every
statement about all states is a statement about all parameter values; no step writes them. -/
structure Config where
  /-- ACK_LEVEL (70_reset_and_hazards.md R291). -/
  ackLevel : Level
  /-- SEG_TABLE (41_segment_encoder.md R160). -/
  segTable : Vector Byte 16
  /-- DIGIT_REG_BASE (92_eei_decisions.md D25). -/
  digitRegBase : Byte
  /-- BLANK_CODE (92_eei_decisions.md D26). -/
  blankCode : Byte
  /-- MINUS_CODE (92_eei_decisions.md D26). -/
  minusCode : Byte
  /-- T_BIT in microseconds, OPEN (40_two_wire_engine.md R120). -/
  tBit : Nat
  /-- T_BURST in microseconds, OPEN (40_two_wire_engine.md R120). -/
  tBurst : Nat
  /-- SR_RATE, OPEN (42_shift_register_engine.md R182). -/
  srRate : Nat
  /-- HOST_BASE, OPEN (20_memory.md R50). -/
  hostBase : Nat
  /-- The model's granularity (log 2). -/
  grain : Grain
  /-- The platform's behaviour outside its window (log 12). -/
  wire : WirePolicy
deriving DecidableEq, Repr

/-- SEG_TABLE's default, the conventional glyph set. PRESUMED (log 7): 41_segment_encoder.md R160 marks the
entries as general knowledge. -/
def defaultSegTable : Vector Byte 16 :=
  #v[0x3F, 0x06, 0x5B, 0x4F, 0x66, 0x6D, 0x7D, 0x07, 0x7F, 0x6F, 0x77, 0x7C, 0x39, 0x5E, 0x79, 0x71]

/-- The OPEN parameters of 00_scope.md R5 and 20_memory.md R50: no value is in any source (log 8). -/
opaque Config.openTBit : Nat
opaque Config.openTBurst : Nat
opaque Config.openSrRate : Nat
opaque Config.openHostBase : Nat

/-- The parameter values the machine has at reset: the defaults of 00_scope.md R5, the OPEN ones opaque
(logs 2, 7, 8 and 12). -/
def Config.default : Config where
  ackLevel := false
  segTable := defaultSegTable
  digitRegBase := 0x01
  blankCode := 0x0F
  minusCode := 0x0A
  tBit := Config.openTBit
  tBurst := Config.openTBurst
  srRate := Config.openSrRate
  hostBase := Config.openHostBase
  grain := .operation
  wire := .inWindow

/-- The oracle's answer to the n-th sample when the environment supplied none (10_state.md R34, log 3). -/
opaque Config.freeAnswer : Nat → Level

/-- Draw n of a digit register of the two-wire chip (43_attached_devices.md R227, R228; log 9). -/
opaque Config.freeDigit : Nat → Nat → Byte
/-- Draw n of PTR, before it is bounded to 0..6. -/
opaque Config.freePtr : Nat → Nat
/-- Draw n of AUTOINC. -/
opaque Config.freeAutoInc : Nat → Bool
/-- Draw n of BRI. -/
opaque Config.freeBri : Nat → BitVec 3
/-- Draw n of ON. -/
opaque Config.freeOn : Nat → Bool
/-- Draw n: did the two-wire chip take a byte that it did not acknowledge (95_test_vectors.md P3; log 10). -/
opaque Config.freeTaken : Nat → Bool
/-- Draw n: the level of the released data line (10_state.md R30; log 11). -/
opaque Config.freeLine : Nat → Level
/-- Draw n of SHIFT of the shift-register chip (43_attached_devices.md R235). -/
opaque Config.freeShift : Nat → BitVec 16
/-- Draw n of a digit register of the shift-register chip (43_attached_devices.md R235). -/
opaque Config.freeSrDigit : Nat → Nat → Byte
/-- Draw n of the shift-register chip's REG[a] for another address a (43_attached_devices.md R235). -/
opaque Config.freeSrReg : Nat → Byte → Byte

/-- The registers of the shift-register chip by name (30_encoding.md R92). -/
inductive SrReg where
  | noop | digit (p : Fin 4) | decode | intensity | scanLimit | power | test
deriving DecidableEq, Repr

/-- Where a byte stands in a two-wire frame (43_attached_devices.md R221, R223): the first byte is a command, a
byte after CMD_ADDR is data, and the spec gives no meaning to a byte after another command. -/
inductive TwPos where
  | first | afterAddr | afterOther
deriving DecidableEq, Repr

end Sys2Proof
end

