-- ==== Sys2Proof/Syntax.lean ====
section
/-! DEFINITION. Syntax.lean: one constructor for each row of spec/opcode_table.json. -/

namespace Sys2Proof

/-- The instructions. The first eleven are the host commands of 30_encoding.md R81, the next four the two-wire
bus bytes of R85 to R88, the last ten the shift-register bus words of R92. Addresses and counts are numbers
(they are compared and clamped on unbounded integers, 92_eei_decisions.md D42); patterns, values and register
addresses are bit vectors. -/
inductive Instr where
  /-- TW_INIT (40_two_wire_engine.md R121). -/
  | twInit
  /-- TW_DEINIT (R122). -/
  | twDeinit
  /-- TW_CONFIG (R123): V = brightness, F = on. -/
  | twConfig (brightness : Byte) (on : Bool)
  /-- TW_SETDIGIT (R126): V = pattern, A = address. -/
  | twSetdigit (pattern : Byte) (addr : Nat)
  /-- TW_SETDIGITS (R125): A = start address, C = count. -/
  | twSetdigits (start : Nat) (count : Nat)
  /-- TW_SETHEX (R127): V = value, F = decimal point, A = address. -/
  | twSethex (value : Byte) (dp : Bool) (addr : Nat)
  /-- SEG_ENCODE (41_segment_encoder.md R162): V = value, F = decimal point. -/
  | segEncode (value : Byte) (dp : Bool)
  /-- SR_INIT (42_shift_register_engine.md R182). -/
  | srInit
  /-- SR_WRITEREG (R183): A = register address, V = value. -/
  | srWritereg (reg : Byte) (value : Byte)
  /-- SR_CLEAR (R184). -/
  | srClear
  /-- SR_DISPNUM (R186); its operand is in ARG. -/
  | srDispnum
  /-- CMD_DATA (30_encoding.md R85). -/
  | cmdData
  /-- CMD_ADDR (R86): the address in bits 2:0. -/
  | cmdAddr (a : Nat)
  /-- CMD_DISPCTL (R87): brightness in bits 2:0, on in bit 3. -/
  | cmdDispctl (b : BitVec 3) (on : Bool)
  /-- DATA (R88): a segment pattern. -/
  | data (p : Byte)
  /-- NOOP of the shift-register chip (R92). -/
  | srNoop (value : Byte)
  /-- DIGIT0: position 0, the least significant digit. -/
  | srDigit0 (value : Byte)
  /-- DIGIT1. -/
  | srDigit1 (value : Byte)
  /-- DIGIT2. -/
  | srDigit2 (value : Byte)
  /-- DIGIT3. -/
  | srDigit3 (value : Byte)
  /-- DECODE. -/
  | srDecode (value : Byte)
  /-- INTENSITY. -/
  | srIntensity (value : Byte)
  /-- SCANLIMIT. -/
  | srScanlimit (value : Byte)
  /-- POWER. -/
  | srPower (value : Byte)
  /-- TEST. -/
  | srTest (value : Byte)
deriving DecidableEq, Repr

end Sys2Proof
end

