-- ==== Sys2Proof/WellFormed.lean ====
section
/-! DEFINITION. WellFormed.lean: an operand fits its field. -/

namespace Sys2Proof

/-- The operand fits the field that 30_encoding.md gives it: the A and C fields of a command word are 8 bits
(R80; R94 "An assembler refuses an operand that does not fit its field"), the address of CMD_ADDR 3 bits (R86).
The other operands have their field's width by type. -/
def wellFormed : Instr → Bool
  | .twInit => true
  | .twDeinit => true
  | .twConfig _ _ => true
  | .twSetdigit _ addr => addr < 256
  | .twSetdigits start count => start < 256 && count < 256
  | .twSethex _ _ addr => addr < 256
  | .segEncode _ _ => true
  | .srInit => true
  | .srWritereg _ _ => true
  | .srClear => true
  | .srDispnum => true
  | .cmdData => true
  | .cmdAddr a => a < 8
  | .cmdDispctl _ _ => true
  | .data _ => true
  | .srNoop _ => true
  | .srDigit0 _ => true
  | .srDigit1 _ => true
  | .srDigit2 _ => true
  | .srDigit3 _ => true
  | .srDecode _ => true
  | .srIntensity _ => true
  | .srScanlimit _ => true
  | .srPower _ => true
  | .srTest _ => true

/-- The digit registers of the shift-register chip lie at DIGIT_REG_BASE + p, clear of the addresses the source
names for other registers (30_encoding.md R92), without wrapping. The default base 0x01 meets it. -/
def digitBaseOk (base : Byte) : Bool :=
  (1 ≤ base.toNat && base.toNat + 3 ≤ 8) || (16 ≤ base.toNat && base.toNat + 3 ≤ 255)

end Sys2Proof
end

