-- ==== Sys2Proof/Decode.lean ====
section
/-! DEFINITION. Decode.lean: the three decoders (host command word, two-wire byte, shift-register word), total,
rejecting by name; the encoder; the opcode table's rows. From 30_encoding.md. -/

namespace Sys2Proof

/-- Why a word is no instruction. -/
inductive DecodeError where
  /-- A command word with RSV != 0 (30_encoding.md R83). -/
  | reservedBits
  /-- A command word with OP 0x0 or 0xC to 0xF (R83). -/
  | reservedOpcode
  /-- A two-wire byte in command position that the TWE never emits and the source gives no meaning (R90). -/
  | neverSentByte
  /-- A second byte after CMD_DATA or CMD_DISPCTL in one frame: no frame of R89 has one. -/
  | byteAfterCommand
  /-- A shift-register register address without meaning (R93). -/
  | unassignedAddress
deriving DecidableEq, Repr

/-! ## Host command words (R80 to R84) -/

/-- Field F, bit 24 (R80). -/
def fieldF (w : Word) : Bool := w.getLsbD 24
/-- Field C, bits 23:16. -/
def fieldC (w : Word) : Byte := w.extractLsb' 16 8
/-- Field A, bits 15:8. -/
def fieldA (w : Word) : Byte := w.extractLsb' 8 8
/-- Field V, bits 7:0. -/
def fieldV (w : Word) : Byte := w.extractLsb' 0 8
/-- Field RSV, bits 27:25. -/
def fieldRsv (w : Word) : BitVec 3 := w.extractLsb' 25 3
/-- Field OP, bits 31:28. -/
def fieldOp (w : Word) : BitVec 4 := w.extractLsb' 28 4

/-- The opcode map of R81; a field that the row does not list is ignored (R82). -/
def decodeHost (w : Word) : Except DecodeError Instr :=
  if fieldRsv w ≠ 0 then .error .reservedBits
  else match (fieldOp w).toNat with
    | 0x1 => .ok .twInit
    | 0x2 => .ok .twDeinit
    | 0x3 => .ok (.twConfig (fieldV w) (fieldF w))
    | 0x4 => .ok (.twSetdigit (fieldV w) (fieldA w).toNat)
    | 0x5 => .ok (.twSetdigits (fieldA w).toNat (fieldC w).toNat)
    | 0x6 => .ok (.twSethex (fieldV w) (fieldF w) (fieldA w).toNat)
    | 0x7 => .ok (.segEncode (fieldV w) (fieldF w))
    | 0x8 => .ok .srInit
    | 0x9 => .ok (.srWritereg (fieldA w) (fieldV w))
    | 0xA => .ok .srClear
    | 0xB => .ok .srDispnum
    | _ => .error .reservedOpcode

/-! ## Two-wire bytes (R85 to R90) -/

/-- A byte in command position, by its bits: 0x40, `11000aaa` or `1000obbb`. -/
def decodeTwCommand (b : Byte) : Except DecodeError Instr :=
  if b = 0x40 then .ok .cmdData
  else if b.extractLsb' 3 5 = 0b11000#5 then .ok (.cmdAddr (b.extractLsb' 0 3).toNat)
  else if b.extractLsb' 4 4 = 0b1000#4 then .ok (.cmdDispctl (b.extractLsb' 0 3) (b.getLsbD 3))
  else .error .neverSentByte

/-- A byte by its position in the frame (R88: "It is a data byte because of its position"). -/
def decodeTw (pos : TwPos) (b : Byte) : Except DecodeError Instr :=
  match pos with
  | .first => decodeTwCommand b
  | .afterAddr => .ok (.data b)
  | .afterOther => .error .byteAfterCommand

/-! ## Shift-register words (R91 to R93) -/

/-- The address of a register (R92), for a base DIGIT_REG_BASE. -/
def SrReg.addr (base : Byte) : SrReg → Byte
  | .noop => 0x00
  | .digit p => base + BitVec.ofNat 8 p.val
  | .decode => 0x09
  | .intensity => 0x0A
  | .scanLimit => 0x0B
  | .power => 0x0C
  | .test => 0x0F

/-- Every register of the chip; the ones whose addresses the source names come first, so that no value of
DIGIT_REG_BASE displaces one (log 19). -/
def SrReg.all : List SrReg :=
  [.noop, .decode, .intensity, .scanLimit, .power, .test, .digit 0, .digit 1, .digit 2, .digit 3]

/-- The register at an address, if the address has a meaning (R92, R93). -/
def srRegAt (base addr : Byte) : Option SrReg :=
  SrReg.all.find? fun r => r.addr base == addr

/-- The instruction that writes `v` to a register. -/
def SrReg.instr (v : Byte) : SrReg → Instr
  | .noop => .srNoop v
  | .digit p => match p.val with
    | 0 => .srDigit0 v
    | 1 => .srDigit1 v
    | 2 => .srDigit2 v
    | _ => .srDigit3 v
  | .decode => .srDecode v
  | .intensity => .srIntensity v
  | .scanLimit => .srScanlimit v
  | .power => .srPower v
  | .test => .srTest v

/-- Register address, bits 15:8 of a word (R91). -/
def srAddr (w : BitVec 16) : Byte := w.extractLsb' 8 8
/-- Value, bits 7:0 of a word (R91). -/
def srValue (w : BitVec 16) : Byte := w.extractLsb' 0 8

/-- A latched word (R91, R92). -/
def decodeSr (base : Byte) (w : BitVec 16) : Except DecodeError Instr :=
  match srRegAt base (srAddr w) with
  | some r => .ok (r.instr (srValue w))
  | none => .error .unassignedAddress

/-! ## The encoder -/

/-- An encoded instruction: a command word, a bus byte in its position, or a bus word. -/
inductive Code where
  | host (w : Word)
  | tw (pos : TwPos) (b : Byte)
  | sr (w : BitVec 16)
deriving DecidableEq, Repr

/-- A command word from its fields, RSV = 0 (R80; R94 writes it so, by shifts and ors). -/
def hostWord (op : BitVec 4) (f : Bool) (c a v : Byte) : Word :=
  op.setWidth 32 <<< 28 ||| (BitVec.ofBool f).setWidth 32 <<< 24 ||| c.setWidth 32 <<< 16 |||
    a.setWidth 32 <<< 8 ||| v.setWidth 32

/-- CMD_DATA (R85, 40_two_wire_engine.md R111). -/
def cmdDataByte : Byte := 0x40
/-- CMD_ADDR(a) = 0xC0 | a (R86, R111). -/
def cmdAddrByte (a : Nat) : Byte := 0xC0 ||| BitVec.ofNat 8 a
/-- CMD_DISPCTL(b, on) = 0x80 | (b & 7) | (on ? 0x08 : 0) (R87, R111). -/
def cmdDispctlByte (b : Byte) (on : Bool) : Byte := 0x80 ||| (b &&& 0x07) ||| (if on then 0x08 else 0x00)

/-- `addr ++ value`: the address in bits 15:8, the value in bits 7:0 (R91). -/
def srWordOf (addr value : Byte) : BitVec 16 := addr.setWidth 16 <<< 8 ||| value.setWidth 16

/-- The word of an instruction; unused fields are 0 (R94). `base` is DIGIT_REG_BASE. -/
def encode (i : Instr) (base : Byte := 0x01) : Code :=
  match i with
  | .twInit => .host (hostWord 0x1 false 0 0 0)
  | .twDeinit => .host (hostWord 0x2 false 0 0 0)
  | .twConfig b on => .host (hostWord 0x3 on 0 0 b)
  | .twSetdigit p a => .host (hostWord 0x4 false 0 (BitVec.ofNat 8 a) p)
  | .twSetdigits a c => .host (hostWord 0x5 false (BitVec.ofNat 8 c) (BitVec.ofNat 8 a) 0)
  | .twSethex v dp a => .host (hostWord 0x6 dp 0 (BitVec.ofNat 8 a) v)
  | .segEncode v dp => .host (hostWord 0x7 dp 0 0 v)
  | .srInit => .host (hostWord 0x8 false 0 0 0)
  | .srWritereg r v => .host (hostWord 0x9 false 0 r v)
  | .srClear => .host (hostWord 0xA false 0 0 0)
  | .srDispnum => .host (hostWord 0xB false 0 0 0)
  | .cmdData => .tw .first cmdDataByte
  | .cmdAddr a => .tw .first (cmdAddrByte a)
  | .cmdDispctl b on => .tw .first (cmdDispctlByte (b.setWidth 8) on)
  | .data p => .tw .afterAddr p
  | .srNoop v => .sr (srWordOf (SrReg.noop.addr base) v)
  | .srDigit0 v => .sr (srWordOf ((SrReg.digit 0).addr base) v)
  | .srDigit1 v => .sr (srWordOf ((SrReg.digit 1).addr base) v)
  | .srDigit2 v => .sr (srWordOf ((SrReg.digit 2).addr base) v)
  | .srDigit3 v => .sr (srWordOf ((SrReg.digit 3).addr base) v)
  | .srDecode v => .sr (srWordOf (SrReg.decode.addr base) v)
  | .srIntensity v => .sr (srWordOf (SrReg.intensity.addr base) v)
  | .srScanlimit v => .sr (srWordOf (SrReg.scanLimit.addr base) v)
  | .srPower v => .sr (srWordOf (SrReg.power.addr base) v)
  | .srTest v => .sr (srWordOf (SrReg.test.addr base) v)

/-- The instruction a code stands for. -/
def decodeCode (base : Byte) : Code → Except DecodeError Instr
  | .host w => decodeHost w
  | .tw pos b => decodeTw pos b
  | .sr w => decodeSr base w

/-! ## The opcode table -/

/-- One row of spec/opcode_table.json: its width in bits and its match and mask. -/
structure TableRow where
  nbits : Nat
  pattern : Nat
  mask : Nat
deriving DecidableEq, Repr

/-- The row of an instruction. -/
def tableRow : Instr → TableRow
  | .twInit => ⟨32, 0x10000000, 0xFE000000⟩
  | .twDeinit => ⟨32, 0x20000000, 0xFE000000⟩
  | .twConfig _ _ => ⟨32, 0x30000000, 0xFE000000⟩
  | .twSetdigit _ _ => ⟨32, 0x40000000, 0xFE000000⟩
  | .twSetdigits _ _ => ⟨32, 0x50000000, 0xFE000000⟩
  | .twSethex _ _ _ => ⟨32, 0x60000000, 0xFE000000⟩
  | .segEncode _ _ => ⟨32, 0x70000000, 0xFE000000⟩
  | .srInit => ⟨32, 0x80000000, 0xFE000000⟩
  | .srWritereg _ _ => ⟨32, 0x90000000, 0xFE000000⟩
  | .srClear => ⟨32, 0xA0000000, 0xFE000000⟩
  | .srDispnum => ⟨32, 0xB0000000, 0xFE000000⟩
  | .cmdData => ⟨8, 0x40, 0xFF⟩
  | .cmdAddr _ => ⟨8, 0xC0, 0xF8⟩
  | .cmdDispctl _ _ => ⟨8, 0x80, 0xF0⟩
  | .data _ => ⟨8, 0x00, 0x00⟩
  | .srNoop _ => ⟨16, 0x0000, 0xFF00⟩
  | .srDigit0 _ => ⟨16, 0x0100, 0xFF00⟩
  | .srDigit1 _ => ⟨16, 0x0200, 0xFF00⟩
  | .srDigit2 _ => ⟨16, 0x0300, 0xFF00⟩
  | .srDigit3 _ => ⟨16, 0x0400, 0xFF00⟩
  | .srDecode _ => ⟨16, 0x0900, 0xFF00⟩
  | .srIntensity _ => ⟨16, 0x0A00, 0xFF00⟩
  | .srScanlimit _ => ⟨16, 0x0B00, 0xFF00⟩
  | .srPower _ => ⟨16, 0x0C00, 0xFF00⟩
  | .srTest _ => ⟨16, 0x0F00, 0xFF00⟩

/-- The bits of a code, as the table numbers them, and how many they are. -/
def Code.bits : Code → Nat × Nat
  | .host w => (32, w.toNat)
  | .tw _ b => (8, b.toNat)
  | .sr w => (16, w.toNat)

/-- The instruction that the decoder reads from a word of the opcode table: 32 bits are a command word, 16 bits a
shift-register word (DIGIT_REG_BASE = 0x01, as the table has it), 8 bits a two-wire byte. A byte is first read in
command position; a byte that is no command can only be data, told by its position (30_encoding.md R88; log 17). -/
def decodeTableWord (nbits w : Nat) : Option Instr :=
  match nbits with
  | 32 => (decodeHost (BitVec.ofNat 32 w)).toOption
  | 16 => (decodeSr 0x01 (BitVec.ofNat 16 w)).toOption
  | 8 => match decodeTw .first (BitVec.ofNat 8 w) with
    | .ok i => some i
    | .error _ => (decodeTw .afterAddr (BitVec.ofNat 8 w)).toOption
  | _ => none

end Sys2Proof
end

