-- ==== Sys2Proof/Machine/State.lean ====
section
/-! DEFINITION. Machine/State.lean: everything the spec gives the machine, as plain data (10_state.md,
43_attached_devices.md), and the state after reset (70_reset_and_hazards.md R280). -/

namespace Sys2Proof.Machine

/-! ## The port -/

/-- TW_DIO_DIR (10_state.md R30): `out` drives TW_DIO_OUT onto the line, `inp` releases it. -/
inductive Dir where
  | out | inp
deriving DecidableEq, Repr

/-- The parameter of a `Wait` (10_state.md R32); its length is the platform's. -/
inductive Delay where
  | tBit | tBurst
deriving DecidableEq, Repr

/-- The port actions (10_state.md R32). -/
inductive Action where
  | pInit
  | pDeinit
  | dioOut
  | dioIn
  | dio (l : Level)
  | clk (l : Level)
  | sample (l : Level)
  | wait (t : Delay)
  | srCfg (rate : Nat)
  | srClk (l : Level)
  | srDin (l : Level)
  | srLoad (l : Level)
deriving DecidableEq, Repr

/-- The line state of both ports (10_state.md R30, R31). -/
structure Lines where
  twClk : Level
  twDioOut : Level
  twDioDir : Dir
  srClk : Level
  srDin : Level
  srLoad : Level
  srCfg : Option Nat
deriving DecidableEq, Repr

/-! ## The attached devices (43_attached_devices.md) -/

/-- The two-wire chip's bus receiver, implied by R221: whether a frame is open, how many clock pulses of the
current byte have come (8: the ninth is next; 9: the ninth clock is high), the bits taken so far, and the position of
the byte in the frame. -/
structure TwReceiver where
  active : Bool
  count : Nat
  shift : Byte
  pos : TwPos
deriving DecidableEq, Repr

/-- The two-wire chip (43_attached_devices.md, section 1). -/
structure TwChip where
  dreg : Vector Byte 6
  ptr : Nat
  autoInc : Bool
  bri : BitVec 3
  on : Bool
  rx : TwReceiver
deriving DecidableEq, Repr

/-- The shift-register chip (43_attached_devices.md, section 2). -/
structure SrChip where
  shift : BitVec 16
  noop : Byte
  digits : Vector Byte 4
  decode : Byte
  intensity : Byte
  scanLimit : Byte
  power : Byte
  test : Byte
deriving DecidableEq, Repr

/-- What stands outside the block: both chips, whether the platform is inside its init/deinit window (R283), and
the counter of the free values drawn for the chips (log 9). The block reads none of it (10_state.md R35). -/
structure Devices where
  platformUp : Bool
  tw : TwChip
  sr : SrChip
  draws : Nat
deriving DecidableEq, Repr

/-! ## The engine -/

/-- The result codes by name (60_exceptions.md R251). -/
inductive Result where
  | ok | invalidAddress | ackFailure | illegalCommand
deriving DecidableEq, Repr

/-- One entry of an operation's action list, as the sequencer holds it (10_state.md R29): emit an action; take
the acknowledgment sample; or end the acknowledgment phase (`DioOut`), abandoning a checked frame on a nak
(40_two_wire_engine.md R114, R118). Each is one port action. -/
inductive MicroOp where
  | act (a : Action)
  | sample
  | ackEnd (check : Bool)
deriving DecidableEq, Repr

/-- The operation in flight (10_state.md R29): the accepted word and its fields, the copies of PBUF and ARG, and
the position in the action list, held as the part of it still to come; `level` is the sample of the byte in hand,
`result` the code that will be recorded, `disturbed` says that another driver's frame fell between its two frames
(70_reset_and_hazards.md R286). -/
structure InFlight where
  word : Word
  instr : Instr
  patterns : List Byte
  arg : Word
  todo : List MicroOp
  level : Level
  result : Result
  disturbed : Bool
deriving DecidableEq, Repr

/-! ## What comes from outside -/

/-- What the outside world does next (log 1). -/
inductive Input where
  /-- `MemWrite(off, width, v)` (20_memory.md R50). -/
  | hostWrite (off width : Nat) (v : Word)
  /-- `MemRead(off, width)`. -/
  | hostRead (off width : Nat)
  /-- The host's `wait`: `rd STATUS` until BUSY reads 0 (30_encoding.md R95). -/
  | hostWait
  /-- The host does nothing; the engine goes on by one action (10_state.md R29). -/
  | engine
  /-- Another driver makes a START on the two-wire bus (70_reset_and_hazards.md R285, log 13). -/
  | twStart
  /-- Another driver sends a byte on the two-wire bus. -/
  | twByte (b : Byte)
  /-- Another driver makes a STOP on the two-wire bus. -/
  | twStop
  /-- Another driver shifts and latches a word on the shift-register bus. -/
  | srWord (w : BitVec 16)
  /-- A platform reset of the block (70_reset_and_hazards.md R280, log 14). -/
  | platformReset
deriving DecidableEq, Repr

/-! ## Why a step stops -/

/-- The faults of the model. -/
inductive Fault where
  /-- SR_DISPNUM would read ARG, never written since reset (10_state.md R23: "A model faults an SR_DISPNUM that would
  read ARG before any host write to ARG since reset"; 42_shift_register_engine.md R186; 93_implementation_defined.md:
  `fault`). Raised by `execSrDispnum` and the acceptance of the command. Safe: no rule gives an effect. -/
  | argUnwritten
  /-- TW_SETDIGITS would read a PBUF entry never written since reset (10_state.md R26: "A model faults a TW_SETDIGITS
  that would read an entry not written by the host since reset"; 40_two_wire_engine.md R125, which calls the behaviour
  not defined; 93_implementation_defined.md: `fault`). Raised by `execTwSetdigits` and the acceptance of the command.
  Safe: no rule gives an effect. -/
  | pbufUnwritten
  /-- A host access beyond the 64-byte window names no register of the block (20_memory.md R50). Raised by a host
  read or write. Safe (log 16). -/
  | noSuchRegister
deriving DecidableEq, Repr

/-- The refusals of the model. -/
inductive Refusal where
  /-- An instruction without a meaning yet; raised by no arm of `exec`. Safe. -/
  | notModelled (mnemonic : String)
  /-- A host access other than a STATUS read while BUSY = 1 (70_reset_and_hazards.md R284: "a model refuses the
  access"). Raised by a host read or write. Safe. -/
  | accessWhileBusy
  /-- A host access not 4 bytes wide or not at a multiple of 4 (20_memory.md R59: "A model refuses it"). Raised by
  a host read or write. Safe. -/
  | badAccess
  /-- Another agent drives the lines of the port that the operation in flight uses (70_reset_and_hazards.md R285:
  "no rule of this spec covers it"). Raised by the inputs of another driver. Safe. -/
  | foreignDriver
deriving DecidableEq, Repr

/-! ## The state -/

/-- The machine. -/
structure State where
  /-- The parameters (00_scope.md R5); never written by a step. -/
  cfg : Config
  /-- ARG (10_state.md R23). -/
  arg : Word
  /-- ARG has been written since reset. -/
  argWritten : Bool
  /-- STATUS.RC (10_state.md R24). -/
  rc : Result
  /-- ENCOUT bits 7:0 (10_state.md R25). -/
  encout : Byte
  /-- PBUF0..PBUF5 bits 7:0 (10_state.md R26). -/
  pbuf : Vector Byte 6
  /-- Which PBUF entries have been written since reset. -/
  pbufWritten : Vector Bool 6
  /-- The sequencer (10_state.md R29); STATUS.BUSY is 1 exactly while it holds an operation. -/
  seq : Option InFlight
  /-- The lines of both ports (10_state.md R30, R31). -/
  lines : Lines
  /-- TRACE, oldest action first (10_state.md R33). -/
  trace : List Action
  /-- The oracle's answers already supplied, next first (10_state.md R34); the model's own field (log 3). -/
  answers : List Level
  /-- How many samples have been answered; the model's own field (log 3). -/
  asked : Nat
  /-- What the outside world does next, first first; the model's own field (log 1). -/
  inputs : List Input
  /-- The data of the last host read; the model's own field (log 15). -/
  hostData : Word
  /-- The attached devices (43_attached_devices.md). -/
  dev : Devices
deriving DecidableEq, Repr

/-- The lines after reset. The spec leaves them unspecified (10_state.md R30, R31). DESIGN CHOICE (log 5, unsafe):
the idle levels: those a completed frame leaves (R36) and those of 92_eei_decisions.md D22 to D24. -/
def Lines.reset : Lines where
  twClk := true
  twDioOut := true
  twDioDir := .out
  srClk := false
  srDin := false
  srLoad := true
  srCfg := none

/-- The devices at power-up. The spec leaves them unspecified (43_attached_devices.md R228). DESIGN CHOICE (log 6,
unsafe): zero, no frame open, the platform's init hook not run. -/
def Devices.reset : Devices where
  platformUp := false
  tw :=
    { dreg := Vector.replicate 6 0, ptr := 0, autoInc := false, bri := 0, on := false
      rx := { active := false, count := 0, shift := 0, pos := .first } }
  sr :=
    { shift := 0, noop := 0, digits := Vector.replicate 4 0, decode := 0, intensity := 0, scanLimit := 0
      power := 0, test := 0 }
  draws := 0

/-- The machine right after reset (70_reset_and_hazards.md R280). ARG and PBUF hold 0 and are unwritten
(DESIGN CHOICE, log 4). -/
def State.reset : State where
  cfg := Config.default
  arg := 0
  argWritten := false
  rc := .ok
  encout := 0
  pbuf := Vector.replicate 6 0
  pbufWritten := Vector.replicate 6 false
  seq := none
  lines := Lines.reset
  trace := []
  answers := []
  asked := 0
  inputs := []
  hostData := 0
  dev := Devices.reset

end Sys2Proof.Machine
end

