-- ==== Sys2Proof/Machine/Chips.lean ====
section
/-! DEFINITION. Machine/Chips.lean: what the two attached chips do with the bytes and words they take, and how
they take them from the lines (43_attached_devices.md). Every function is one of the devices alone: nothing here
changes a trace (R220). -/

namespace Sys2Proof.Machine

/-! ## Free values (R227, R228, R235; log 9) -/

/-- Every register of the two-wire chip holds a free value; the bus receiver is as it was. -/
def Devices.twUnspecified (d : Devices) : Devices :=
  { d with
    draws := d.draws + 1
    tw := { d.tw with
      dreg := Vector.ofFn fun i => Config.freeDigit d.draws i.val
      ptr := Config.freePtr d.draws % 7
      autoInc := Config.freeAutoInc d.draws
      bri := Config.freeBri d.draws
      on := Config.freeOn d.draws } }

/-- Every register of the shift-register chip holds a free value. -/
def Devices.srUnspecified (d : Devices) : Devices :=
  { d with
    draws := d.draws + 1
    sr :=
      { shift := Config.freeShift d.draws
        noop := Config.freeSrReg d.draws 0x00
        digits := Vector.ofFn fun i => Config.freeSrDigit d.draws i.val
        decode := Config.freeSrReg d.draws 0x09
        intensity := Config.freeSrReg d.draws 0x0A
        scanLimit := Config.freeSrReg d.draws 0x0B
        power := Config.freeSrReg d.draws 0x0C
        test := Config.freeSrReg d.draws 0x0F } }

/-! ## The bytes of the two-wire chip -/

/-- The next byte of the frame stands at `pos`. -/
def Devices.expect (pos : TwPos) (d : Devices) : Devices :=
  { d with tw := { d.tw with rx := { d.tw.rx with pos := pos } } }

/-- CMD_DATA sets AUTOINC (R222). -/
def Devices.takeCmdData (d : Devices) : Devices :=
  { d with tw := { d.tw with autoInc := true } }.expect .afterOther

/-- CMD_ADDR(a) sets PTR (R223); for a = 6 and 7 the effect is unspecified (R228). The bytes that follow are data. -/
def Devices.takeCmdAddr (a : Nat) (d : Devices) : Devices :=
  (if a < twDigits then { d with tw := { d.tw with ptr := a } } else d.twUnspecified).expect .afterAddr

/-- CMD_DISPCTL(b, on) sets BRI and ON (R225). -/
def Devices.takeCmdDispctl (b : BitVec 3) (on : Bool) (d : Devices) : Devices :=
  { d with tw := { d.tw with bri := b, on := on } }.expect .afterOther

/-- DATA(p) with AUTOINC = 1 writes DREG[PTR], and PTR moves on (R224). With AUTOINC = 0 the effect is any value in the
chip model (93_implementation_defined.md, the row of R224; log 9); a byte that would be written beyond DREG[5] has an
unspecified effect too. -/
def Devices.takeData (p : Byte) (d : Devices) : Devices :=
  (if twDigits ≤ d.tw.ptr ∨ d.tw.autoInc = false then d.twUnspecified
   else { d with tw := { d.tw with dreg := d.tw.dreg.setIfInBounds d.tw.ptr p, ptr := d.tw.ptr + 1 } }).expect .afterAddr

/-- A byte at its position in the frame; one that has no meaning there has an unspecified effect (R228). -/
def Devices.takeByte (b : Byte) (d : Devices) : Devices :=
  match decodeTw d.tw.rx.pos b with
  | .ok .cmdData => d.takeCmdData
  | .ok (.cmdAddr a) => d.takeCmdAddr a
  | .ok (.cmdDispctl v on) => d.takeCmdDispctl v on
  | .ok (.data p) => d.takeData p
  | _ => d.twUnspecified.expect .afterOther

/-! ## The two-wire chip's receiver (R221) -/

/-- A frame opens: the data line fell while the clock was high. -/
def Devices.frameStart (d : Devices) : Devices :=
  { d with tw := { d.tw with rx := { active := true, count := 0, shift := 0, pos := .first } } }

/-- The frame closes: the data line rose while the clock was high. -/
def Devices.frameStop (d : Devices) : Devices :=
  { d with tw := { d.tw with rx := { d.tw.rx with active := false } } }

/-- The receiver takes a data bit, least significant first. -/
def Devices.takeBit (l : Level) (d : Devices) : Devices :=
  { d with tw := { d.tw with rx := { d.tw.rx with
      count := d.tw.rx.count + 1
      shift := d.tw.rx.shift >>> 1 ||| (BitVec.ofBool l).setWidth 8 <<< 7 } } }

/-- The clock rises: a data bit while fewer than 8 have come, then the ninth clock. The bit is the level of the
data line; a released line has a free level (10_state.md R30). PRESUMED (log 11): the rising edge. -/
def Devices.clockRises (dir : Dir) (l : Level) (d : Devices) : Devices :=
  if d.tw.rx.active = false then d
  else if d.tw.rx.count < 8 then
    match dir with
    | .out => d.takeBit l
    | .inp => { d.takeBit (Config.freeLine d.draws) with draws := d.draws + 1 }
  else if d.tw.rx.count = 8 then { d with tw := { d.tw with rx := { d.tw.rx with count := 9 } } }
  else d

/-- The receiver is ready for the next byte. -/
def Devices.nextByte (d : Devices) : Devices :=
  { d with tw := { d.tw with rx := { d.tw.rx with count := 0 } } }

/-- The acknowledgment of a byte is on the line. With the ack level the chip has taken the byte; without it,
whether it took the byte is a free choice (95_test_vectors.md P3). DEDUCED (log 10): the byte takes effect here. -/
def Devices.acknowledge (cfg : Config) (l : Level) (d : Devices) : Devices :=
  if d.tw.rx.active = true ∧ d.tw.rx.count = 9 then
    if l = cfg.ackLevel then (d.takeByte d.tw.rx.shift).nextByte
    else if Config.freeTaken d.draws = true then
      (({ d with draws := d.draws + 1 } : Devices).takeByte d.tw.rx.shift).nextByte
    else ({ d with draws := d.draws + 1 } : Devices).nextByte
  else d

/-! ## The words of the shift-register chip -/

/-- A register write (R231 to R234). -/
def SrChip.write (r : SrReg) (v : Byte) (c : SrChip) : SrChip :=
  match r with
  | .noop => c
  | .digit p => { c with digits := c.digits.set p.val v p.isLt }
  | .decode => { c with decode := v }
  | .intensity => { c with intensity := v }
  | .scanLimit => { c with scanLimit := v }
  | .power => { c with power := v }
  | .test => { c with test := v }

/-- REG[a] by the register's name. -/
def SrChip.read (r : SrReg) (c : SrChip) : Byte :=
  match r with
  | .noop => c.noop
  | .digit p => c.digits[p.val]
  | .decode => c.decode
  | .intensity => c.intensity
  | .scanLimit => c.scanLimit
  | .power => c.power
  | .test => c.test

/-- A register write of the shift-register chip. -/
def Devices.srWrite (r : SrReg) (v : Byte) (d : Devices) : Devices :=
  { d with sr := d.sr.write r v }

/-- A rising edge of SR_CLK: `SHIFT <- ((SHIFT << 1) | SR_DIN)[15:0]` (R230). -/
def Devices.srShift (l : Level) (d : Devices) : Devices :=
  { d with sr := { d.sr with shift := d.sr.shift <<< 1 ||| (BitVec.ofBool l).setWidth 16 } }

/-- A rising edge of SR_LOAD commits the word in SHIFT (R230); an address without meaning has an unspecified
effect (R235). -/
def Devices.srLatch (base : Byte) (d : Devices) : Devices :=
  match srRegAt base (srAddr d.sr.shift) with
  | some r => d.srWrite r (srValue d.sr.shift)
  | none => d.srUnspecified

/-! ## The wires -/

/-- The two-wire chip's wires carry what the engine drives: inside the platform's init/deinit window, or with a
platform that performs the actions anyway (70_reset_and_hazards.md R283, log 12). -/
def Devices.twWired (cfg : Config) (d : Devices) : Bool :=
  d.platformUp || cfg.wire == .always

/-- The shift-register chip's wires carry what the engine drives: once SR_INIT has configured them, or with a
platform that performs the actions anyway (95_test_vectors.md P5, log 12). -/
def srWired (cfg : Config) (ln : Lines) : Bool :=
  ln.srCfg.isSome || cfg.wire == .always

/-- An action of the two-wire port seen by the two-wire chip; `ln` are the lines before it (R221). -/
def Devices.twSees (cfg : Config) (ln : Lines) (a : Action) (d : Devices) : Devices :=
  match a with
  | .dio l =>
    if ln.twClk = true ∧ ln.twDioDir = .out ∧ ln.twDioOut ≠ l then
      if l = true then d.frameStop else d.frameStart
    else d
  | .clk true => if ln.twClk = false then d.clockRises ln.twDioDir ln.twDioOut else d
  | .sample l => d.acknowledge cfg l
  | _ => d

/-- An action of the shift-register port seen by the shift-register chip; `ln` are the lines before it (R230). -/
def Devices.srSees (cfg : Config) (ln : Lines) (a : Action) (d : Devices) : Devices :=
  match a with
  | .srClk true => if ln.srClk = false then d.srShift ln.srDin else d
  | .srLoad true => if ln.srLoad = false then d.srLatch cfg.digitRegBase else d
  | _ => d

/-- The two-wire chip when its wires carry nothing known: no frame is open and its registers are free. -/
def Devices.twLost (d : Devices) : Devices := d.twUnspecified.frameStop

/-- The effect of one port action outside the block (10_state.md R32; 43_attached_devices.md R221, R230). What the
platform's init and deinit hooks do on the wires is not in the spec; DESIGN CHOICE (log 21): PInit and PDeinit open and
close the platform's window and leave both chips, the two-wire receiver included, as they were. -/
def Devices.see (cfg : Config) (ln : Lines) (a : Action) (d : Devices) : Devices :=
  match a with
  | .pInit => { d with platformUp := true }
  | .pDeinit => { d with platformUp := false }
  | .dioOut | .dioIn | .dio _ | .clk _ | .sample _ =>
    if d.twWired cfg then d.twSees cfg ln a else d.twLost
  | .wait _ => d
  | .srCfg _ => d
  | .srClk _ | .srDin _ | .srLoad _ =>
    if srWired cfg ln then d.srSees cfg ln a else d.srUnspecified

end Sys2Proof.Machine
end

