-- ==== Sys2Proof/Machine/Ops.lean ====
section
/-! DEFINITION. Machine/Ops.lean: the pseudocode's primitives (00_scope.md R8): `emit`, `sample`, `finish`,
`raise`. The block has no memory (20_memory.md R54), so there are no memory operations; a result code is its only
"exception" (60_exceptions.md R250). -/

namespace Sys2Proof.Machine

/-- The effect of an action on the line state (10_state.md R32). -/
def Lines.drive (a : Action) (ln : Lines) : Lines :=
  match a with
  | .pInit => ln
  | .pDeinit => ln
  | .dioOut => { ln with twDioDir := .out }
  | .dioIn => { ln with twDioDir := .inp }
  | .dio l => { ln with twDioOut := l }
  | .clk l => { ln with twClk := l }
  | .sample _ => ln
  | .wait _ => ln
  | .srCfg r => { ln with srCfg := some r }
  | .srClk l => { ln with srClk := l }
  | .srDin l => { ln with srDin := l }
  | .srLoad l => { ln with srLoad := l }

/-- `emit(a)`: append to TRACE and apply the effect on the lines (00_scope.md R8, 10_state.md R33); the attached
devices see it. -/
def emit (a : Action) (s : State) : State :=
  { s with
    trace := s.trace ++ [a]
    lines := s.lines.drive a
    dev := s.dev.see s.cfg s.lines a }

/-- `emit` for each action of a list, in order. -/
def emitAll (as : List Action) (s : State) : State :=
  match as with
  | [] => s
  | a :: rest => emitAll rest (emit a s)

/-- The level that the oracle answers to the i-th sample from here (10_state.md R34): the supplied answers in
order, and a free value for each sample beyond them (log 3). -/
def oracleAt (i : Nat) (s : State) : Level :=
  match s.answers[i]? with
  | some l => l
  | none => Config.freeAnswer (s.asked + i)

/-- The level that the oracle answers next. -/
def nextLevel (s : State) : Level := oracleAt 0 s

/-- `sample()`: emit `Sample(l)` with the oracle's answer (00_scope.md R8). -/
def sample (s : State) : State :=
  emit (.sample (nextLevel s)) { s with answers := s.answers.tail, asked := s.asked + 1 }

/-- The operation in flight ends with result `r`: RC is written and BUSY clears. -/
def complete (r : Result) (s : State) : State := { s with rc := r, seq := none }

/-- `finish(Ok)` (00_scope.md R8). -/
def finish (s : State) : State := complete .ok s

/-- `raise E()` (00_scope.md R8, 60_exceptions.md R250): the operation ends at once with result `r`; no state is
saved and control goes nowhere. There is no return from it (R258). -/
def raise (r : Result) (s : State) : State := complete r s

end Sys2Proof.Machine
end

