-- ==== Sys2Proof/Machine/Flags.lean ====
section
/-! DEFINITION. Machine/Flags.lean: STATUS, the block's only flags (10_state.md R24, R28). -/

namespace Sys2Proof.Machine

/-- The code of a result (60_exceptions.md R251). -/
def Result.code : Result → BitVec 2
  | .ok => 0
  | .invalidAddress => 1
  | .ackFailure => 2
  | .illegalCommand => 3

/-- STATUS.BUSY (10_state.md R24). -/
def busy (s : State) : Bool := s.seq.isSome

/-- STATUS: RC in bits 1:0, BUSY in bit 8, the rest zero (10_state.md R24). -/
def statusWord (s : State) : Word :=
  (BitVec.ofBool (busy s)).setWidth 32 <<< 8 ||| s.rc.code.setWidth 32

end Sys2Proof.Machine
end

