-- ==== Sys2Proof/Machine/Operands.lean ====
section
/-! DEFINITION. Machine/Operands.lean: the operands an operation reads from the host registers
(10_state.md R23, R26) and the clamp of the count (40_two_wire_engine.md R124). -/

namespace Sys2Proof.Machine

/-- `R[PBUF_i][7:0]`. -/
def readPbuf (i : Nat) (s : State) : Byte := s.pbuf.getD i 0

/-- PBUF entry i has been written by the host since reset. -/
def pbufIsWritten (i : Nat) (s : State) : Bool := s.pbufWritten.getD i false

/-- `n <- min(c, TW_DIGITS - a)` (R124). -/
def clampCount (a c : Nat) : Nat := min c (twDigits - a)

/-- The pattern bytes copied at acceptance: P[i] for i in 0 .. n-1 (R125). -/
def pbufPatterns (n : Nat) (s : State) : List Byte := (List.range n).map fun i => readPbuf i s

/-- A TW_SETDIGITS would read an entry never written since reset (10_state.md R26). -/
def pbufFault (n : Nat) (s : State) : Bool := (List.range n).any fun i => !pbufIsWritten i s

/-- `sint(R[ARG])` (10_state.md R23). -/
def argValue (s : State) : Int := s.arg.toInt

end Sys2Proof.Machine
end

