-- ==== Sys2Proof/Machine/ChipBytes.lean ====
section
/-! DEFINITION. Machine/ChipBytes.lean: the instructions of the attached chips as meanings: a byte that the
two-wire chip takes (43_attached_devices.md R222 to R225) and a word that the shift-register chip commits
(R231 to R234). -/

namespace Sys2Proof.Machine

/-- A change of the attached devices alone. -/
def onDevices (f : Devices → Devices) (s : State) : State := { s with dev := f s.dev }

/-- CMD_DATA (R222). -/
def execCmdData (s : State) : Host.Outcome State Fault Refusal :=
  .next (onDevices Devices.takeCmdData s)

/-- CMD_ADDR (R223). -/
def execCmdAddr (a : Nat) (s : State) : Host.Outcome State Fault Refusal :=
  .next (onDevices (Devices.takeCmdAddr a) s)

/-- CMD_DISPCTL (R225). -/
def execCmdDispctl (b : BitVec 3) (on : Bool) (s : State) : Host.Outcome State Fault Refusal :=
  .next (onDevices (Devices.takeCmdDispctl b on) s)

/-- DATA (R224). -/
def execData (p : Byte) (s : State) : Host.Outcome State Fault Refusal :=
  .next (onDevices (Devices.takeData p) s)

/-- NOOP (R231): no register changes. -/
def execSrNoop (v : Byte) (s : State) : Host.Outcome State Fault Refusal :=
  .next (onDevices (Devices.srWrite .noop v) s)

/-- DIGIT0 (R232). -/
def execSrDigit0 (v : Byte) (s : State) : Host.Outcome State Fault Refusal :=
  .next (onDevices (Devices.srWrite (.digit 0) v) s)

/-- DIGIT1 (R232). -/
def execSrDigit1 (v : Byte) (s : State) : Host.Outcome State Fault Refusal :=
  .next (onDevices (Devices.srWrite (.digit 1) v) s)

/-- DIGIT2 (R232). -/
def execSrDigit2 (v : Byte) (s : State) : Host.Outcome State Fault Refusal :=
  .next (onDevices (Devices.srWrite (.digit 2) v) s)

/-- DIGIT3 (R232). -/
def execSrDigit3 (v : Byte) (s : State) : Host.Outcome State Fault Refusal :=
  .next (onDevices (Devices.srWrite (.digit 3) v) s)

/-- DECODE (R233). -/
def execSrDecode (v : Byte) (s : State) : Host.Outcome State Fault Refusal :=
  .next (onDevices (Devices.srWrite .decode v) s)

/-- INTENSITY (R234). -/
def execSrIntensity (v : Byte) (s : State) : Host.Outcome State Fault Refusal :=
  .next (onDevices (Devices.srWrite .intensity v) s)

/-- SCANLIMIT (R234). -/
def execSrScanlimit (v : Byte) (s : State) : Host.Outcome State Fault Refusal :=
  .next (onDevices (Devices.srWrite .scanLimit v) s)

/-- POWER (R234). -/
def execSrPower (v : Byte) (s : State) : Host.Outcome State Fault Refusal :=
  .next (onDevices (Devices.srWrite .power v) s)

/-- TEST (R234). -/
def execSrTest (v : Byte) (s : State) : Host.Outcome State Fault Refusal :=
  .next (onDevices (Devices.srWrite .test v) s)

end Sys2Proof.Machine
end

