-- ==== Sys2Proof/Machine/ShiftRegister.lean ====
section
/-! DEFINITION. Machine/ShiftRegister.lean: the shift-register engine (42_shift_register_engine.md). -/

namespace Sys2Proof.Machine

/-- One bit of SR_XFER: data, clock high, clock low (R181). -/
def srBitActions (b : Level) : List Action := [.srDin b, .srClk true, .srClk false]

/-- The actions of SR_XFER(addr, val): 16 bits, bit 15 first, then the latch pulse (R181). -/
def srXferActions (addr val : Byte) : List Action :=
  ((List.range 16).reverse.flatMap fun i => srBitActions ((srWordOf addr val).getLsbD i)) ++
    [.srLoad false, .srLoad true]

/-- SR_XFER(addr, val) (R181). -/
def srXfer (addr val : Byte) (s : State) : State := emitAll (srXferActions addr val) s

/-- The register address of digit position p: DIGIT_REG_BASE + p. -/
def digitAddr (cfg : Config) (p : Nat) : Byte := cfg.digitRegBase + BitVec.ofNat 8 p

/-- One SR_XFER for each position from `p` on, ascending (R184, R186). -/
def srWriteFrom (p : Nat) (codes : List Byte) (s : State) : State :=
  match codes with
  | [] => s
  | c :: rest => srWriteFrom (p + 1) rest (srXfer (digitAddr s.cfg p) c s)

/-- The number of decimal digits of a magnitude (R185). -/
def decimalLength (m : Nat) : Nat := if m = 0 then 1 else (Nat.toDigits 10 m).length

/-- code[p] of DISPLAY_CODES(n) (R185). -/
def displayCode (cfg : Config) (n : Int) (p : Nat) : Byte :=
  if p < decimalLength n.natAbs then BitVec.ofNat 8 (n.natAbs / 10 ^ p % 10)
  else if n < 0 ∧ p = decimalLength n.natAbs then cfg.minusCode
  else cfg.blankCode

/-- DISPLAY_CODES(n), position 0 first (R185). -/
def displayCodes (cfg : Config) (n : Int) : List Byte :=
  (List.range srDigits).map fun p => displayCode cfg n p

/-- The codes of SR_CLEAR (R184). -/
def blankCodes (cfg : Config) : List Byte := List.replicate srDigits cfg.blankCode

/-- The actions of SR_INIT (R182). -/
def srInitActions (cfg : Config) : List Action := [.srCfg cfg.srRate, .srClk false, .srLoad true]

/-- SR_INIT (R182). -/
def execSrInit (s : State) : Host.Outcome State Fault Refusal :=
  .next (finish (emitAll (srInitActions s.cfg) s))

/-- SR_WRITEREG (R183); the address is not checked. -/
def execSrWritereg (reg value : Byte) (s : State) : Host.Outcome State Fault Refusal :=
  .next (finish (srXfer reg value s))

/-- SR_CLEAR (R184). -/
def execSrClear (s : State) : Host.Outcome State Fault Refusal :=
  .next (finish (srWriteFrom 0 (blankCodes s.cfg) s))

/-- SR_DISPNUM (R186). "ARG never written since reset makes a model fault" (R186, 10_state.md R23), before the first
action (60_exceptions.md R255; 95_test_vectors.md T-SR6: "gives a model fault and no action"). -/
def execSrDispnum (s : State) : Host.Outcome State Fault Refusal :=
  if s.argWritten = false then .fault .argUnwritten
  else .next (finish (srWriteFrom 0 (displayCodes s.cfg (argValue s)) s))

end Sys2Proof.Machine
end

