-- ==== Sys2Proof/Machine/Segment.lean ====
section
/-! DEFINITION. Machine/Segment.lean: the segment encoder ROM and SEG_ENCODE (41_segment_encoder.md). -/

namespace Sys2Proof.Machine

/-- The nibble that a value stands for: 0..15, 'A'..'F' or 'a'..'f' (R161). -/
def hexNibble (v : Int) : Option Nat :=
  if 0 ≤ v ∧ v ≤ 15 then some v.toNat
  else if 0x41 ≤ v ∧ v ≤ 0x46 then some (v - 0x41 + 10).toNat
  else if 0x61 ≤ v ∧ v ≤ 0x66 then some (v - 0x61 + 10).toNat
  else none

/-- SEG_TABLE[k] (R160). -/
def segEntry (cfg : Config) (k : Nat) : Byte := cfg.segTable.getD k 0

/-- The standard glyphs of hex digit k as segment masks (R160 (c)): the conventional one and, for 6, 7 and 9, the
variant that R160 names. DESIGN CHOICE (log 20): the spec gives no complete list of variants. The 6 without segment a
has the mask 0x7C, which is also the one mask listed for b, so no table with that 6 meets R160 (b) and this list
together; which glyph b has beside it is left open by R160. -/
def standardGlyphs (k : Nat) : List Byte :=
  match k with
  | 6 => [0x7D, 0x7C]
  | 7 => [0x07, 0x27]
  | 9 => [0x6F, 0x67]
  | _ => [defaultSegTable.getD k 0]

/-- ENCODE(v, dp), on every integer (R161). -/
def segPattern (cfg : Config) (v : Int) (dp : Bool) : Byte :=
  match hexNibble v with
  | some k => segEntry cfg k ||| (if dp then 0x80 else 0x00)
  | none => 0x00

/-- ENCODE applied to the 8-bit field V (R161, 92_eei_decisions.md D19). -/
def segByte (cfg : Config) (v : Byte) (dp : Bool) : Byte := segPattern cfg (v.toNat : Int) dp

/-- `R[ENCOUT] <- zext_32(p)`; ENCOUT's bits 31:8 read as zero (10_state.md R25). -/
def writeEncout (p : Byte) (s : State) : State := { s with encout := p }

/-- SEG_ENCODE (R162). -/
def execSegEncode (v : Byte) (dp : Bool) (s : State) : Host.Outcome State Fault Refusal :=
  .next (finish (writeEncout (segByte s.cfg v dp) s))

end Sys2Proof.Machine
end

