-- ==== Sys2Proof/Machine/TwoWire.lean ====
section
/-! DEFINITION. Machine/TwoWire.lean: the two-wire engine (40_two_wire_engine.md): the bus primitives of its
section 1 and the six operations of its section 2. -/

namespace Sys2Proof.Machine

/-! ## Bus primitives (R112 to R118) -/

/-- The actions of START (R112). -/
def startActions : List Action :=
  [.dioOut, .dio true, .clk true, .wait .tBit, .dio false, .wait .tBit]

/-- The actions of BIT(b) (R113). -/
def bitActions (b : Level) : List Action :=
  [.clk false, .dio b, .wait .tBit, .clk true, .wait .tBit]

/-- The bits of a byte in the order they are sent: bit 0 first (R115, 20_memory.md R55). -/
def byteActions (x : Byte) : List Action :=
  (List.range 8).flatMap fun i => bitActions (x.getLsbD i)

/-- The actions of ACK before its sample (R114). -/
def ackOpen : List Action :=
  [.clk false, .dioIn, .wait .tBit, .clk true, .wait .tBit]

/-- The actions of ACK after its sample (R114). -/
def ackClose : List Action := [.clk false, .dioOut]

/-- The actions of STOP (R116). -/
def stopActions : List Action :=
  [.clk false, .wait .tBit, .dio false, .wait .tBit, .clk true, .wait .tBit, .dio true, .wait .tBit]

/-- ACK(): the sampled level and the state after (R114). -/
def ackPhase (s : State) : Level × State :=
  let s1 := emitAll ackOpen s
  (nextLevel s1, emitAll ackClose (sample s1))

/-- TX_BYTE(x) (R115). -/
def txByte (x : Byte) (s : State) : Level × State := ackPhase (emitAll (byteActions x) s)

/-- The bytes of a frame, in list order; a checked frame ends at the first nak (R118). -/
def sendBytes (check : Bool) (seq : List Byte) (s : State) : Result × State :=
  match seq with
  | [] => (.ok, s)
  | x :: rest =>
    let r := txByte x s
    if check = true ∧ r.1 ≠ s.cfg.ackLevel then (.ackFailure, r.2)
    else sendBytes check rest r.2

/-- A frame is abandoned: no STOP and no settle delay, and the two-wire chip's registers hold free values from
here (R118; 43_attached_devices.md R227). -/
def abandonFrame (s : State) : State := { s with dev := s.dev.twUnspecified }

/-- FRAME(seq, check) (R117, R118). -/
def frame (seq : List Byte) (check : Bool) (s : State) : Result × State :=
  match sendBytes check seq (emitAll startActions s) with
  | (.ok, s1) => (.ok, emit (.wait .tBurst) (emitAll stopActions s1))
  | (r, s1) => (r, abandonFrame s1)

/-- The bytes of a digit frame: CMD_ADDR(a) and the n patterns (R124). -/
def digitFrameBytes (pat : Nat → Byte) (a n : Nat) : List Byte :=
  cmdAddrByte a :: (List.range n).map pat

/-- WRITE_DIGITS(pat, a, c) (R124). -/
def writeDigits (pat : Nat → Byte) (a c : Nat) (s : State) : State :=
  if twDigits ≤ a then raise .invalidAddress s
  else match frame [cmdDataByte] true s with
    | (.ok, s1) =>
      match frame (digitFrameBytes pat a (clampCount a c)) true s1 with
      | (.ok, s2) => finish s2
      | (r, s2) => raise r s2
    | (r, s1) => raise r s1

/-! ## Operations (R121 to R127) -/

/-- TW_INIT (R121). -/
def execTwInit (s : State) : Host.Outcome State Fault Refusal :=
  .next (finish (emit .pInit s))

/-- TW_DEINIT (R122). -/
def execTwDeinit (s : State) : Host.Outcome State Fault Refusal :=
  .next (finish (emit .pDeinit s))

/-- TW_CONFIG (R123): the acknowledgment is sampled and not checked. -/
def execTwConfig (brightness : Byte) (on : Bool) (s : State) : Host.Outcome State Fault Refusal :=
  .next (finish (frame [cmdDispctlByte brightness on] false s).2)

/-- TW_SETDIGITS (R125). "An entry read but never written since reset makes a model fault" (R125, 10_state.md R26),
after the address check and before the first action (60_exceptions.md R255). -/
def execTwSetdigits (start count : Nat) (s : State) : Host.Outcome State Fault Refusal :=
  if start < twDigits ∧ pbufFault (clampCount start count) s = true then .fault .pbufUnwritten
  else .next (writeDigits (fun i => readPbuf i s) start count s)

/-- TW_SETDIGIT (R126). -/
def execTwSetdigit (pattern : Byte) (addr : Nat) (s : State) : Host.Outcome State Fault Refusal :=
  .next (writeDigits (fun _ => pattern) addr 1 s)

/-- TW_SETHEX (R127); ENCOUT is not written. -/
def execTwSethex (value : Byte) (dp : Bool) (addr : Nat) (s : State) : Host.Outcome State Fault Refusal :=
  .next (writeDigits (fun _ => segByte s.cfg value dp) addr 1 s)

end Sys2Proof.Machine
end

