-- ==== Sys2Proof/Machine/Dispatch.lean ====
section
/-! DEFINITION. Machine/Dispatch.lean: one arm for each row of the opcode table. -/

namespace Sys2Proof.Machine

/-- The effect of one instruction. -/
def exec (i : Instr) (s : State) : Host.Outcome State Fault Refusal :=
  match i with
  | .twInit => Sys2Proof.Machine.execTwInit s
  | .twDeinit => Sys2Proof.Machine.execTwDeinit s
  | .twConfig brightness on => Sys2Proof.Machine.execTwConfig brightness on s
  | .twSetdigit pattern addr => Sys2Proof.Machine.execTwSetdigit pattern addr s
  | .twSetdigits start count => Sys2Proof.Machine.execTwSetdigits start count s
  | .twSethex value dp addr => Sys2Proof.Machine.execTwSethex value dp addr s
  | .segEncode value dp => Sys2Proof.Machine.execSegEncode value dp s
  | .srInit => Sys2Proof.Machine.execSrInit s
  | .srWritereg reg value => Sys2Proof.Machine.execSrWritereg reg value s
  | .srClear => Sys2Proof.Machine.execSrClear s
  | .srDispnum => Sys2Proof.Machine.execSrDispnum s
  | .cmdData => Sys2Proof.Machine.execCmdData s
  | .cmdAddr a => Sys2Proof.Machine.execCmdAddr a s
  | .cmdDispctl b on => Sys2Proof.Machine.execCmdDispctl b on s
  | .data p => Sys2Proof.Machine.execData p s
  | .srNoop value => Sys2Proof.Machine.execSrNoop value s
  | .srDigit0 value => Sys2Proof.Machine.execSrDigit0 value s
  | .srDigit1 value => Sys2Proof.Machine.execSrDigit1 value s
  | .srDigit2 value => Sys2Proof.Machine.execSrDigit2 value s
  | .srDigit3 value => Sys2Proof.Machine.execSrDigit3 value s
  | .srDecode value => Sys2Proof.Machine.execSrDecode value s
  | .srIntensity value => Sys2Proof.Machine.execSrIntensity value s
  | .srScanlimit value => Sys2Proof.Machine.execSrScanlimit value s
  | .srPower value => Sys2Proof.Machine.execSrPower value s
  | .srTest value => Sys2Proof.Machine.execSrTest value s

end Sys2Proof.Machine
end

