-- ==== Sys2Proof/Machine/Sequencer.lean ====
section
/-! DEFINITION. Machine/Sequencer.lean: an operation one port action at a time (10_state.md R29): its action
list, its acceptance, one move of the engine, its completion. With `Grain.action` (log 2) the machine runs
operations through these; the meanings of Dispatch.lean run a whole operation in one step. -/

namespace Sys2Proof.Machine

/-- ACK as entries of an action list (40_two_wire_engine.md R114). -/
def ackPlan (check : Bool) : List MicroOp :=
  ackOpen.map .act ++ [.sample, .act (.clk false), .ackEnd check]

/-- TX_BYTE(x) as entries of an action list (R115). -/
def bytePlan (check : Bool) (x : Byte) : List MicroOp := (byteActions x).map .act ++ ackPlan check

/-- FRAME(seq, check) when no byte is refused (R118). -/
def framePlan (check : Bool) (seq : List Byte) : List MicroOp :=
  startActions.map .act ++ seq.flatMap (bytePlan check) ++ stopActions.map .act ++ [.act (.wait .tBurst)]

/-- The second frame of a digit write (R124). -/
def digitFramePlan (pat : Nat → Byte) (a c : Nat) : List MicroOp :=
  framePlan true (digitFrameBytes pat a (clampCount a c))

/-- WRITE_DIGITS(pat, a, c) (R124): the entries, and the result when they have all been emitted. -/
def writeDigitsPlan (pat : Nat → Byte) (a c : Nat) : List MicroOp × Result :=
  if twDigits ≤ a then ([], .invalidAddress)
  else (framePlan true [cmdDataByte] ++ digitFramePlan pat a c, .ok)

/-- The actions of one SR_XFER for each position from `p` on (42_shift_register_engine.md R184, R186). -/
def srWriteActions (cfg : Config) (p : Nat) (codes : List Byte) : List Action :=
  match codes with
  | [] => []
  | c :: rest => srXferActions (digitAddr cfg p) c ++ srWriteActions cfg (p + 1) rest

/-- The pattern of a digit write: the copied PBUF bytes, the pattern operand, or the encoded value. -/
def patternOf (cfg : Config) (patterns : List Byte) : Instr → Nat → Byte
  | .twSetdigit p _ => fun _ => p
  | .twSethex v dp _ => fun _ => segByte cfg v dp
  | _ => fun i => patterns.getD i 0

/-- The action list of an operation, and its result when all of it has been emitted. A bus byte or word is no
command and has none. -/
def plan (cfg : Config) (patterns : List Byte) (arg : Word) (i : Instr) : List MicroOp × Result :=
  match i with
  | .twInit => ([.act .pInit], .ok)
  | .twDeinit => ([.act .pDeinit], .ok)
  | .twConfig b on => (framePlan false [cmdDispctlByte b on], .ok)
  | .twSetdigit _ a => writeDigitsPlan (patternOf cfg patterns i) a 1
  | .twSetdigits a c => writeDigitsPlan (patternOf cfg patterns i) a c
  | .twSethex _ _ a => writeDigitsPlan (patternOf cfg patterns i) a 1
  | .segEncode _ _ => ([], .ok)
  | .srInit => ((srInitActions cfg).map .act, .ok)
  | .srWritereg r v => ((srXferActions r v).map .act, .ok)
  | .srClear => ((srWriteActions cfg 0 (blankCodes cfg)).map .act, .ok)
  | .srDispnum => ((srWriteActions cfg 0 (displayCodes cfg arg.toInt)).map .act, .ok)
  | .cmdData => ([], .ok)
  | .cmdAddr _ => ([], .ok)
  | .cmdDispctl _ _ => ([], .ok)
  | .data _ => ([], .ok)
  | .srNoop _ => ([], .ok)
  | .srDigit0 _ => ([], .ok)
  | .srDigit1 _ => ([], .ok)
  | .srDigit2 _ => ([], .ok)
  | .srDigit3 _ => ([], .ok)
  | .srDecode _ => ([], .ok)
  | .srIntensity _ => ([], .ok)
  | .srScanlimit _ => ([], .ok)
  | .srPower _ => ([], .ok)
  | .srTest _ => ([], .ok)

/-- The model fault that the spec itself orders for an operand register never written since reset: "A model faults an
SR_DISPNUM that would read ARG before any host write to ARG since reset" (10_state.md R23), "A model faults a
TW_SETDIGITS that would read an entry not written by the host since reset" (R26). It is checked after the address and
before the first action (60_exceptions.md R255). -/
def operandFault (i : Instr) (s : State) : Option Fault :=
  match i with
  | .twSetdigits a c =>
    if a < twDigits ∧ pbufFault (clampCount a c) s = true then some .pbufUnwritten else none
  | .srDispnum => if s.argWritten = false then some .argUnwritten else none
  | _ => none

/-- The pattern bytes copied at acceptance (10_state.md R29): PBUF0..PBUF(n-1) for TW_SETDIGITS. -/
def copiedPatterns (i : Instr) (s : State) : List Byte :=
  match i with
  | .twSetdigits a c => pbufPatterns (clampCount a c) s
  | _ => []

/-- The operation that the acceptance of command word `w`, decoded as `i`, puts in flight (10_state.md R29). -/
def inFlightOf (w : Word) (i : Instr) (s : State) : InFlight :=
  let patterns := copiedPatterns i s
  let p := plan s.cfg patterns s.arg i
  { word := w, instr := i, patterns := patterns, arg := s.arg, todo := p.1, level := s.cfg.ackLevel
    result := p.2, disturbed := false }

/-- The acceptance of a command: BUSY becomes 1; RC still holds the previous code (10_state.md R22, R24). -/
def accept (w : Word) (i : Instr) (s : State) : Host.Outcome State Fault Refusal :=
  match operandFault i s with
  | some f => .fault f
  | none => .next { s with seq := some (inFlightOf w i s) }

/-- What an operation does at its completion beside writing RC: SEG_ENCODE writes ENCOUT
(41_segment_encoder.md R162); a digit write whose frames were parted by another driver's frame leaves the
two-wire chip unspecified (70_reset_and_hazards.md R286). -/
def settle (f : InFlight) (s : State) : State :=
  let s1 := match f.instr with
    | .segEncode v dp => writeEncout (segByte s.cfg v dp) s
    | _ => s
  if f.disturbed then onDevices Devices.twUnspecified s1 else s1

/-- One move of the engine: the next action of the operation in flight, or its completion. An idle engine does
nothing (70_reset_and_hazards.md R280: it waits for the first CMD write). -/
def engineStep (s : State) : State :=
  match s.seq with
  | none => s
  | some f =>
    match f.todo with
    | [] => complete f.result (settle f s)
    | .act a :: rest => { emit a s with seq := some { f with todo := rest } }
    | .sample :: rest => { sample s with seq := some { f with todo := rest, level := nextLevel s } }
    | .ackEnd check :: rest =>
      let s1 := emit .dioOut s
      if check = true ∧ f.level ≠ s.cfg.ackLevel then
        { abandonFrame s1 with seq := some { f with todo := [], result := .ackFailure } }
      else { s1 with seq := some { f with todo := rest } }

/-- `n` moves of the engine. -/
def engineSteps (n : Nat) (s : State) : State :=
  match n with
  | 0 => s
  | k + 1 => engineSteps k (engineStep s)

/-- The operation uses the two-wire port (40_two_wire_engine.md; R32: the TWE emits its actions only). -/
def usesTwPort : Instr → Bool
  | .twInit | .twDeinit | .twConfig _ _ | .twSetdigit _ _ | .twSetdigits _ _ | .twSethex _ _ _ => true
  | _ => false

/-- The operation uses the shift-register port. -/
def usesSrPort : Instr → Bool
  | .srInit | .srWritereg _ _ | .srClear | .srDispnum => true
  | _ => false

/-- A digit write stands exactly between its two frames (20_memory.md R62, 70_reset_and_hazards.md R286). DESIGN CHOICE
(log 13): the gap begins when all of the mode frame's actions have been emitted, STOP's last wait and Wait(T_BURST)
among them, and ends before the digit frame's first action; R286 does not say where it begins. -/
def betweenFrames (cfg : Config) (f : InFlight) : Bool :=
  match f.instr with
  | .twSetdigit _ a => f.todo == digitFramePlan (patternOf cfg f.patterns f.instr) a 1
  | .twSetdigits a c => f.todo == digitFramePlan (patternOf cfg f.patterns f.instr) a c
  | .twSethex _ _ a => f.todo == digitFramePlan (patternOf cfg f.patterns f.instr) a 1
  | _ => false

end Sys2Proof.Machine
end

