-- ==== Sys2Proof/Machine/HostPort.lean ====
section
/-! DEFINITION. Machine/HostPort.lean: the host register window (10_state.md R22 to R27, 20_memory.md R50 to
R60). -/

namespace Sys2Proof.Machine

/-- The address of a window offset in the host's own map (20_memory.md R50, HOST_BASE). -/
def windowAddress (cfg : Config) (off : Nat) : Nat := cfg.hostBase + off

/-- The index of the PBUF entry at an offset: offsets 0x10 + 4·i, i = 0..5 (10_state.md R26). -/
def pbufIndex (off : Nat) : Option Nat :=
  if 0x10 ≤ off ∧ off ≤ 0x24 then some ((off - 0x10) / 4) else none

/-- What a read of the register at an offset gives (20_memory.md R50): CMD and unmapped offsets read 0. -/
def readReg (off : Nat) (s : State) : Word :=
  if off = 0x04 then s.arg
  else if off = 0x08 then statusWord s
  else if off = 0x0C then s.encout.setWidth 32
  else match pbufIndex off with
    | some i => (readPbuf i s).setWidth 32
    | none => 0

/-- A write to a register other than CMD: ARG and PBUF store, the others ignore it (20_memory.md R50, R63). -/
def writeReg (off : Nat) (v : Word) (s : State) : State :=
  if off = 0x04 then { s with arg := v, argWritten := true }
  else match pbufIndex off with
    | some i => { s with
        pbuf := s.pbuf.setIfInBounds i (v.extractLsb' 0 8)
        pbufWritten := s.pbufWritten.setIfInBounds i true }
    | none => s

/-- A write to CMD with BUSY = 0 (10_state.md R22; 30_encoding.md R80): a reserved word is rejected with
IllegalCommand (60_exceptions.md R254), another starts its operation. -/
def command (w : Word) (s : State) : Host.Outcome State Fault Refusal :=
  match decodeHost w with
  | .error _ => .next (raise .illegalCommand s)
  | .ok i =>
    match s.cfg.grain with
    | .operation => exec i s
    | .action => accept w i s

/-- The checks on every host access: width and alignment (20_memory.md R59), the window (R50), BUSY
(70_reset_and_hazards.md R284: only STATUS may be read). -/
def accessStop (off width : Nat) (statusRead : Bool) (s : State) : Option (Fault ⊕ Refusal) :=
  if width ≠ 4 ∨ off % 4 ≠ 0 then some (.inr .badAccess)
  else if 0x40 ≤ off then some (.inl .noSuchRegister)
  else if busy s = true ∧ statusRead = false then some (.inr .accessWhileBusy)
  else none

/-- `MemWrite(off, width, v)`. -/
def hostWrite (off width : Nat) (v : Word) (s : State) : Host.Outcome State Fault Refusal :=
  match accessStop off width false s with
  | some (.inl f) => .fault f
  | some (.inr r) => .refused r
  | none => if off = 0x00 then command v s else .next (writeReg off v s)

/-- `MemRead(off, width)`: the value goes to the host (log 15). -/
def hostRead (off width : Nat) (s : State) : Host.Outcome State Fault Refusal :=
  match accessStop off width (off == 0x08) s with
  | some (.inl f) => .fault f
  | some (.inr r) => .refused r
  | none => .next { s with hostData := readReg off s }

/-- The host's `wait` (30_encoding.md R95): STATUS is read; while BUSY is 1 the engine goes on and the wait is
still to come. -/
def hostWait (s : State) : Host.Outcome State Fault Refusal :=
  let s1 := { s with hostData := statusWord s }
  if busy s then .next (engineStep { s1 with inputs := .hostWait :: s1.inputs }) else .next s1

end Sys2Proof.Machine
end

