-- ==== Sys2Proof/Machine/Inputs.lean ====
section
/-! DEFINITION. Machine/Inputs.lean: the moves of the agents outside the engine, one step of the machine, and how
an instruction comes to be the next one (log 1). -/

namespace Sys2Proof.Machine

/-- Another driver moves the two-wire lines (70_reset_and_hazards.md R285, R286; log 13). With no operation on
the port the move is `free`; exactly between the two frames of a digit write it leaves the chip unspecified, now
and after the digit frame; at any other time it is refused. -/
def foreignTw (free : State → Host.Outcome State Fault Refusal) (s : State) : Host.Outcome State Fault Refusal :=
  match s.seq with
  | none => free s
  | some f =>
    if usesTwPort f.instr = false then free s
    else if betweenFrames s.cfg f then
      .next { onDevices Devices.twUnspecified s with seq := some { f with disturbed := true } }
    else .refused .foreignDriver

/-- The two-wire chip takes a byte from another driver: inside a frame the byte is executed at its position; one
without a meaning there has an unspecified effect (43_attached_devices.md R228); outside a frame the chip takes
nothing (R221). -/
def busByte (b : Byte) (s : State) : Host.Outcome State Fault Refusal :=
  if s.dev.tw.rx.active = false then .next s
  else match decodeTw s.dev.tw.rx.pos b with
    | .ok i => exec i s
    | .error _ => .next (onDevices (fun d => d.twUnspecified.expect .afterOther) s)

/-- SHIFT holds the word that another driver shifted (43_attached_devices.md R230). -/
def shiftIn (w : BitVec 16) (d : Devices) : Devices := { d with sr := { d.sr with shift := w } }

/-- The shift-register chip takes a latched word from another driver; an address without meaning has an
unspecified effect (R235). -/
def busWord (w : BitVec 16) (s : State) : Host.Outcome State Fault Refusal :=
  match decodeSr s.cfg.digitRegBase w with
  | .ok i => exec i (onDevices (shiftIn w) s)
  | .error _ => .next (onDevices (fun d => (shiftIn w d).srUnspecified) s)

/-- Another driver moves the shift-register lines (R285). -/
def foreignSr (w : BitVec 16) (s : State) : Host.Outcome State Fault Refusal :=
  match s.seq with
  | none => busWord w s
  | some f => if usesSrPort f.instr = false then busWord w s else .refused .foreignDriver

/-- A platform reset of the block (70_reset_and_hazards.md R280): the block's state is that after reset; the
chips, which see unspecified lines, hold free values (log 14). -/
def platformReset (s : State) : State :=
  { State.reset with
    cfg := s.cfg
    answers := s.answers
    asked := s.asked
    inputs := s.inputs
    hostData := s.hostData
    dev := { s.dev.srUnspecified.twLost with platformUp := false } }

/-- One input, already taken off the list. -/
def takeInput (e : Input) (s : State) : Host.Outcome State Fault Refusal :=
  match e with
  | .hostWrite off width v => hostWrite off width v s
  | .hostRead off width => hostRead off width s
  | .hostWait => hostWait s
  | .engine => .next (engineStep s)
  | .twStart => foreignTw (fun t => .next (onDevices Devices.frameStart t)) s
  | .twByte b => foreignTw (busByte b) s
  | .twStop => foreignTw (fun t => .next (onDevices Devices.frameStop t)) s
  | .srWord w => foreignSr w s
  | .platformReset => .next (platformReset s)

/-- One step: the next input, or, with none, the engine's own move. -/
def nextMove (s : State) : Host.Outcome State Fault Refusal :=
  match s.inputs with
  | [] => .next (engineStep s)
  | e :: rest => takeInput e { s with inputs := rest }

/-- The receiver of the two-wire chip inside a frame at the position where the byte has its meaning: a command
opens the frame, any other byte follows CMD_ADDR (30_encoding.md R88). -/
def awaitByte (b : Byte) (d : Devices) : Devices :=
  match decodeTw .first b with
  | .ok _ => d.frameStart
  | .error _ => d.frameStart.expect .afterAddr

/-- The instruction of an opcode-table word made the next move (log 1): a command word is written to CMD with BUSY = 0
and one step per operation, a bus byte or word arrives from a driver while the port is free. -/
def fetchWord (nbits w : Nat) (s : State) : State :=
  match nbits with
  | 32 => { s with
      seq := none
      cfg := { s.cfg with grain := .operation }
      inputs := .hostWrite 0x00 4 (BitVec.ofNat 32 w) :: s.inputs }
  | 16 => { s with
      seq := none
      cfg := { s.cfg with digitRegBase := 0x01 }
      inputs := .srWord (BitVec.ofNat 16 w) :: s.inputs }
  | 8 => { s with
      seq := none
      dev := awaitByte (BitVec.ofNat 8 w) s.dev
      inputs := .twByte (BitVec.ofNat 8 w) :: s.inputs }
  | _ => s

end Sys2Proof.Machine
end

