-- ==== Sys2Proof/Machine/Step.lean ====
section
/-! DEFINITION. Machine/Step.lean: one step of the machine, and an instruction made the next one. -/

namespace Sys2Proof.Machine

/-- One step (log 1). -/
def step (s : State) : Host.Outcome State Fault Refusal := nextMove s

/-- The state whose next step runs the instruction of an opcode-table word (log 1). -/
def State.withFetchWord (s : State) (nbits w : Nat) : State := fetchWord nbits w s

end Sys2Proof.Machine
end

