-- ==== Sys2Proof/Machine/Assembler.lean ====
section
/-! DEFINITION. Machine/Assembler.lean: the host assembly language of 30_encoding.md R94 and R95: a line becomes
host accesses, or is refused when an operand does not fit. -/

namespace Sys2Proof.Machine

/-- The register names of the assembly language (20_memory.md R50). -/
inductive HostReg where
  | cmd | arg | status | encout
  | pbuf (i : Fin 6)
deriving DecidableEq, Repr

/-- `offset(REG)` (20_memory.md R50). -/
def HostReg.offset : HostReg → Nat
  | .cmd => 0x00
  | .arg => 0x04
  | .status => 0x08
  | .encout => 0x0C
  | .pbuf i => 0x10 + 4 * i.val

/-- One line (R94) or pseudo-instruction (R95). -/
inductive Asm where
  | wr (reg : HostReg) (v : Int)
  | rd (reg : HostReg)
  | twInit
  | twDeinit
  | twConfig (b on : Nat)
  | twSetdigit (p a : Nat)
  | twSetdigits (a c : Nat)
  | twSethex (v dp a : Nat)
  | segEncode (v dp : Nat)
  | srInit
  | srWritereg (r v : Nat)
  | srClear
  | srDispnum
  | wait
  | twShow (a c : Nat) (patterns : List Nat)
  | srNumber (n : Int)
  | srSetup (d i s p t : Nat)
deriving DecidableEq, Repr

/-- `wr CMD, <encoding>`, when the operands fit. -/
def asmCommand (fits : Bool) (i : Instr) : Option (List Input) :=
  match fits, encode i with
  | true, .host w => some [.hostWrite 0x00 4 w]
  | _, _ => none

/-- A value as a 32-bit word; negative numbers in two's complement (R95). DESIGN CHOICE (log 18): a value outside
-2^31 .. 2^32 - 1 is refused. -/
def asmWord (v : Int) : Option Word :=
  if -2147483648 ≤ v ∧ v ≤ 4294967295 then some (BitVec.ofInt 32 v) else none

/-- `wr REG, v`. -/
def asmWrite (reg : HostReg) (v : Int) : Option (List Input) :=
  (asmWord v).map fun w => [.hostWrite reg.offset 4 w]

/-- `sr.writereg r, v; wait`. -/
def asmWriteregWait (r v : Nat) : Option (List Input) :=
  (asmCommand (r ≤ 255 && v ≤ 255) (.srWritereg (BitVec.ofNat 8 r) (BitVec.ofNat 8 v))).map (· ++ [.hostWait])

/-- `wr PBUF_i, p` for i = k, k+1, ... A seventh pattern is refused (R95, k ≤ 6). DESIGN CHOICE (log 18): a pattern is
the operand of a `wr` and may be any 32-bit word, of which PBUF keeps bits 7:0; the bound p ≤ 255 of R94 is taken for
the operand of `tw.setdigit` only. -/
def asmPatterns (k : Nat) (patterns : List Nat) : Option (List Input) :=
  match patterns with
  | [] => some []
  | p :: rest =>
    if h : k < 6 then do
      let here ← asmWrite (.pbuf ⟨k, h⟩) p
      let more ← asmPatterns (k + 1) rest
      return here ++ more
    else none

/-- The host accesses of a line (R94, R95); `none` when an operand does not fit. -/
def assemble (line : Asm) : Option (List Input) :=
  match line with
  | .wr reg v => asmWrite reg v
  | .rd reg => some [.hostRead reg.offset 4]
  | .twInit => asmCommand true .twInit
  | .twDeinit => asmCommand true .twDeinit
  | .twConfig b on => asmCommand (b ≤ 255 && on ≤ 1) (.twConfig (BitVec.ofNat 8 b) (on == 1))
  | .twSetdigit p a => asmCommand (p ≤ 255 && a ≤ 255) (.twSetdigit (BitVec.ofNat 8 p) a)
  | .twSetdigits a c => asmCommand (a ≤ 255 && c ≤ 255) (.twSetdigits a c)
  | .twSethex v dp a => asmCommand (v ≤ 255 && dp ≤ 1 && a ≤ 255) (.twSethex (BitVec.ofNat 8 v) (dp == 1) a)
  | .segEncode v dp => asmCommand (v ≤ 255 && dp ≤ 1) (.segEncode (BitVec.ofNat 8 v) (dp == 1))
  | .srInit => asmCommand true .srInit
  | .srWritereg r v => asmCommand (r ≤ 255 && v ≤ 255) (.srWritereg (BitVec.ofNat 8 r) (BitVec.ofNat 8 v))
  | .srClear => asmCommand true .srClear
  | .srDispnum => asmCommand true .srDispnum
  | .wait => some [.hostWait]
  | .twShow a c patterns => do
    let writes ← asmPatterns 0 patterns
    let cmd ← asmCommand (a ≤ 255 && c ≤ 255) (.twSetdigits a c)
    return writes ++ cmd ++ [.hostWait]
  | .srNumber n => do
    let write ← if n ≤ 2147483647 then asmWrite .arg n else none
    let cmd ← asmCommand true .srDispnum
    return write ++ cmd ++ [.hostWait]
  | .srSetup d i s p t => do
    let l1 ← asmWriteregWait 0x09 d
    let l2 ← asmWriteregWait 0x0A i
    let l3 ← asmWriteregWait 0x0B s
    let l4 ← asmWriteregWait 0x0C p
    let l5 ← asmWriteregWait 0x0F t
    return l1 ++ l2 ++ l3 ++ l4 ++ l5

/-- The host accesses of a program, line by line. -/
def assembleAll (lines : List Asm) : Option (List Input) :=
  match lines with
  | [] => some []
  | l :: rest => do
    let here ← assemble l
    let more ← assembleAll rest
    return here ++ more

end Sys2Proof.Machine
end

