-- ==== Sys2Proof/Safety.lean ====
section
/-! DEFINITION. Safety.lean: the words in which claims about the machine are made: outcomes, what
the oracle answers, the actions of a frame, what a run reports, and the invariant of the line state. -/

namespace Sys2Proof.Machine

/-! ## Outcomes -/

/-- The outcome with the next state read through `f`. -/
def viewNext {σ τ φ ρ : Type} (f : σ → τ) : Host.Outcome σ φ ρ → Host.Outcome τ φ ρ
  | .next s => .next (f s)
  | .fault r => .fault r
  | .refused r => .refused r

/-- Everything the block holds and reports, less the line levels and the attached devices: two states with the
same report differ at most in those (10_state.md R33, R35, R36 (e)). -/
def report (s : State) : State := { s with lines := Lines.reset, dev := Devices.reset }

/-! ## The oracle (10_state.md R34) -/

/-- The next `k` samples are acknowledged. -/
def AllAck (k : Nat) (s : State) : Prop := ∀ i, i < k → oracleAt i s = s.cfg.ackLevel

/-- The first sample that is not acknowledged is the one after `j` others. -/
def FirstNak (j : Nat) (s : State) : Prop := AllAck j s ∧ oracleAt j s ≠ s.cfg.ackLevel

/-- The levels of the `k` samples from the i-th on. -/
def levelsFrom (i k : Nat) (s : State) : List Level := (List.range k).map fun j => oracleAt (i + j) s

/-- The state with `k` samples taken from the oracle. -/
def afterSamples (k : Nat) (s : State) : State := { s with answers := s.answers.drop k, asked := s.asked + k }

/-! ## The actions of a frame (40_two_wire_engine.md R112 to R118) -/

/-- TX_BYTE(x) whose sample answered `l`. -/
def sentByte (x : Byte) (l : Level) : List Action := byteActions x ++ ackOpen ++ [.sample l] ++ ackClose

/-- The bytes of a frame with their samples. -/
def sentBytes (seq : List Byte) (ls : List Level) : List Action := (List.zipWith sentByte seq ls).flatten

/-- A complete frame: START, the bytes, STOP, the settle delay. -/
def sentFrame (seq : List Byte) (ls : List Level) : List Action :=
  startActions ++ sentBytes seq ls ++ stopActions ++ [.wait .tBurst]

/-- A frame abandoned after its last byte: no STOP, no settle delay. -/
def brokenFrame (seq : List Byte) (ls : List Level) : List Action := startActions ++ sentBytes seq ls

/-- An outcome is a next state whose trace has `n` more actions, `b` of them `Wait(T_BIT)` and `u` of them
`Wait(T_BURST)` (70_reset_and_hazards.md R294). -/
def Emits (o : Host.Outcome State Fault Refusal) (s : State) (n b u : Nat) : Prop :=
  ∃ t acts, o = .next t ∧ t.trace = s.trace ++ acts ∧ acts.length = n ∧
    acts.count (.wait .tBit) = b ∧ acts.count (.wait .tBurst) = u

/-- Every PBUF entry that a TW_SETDIGITS with `n` data bytes reads has been written (10_state.md R26). -/
def PbufReady (n : Nat) (s : State) : Prop := ∀ i, i < n → pbufIsWritten i s = true

/-- The two-wire lines after a frame that ends with STOP (10_state.md R36 (c)). -/
def linesAfterStop (ln : Lines) : Lines := { ln with twClk := true, twDioOut := true, twDioDir := .out }

/-- The two-wire lines after a frame abandoned at byte `x` (10_state.md R36 (d)). -/
def linesAfterNak (x : Byte) (ln : Lines) : Lines :=
  { ln with twClk := false, twDioOut := x.getLsbD 7, twDioDir := .out }

/-- The state that a two-wire operation leaves when it emits `acts`, takes `k` samples and ends with result `r`;
`ln` are the lines and `d` the devices after it; every other field is as before. -/
def endsWith (r : Result) (k : Nat) (acts : List Action) (ln : Lines) (d : Devices) (s : State) : State :=
  { afterSamples k s with trace := s.trace ++ acts, rc := r, seq := none, lines := ln, dev := d }

/-- Two-wire operations leave the shift-register chip and the platform's window as they were. -/
def OnlyTwChip (d d' : Devices) : Prop := d'.sr = d.sr ∧ d'.platformUp = d.platformUp

/-- Shift-register operations leave the two-wire chip and the platform's window as they were. -/
def OnlySrChip (d d' : Devices) : Prop := d'.tw = d.tw ∧ d'.platformUp = d.platformUp

/-- A digit write with the patterns `pat`, start address `a` and count `c`: what it leaves when every byte is
acknowledged (40_two_wire_engine.md R124): the mode frame, then the digit frame of the clamped count. -/
def WritesDigits (pat : Nat → Byte) (a c : Nat) (s t : State) : Prop :=
  ∃ d, OnlyTwChip s.dev d ∧
    t = endsWith .ok (clampCount a c + 2)
      (sentFrame [0x40] [s.cfg.ackLevel] ++
        sentFrame ((0xC0 ||| BitVec.ofNat 8 a) :: (List.range (clampCount a c)).map pat)
          (List.replicate (clampCount a c + 1) s.cfg.ackLevel))
      (linesAfterStop s.lines) d s

/-- A digit write whose first nak is at the j-th byte of its digit frame (counted from 1), or at CMD_DATA for
j = 0: what it leaves (40_two_wire_engine.md R118, R124): the frame ends after that byte, with no STOP. -/
def BreaksAt (j : Nat) (pat : Nat → Byte) (a c : Nat) (s t : State) : Prop :=
  ∃ d, OnlyTwChip s.dev d ∧
    if j = 0 then
      t = endsWith .ackFailure 1 (brokenFrame [0x40] [!s.cfg.ackLevel]) (linesAfterNak 0x40 s.lines) d s
    else
      t = endsWith .ackFailure (j + 1)
        (sentFrame [0x40] [s.cfg.ackLevel] ++
          brokenFrame (((0xC0 ||| BitVec.ofNat 8 a) :: (List.range (clampCount a c)).map pat).take j)
            (List.replicate (j - 1) s.cfg.ackLevel ++ [!s.cfg.ackLevel]))
        (linesAfterNak (((0xC0 ||| BitVec.ofNat 8 a) :: (List.range (clampCount a c)).map pat).getD (j - 1) 0) s.lines)
        d s

/-- A sequence of SR_XFER(addr, val) as actions (42_shift_register_engine.md R181). -/
def sentWords (ws : List (Byte × Byte)) : List Action := ws.flatMap fun w => srXferActions w.1 w.2

/-- A shift-register operation: the state it leaves when it emits `acts`; SR_DIN holds `din`, the clock is low and
the latch high, every other field but the shift-register chip is as before. -/
def ShiftsOut (acts : List Action) (din : Level) (s t : State) : Prop :=
  ∃ d, OnlySrChip s.dev d ∧
    t = { s with trace := s.trace ++ acts, rc := .ok, seq := none, dev := d
                 lines := { s.lines with srDin := din, srClk := false, srLoad := true } }

/-! ## The line state (10_state.md R36) -/

/-- The idle levels that every completed operation leaves: the data line driven, the shift clock low, the latch
high. -/
def idleLines (ln : Lines) : Bool := ln.twDioDir == .out && !ln.srClk && ln.srLoad

/-- The rest of an action list is safe from lines `ln`: data is written only while the line is driven (R36 (a)), a
sample is taken only while it is released, every acknowledgment phase ends with the line driven (R36 (b)), and
the list ends, or is abandoned, in the idle levels. -/
def planSafe (ln : Lines) : List MicroOp → Bool
  | [] => idleLines ln
  | .act a :: rest =>
    (match a with
      | .dio _ => ln.twDioDir == .out
      | _ => true) && planSafe (ln.drive a) rest
  | .sample :: rest => ln.twDioDir == .inp && planSafe ln rest
  | .ackEnd _ :: rest => idleLines (ln.drive .dioOut) && planSafe (ln.drive .dioOut) rest

/-- The lines suit what the sequencer holds: idle levels with no operation in flight, a safe rest of the action
list with one. -/
def LinesSafe (s : State) : Prop :=
  match s.seq with
  | none => idleLines s.lines = true
  | some f => planSafe s.lines f.todo = true

/-- The invariant of the machine: the lines are safe, PTR is 0..6 (43_attached_devices.md, section 1), and the
two-wire receiver has counted at most the nine clocks of a byte (R221). -/
def Inv (s : State) : Prop := LinesSafe s ∧ s.dev.tw.ptr ≤ 6 ∧ s.dev.tw.rx.count ≤ 9

/-- The constraints of 41_segment_encoder.md R160 (a) and (b) on the encoder ROM: bit 7 of every entry is 0, and
the entries are pairwise distinct. -/
def SegTableDistinct (cfg : Config) : Prop :=
  (∀ k, k < 16 → (segEntry cfg k).getLsbD 7 = false) ∧
  (∀ j k, j < 16 → k < 16 → segEntry cfg j = segEntry cfg k → j = k)

/-- All three constraints of R160 on the encoder ROM; (c): entry k lights the segments of the standard glyph of hex
digit k. Which masks are standard glyphs is the model's (log 20). -/
def SegTableOk (cfg : Config) : Prop :=
  SegTableDistinct cfg ∧ ∀ k, k < 16 → segEntry cfg k ∈ standardGlyphs k

/-- The two-wire chip of `t` after a digit write from `s` whose `n` patterns `pat` reached it: they stand in the
digit registers from `a` on, every other digit, BRI and ON are as before, AUTOINC is 1 and PTR is past them
(43_attached_devices.md R222 to R224). -/
def ShowsDigits (pat : Nat → Byte) (a n : Nat) (s t : State) : Prop :=
  (∀ i, i < n → t.dev.tw.dreg.getD (a + i) 0 = pat i) ∧
  (∀ k, k < a ∨ a + n ≤ k → t.dev.tw.dreg.getD k 0 = s.dev.tw.dreg.getD k 0) ∧
  t.dev.tw.autoInc = true ∧ t.dev.tw.ptr = a + n ∧ t.dev.tw.bri = s.dev.tw.bri ∧ t.dev.tw.on = s.dev.tw.on

end Sys2Proof.Machine
end

