-- ==== Sys2Proof/Certificates/Slice0/Obligations.lean ====
section
/-! DEFINITION. Certificates/Slice0/Obligations.lean: the statements for the provers. -/

open Sys2Proof Sys2Proof.Machine

/-! ## Reset, the step and the host window -/

/-- 70_reset_and_hazards.md R280, the values the spec gives: idle, STATUS = 0, ENCOUT = 0, ARG and PBUF unwritten,
SR_CFG none, TRACE empty. -/
def Obligations.ResetLeavesTheSpecsValues : Prop :=
  busy State.reset = false ∧ statusWord State.reset = 0 ∧ readReg 0x0C State.reset = 0 ∧
  State.reset.argWritten = false ∧ (∀ i, pbufIsWritten i State.reset = false) ∧
  State.reset.lines.srCfg = none ∧ State.reset.trace = []

/-- A command word written to CMD (run in one step, or accepted as the operation in flight, by the granularity,
log 2), a byte arriving at the two-wire chip inside a frame, and a word latched into the
shift-register chip run the instruction they decode to. The input lists and the other drivers are the model's
(logs 1 and 13). -/
def Obligations.StepRunsTheDecodedInstruction : Prop :=
  (∀ (s : State) (rest : List Input) (w : Word) (i : Instr),
    s.inputs = .hostWrite 0x00 4 w :: rest → s.seq = none → s.cfg.grain = .operation → decodeHost w = .ok i →
    step s = exec i { s with inputs := rest }) ∧
  (∀ (s : State) (rest : List Input) (w : Word) (i : Instr),
    s.inputs = .hostWrite 0x00 4 w :: rest → s.seq = none → s.cfg.grain = .action → decodeHost w = .ok i →
    step s = accept w i { s with inputs := rest }) ∧
  (∀ (s : State) (rest : List Input) (b : Byte) (i : Instr),
    s.inputs = .twByte b :: rest → s.seq = none → s.dev.tw.rx.active = true →
    decodeTw s.dev.tw.rx.pos b = .ok i → step s = exec i { s with inputs := rest }) ∧
  (∀ (s : State) (rest : List Input) (w : BitVec 16) (i : Instr),
    s.inputs = .srWord w :: rest → s.seq = none → decodeSr s.cfg.digitRegBase w = .ok i →
    step s = exec i { s with inputs := rest, dev := { s.dev with sr := { s.dev.sr with shift := w } } })

/-- 70_reset_and_hazards.md R280: with no input and no operation in flight the block waits; nothing changes. -/
def Obligations.IdleBlockWaits : Prop :=
  ∀ s : State, s.inputs = [] → s.seq = none → step s = .next s

/-- 20_memory.md R50, R63 and 10_state.md R22 to R27: what each offset of the window reads as when BUSY = 0, and
that a read changes nothing else. -/
def Obligations.HostReadsReturnTheRegisters : Prop :=
  ∀ (s : State) (rest : List Input) (off : Nat),
    s.inputs = .hostRead off 4 :: rest → s.seq = none → off % 4 = 0 → off < 0x40 →
    ∃ v : Word, step s = .next { s with inputs := rest, hostData := v } ∧
      (off = 0x00 → v = 0) ∧ (off = 0x04 → v = s.arg) ∧
      (off = 0x08 → v = s.rc.code.setWidth 32) ∧ (off = 0x0C → v = s.encout.setWidth 32) ∧
      (∀ i, i < 6 → off = 0x10 + 4 * i → v = (readPbuf i s).setWidth 32) ∧ (0x28 ≤ off → v = 0)

/-- 20_memory.md R50, R63 and 10_state.md R23 to R27: what a write of a register other than CMD does when BUSY = 0. -/
def Obligations.HostWritesStoreOnlyArgAndPbuf : Prop :=
  ∀ (s : State) (rest : List Input) (off : Nat) (v : Word),
    s.inputs = .hostWrite off 4 v :: rest → s.seq = none → off % 4 = 0 → 0 < off → off < 0x40 →
    (off = 0x04 → step s = .next { s with inputs := rest, arg := v, argWritten := true }) ∧
    (∀ i, i < 6 → off = 0x10 + 4 * i → ∃ t, step s = .next t ∧
      t = { s with inputs := rest, pbuf := t.pbuf, pbufWritten := t.pbufWritten } ∧
      readPbuf i t = v.setWidth 8 ∧ pbufIsWritten i t = true ∧
      ∀ j, j ≠ i → readPbuf j t = readPbuf j s ∧ pbufIsWritten j t = pbufIsWritten j s) ∧
    (off = 0x08 ∨ off = 0x0C ∨ 0x28 ≤ off → step s = .next { s with inputs := rest })

/-- 70_reset_and_hazards.md R284, 10_state.md R24: while BUSY = 1 a STATUS read gives BUSY and the previous code and
changes nothing else; every other aligned access inside the window is refused. -/
def Obligations.BusyHostMayOnlyReadStatus : Prop :=
  ∀ (s : State) (rest : List Input) (off : Nat), s.seq ≠ none → off % 4 = 0 → off < 0x40 →
    (s.inputs = .hostRead 0x08 4 :: rest →
      step s = .next { s with inputs := rest, hostData := 0x100#32 ||| s.rc.code.setWidth 32 }) ∧
    (s.inputs = .hostRead off 4 :: rest → off ≠ 0x08 → step s = .refused .accessWhileBusy) ∧
    (∀ v, s.inputs = .hostWrite off 4 v :: rest → step s = .refused .accessWhileBusy)

/-- 20_memory.md R59: an access whose offset is not a multiple of 4, or whose width is not 4 bytes, is refused. -/
def Obligations.MisalignedOrNarrowAccessIsRefused : Prop :=
  ∀ (s : State) (rest : List Input) (off width : Nat) (v : Word), off % 4 ≠ 0 ∨ width ≠ 4 →
    s.inputs = .hostRead off width :: rest ∨ s.inputs = .hostWrite off width v :: rest →
    step s = .refused .badAccess

/-- 30_encoding.md R95: the host's `wait` reads STATUS; with BUSY = 0 one read suffices, with BUSY = 1 the engine goes
on by one action and the wait is still to come. The input list is the model's (log 1). -/
def Obligations.HostWaitPollsUntilIdle : Prop :=
  ∀ (s : State) (rest : List Input), s.inputs = .hostWait :: rest →
    (s.seq = none → step s = .next { s with inputs := rest, hostData := s.rc.code.setWidth 32 }) ∧
    (s.seq ≠ none → step s = .next (engineStep { s with hostData := 0x100#32 ||| s.rc.code.setWidth 32 }))

/-- 70_reset_and_hazards.md R280: a platform reset leaves the block idle with STATUS = 0, ENCOUT = 0, ARG and PBUF
unwritten, SR_CFG none and an empty trace. The reset as an input, and what it leaves elsewhere, are the model's
(log 14). -/
def Obligations.PlatformResetRestoresTheBlock : Prop :=
  ∀ (s : State) (rest : List Input), s.inputs = .platformReset :: rest → ∃ t, step s = .next t ∧
    busy t = false ∧ statusWord t = 0 ∧ t.encout = 0 ∧ t.argWritten = false ∧ (∀ i, pbufIsWritten i t = false) ∧
    t.lines.srCfg = none ∧ t.trace = [] ∧ t.cfg = s.cfg ∧ t.inputs = rest

/-- 60_exceptions.md R254: a word with RSV != 0 or a reserved OP written to CMD while BUSY = 0 sets RC = 3, emits
nothing, and BUSY stays 0; every other word is a command. -/
def Obligations.ReservedCommandWordsAreRejected : Prop :=
  ∀ (s : State) (rest : List Input) (w : Word), s.inputs = .hostWrite 0x00 4 w :: rest → s.seq = none →
    (fieldRsv w ≠ 0 ∨ (fieldOp w).toNat = 0 ∨ 0xC ≤ (fieldOp w).toNat →
      step s = .next { s with inputs := rest, rc := .illegalCommand } ∧
      statusWord { s with inputs := rest, rc := .illegalCommand } = 3) ∧
    (fieldRsv w = 0 → 1 ≤ (fieldOp w).toNat → (fieldOp w).toNat ≤ 0xB → ∃ i, decodeHost w = .ok i)

/-- 30_encoding.md R81: every command word by the match and mask of its row, with the fields that the row lists; a
word of no row is no command. -/
def Obligations.OpcodeMapDecodesEveryWord : Prop :=
  ∀ w m : Word, m = w &&& 0xFE000000 →
    (m = 0x10000000 → decodeHost w = .ok .twInit) ∧ (m = 0x20000000 → decodeHost w = .ok .twDeinit) ∧
    (m = 0x30000000 → decodeHost w = .ok (.twConfig (w.extractLsb' 0 8) (w.getLsbD 24))) ∧
    (m = 0x40000000 → decodeHost w = .ok (.twSetdigit (w.extractLsb' 0 8) (w.toNat / 2 ^ 8 % 2 ^ 8))) ∧
    (m = 0x50000000 → decodeHost w = .ok (.twSetdigits (w.toNat / 2 ^ 8 % 2 ^ 8) (w.toNat / 2 ^ 16 % 2 ^ 8))) ∧
    (m = 0x60000000 →
      decodeHost w = .ok (.twSethex (w.extractLsb' 0 8) (w.getLsbD 24) (w.toNat / 2 ^ 8 % 2 ^ 8))) ∧
    (m = 0x70000000 → decodeHost w = .ok (.segEncode (w.extractLsb' 0 8) (w.getLsbD 24))) ∧
    (m = 0x80000000 → decodeHost w = .ok .srInit) ∧
    (m = 0x90000000 → decodeHost w = .ok (.srWritereg (w.extractLsb' 8 8) (w.extractLsb' 0 8))) ∧
    (m = 0xA0000000 → decodeHost w = .ok .srClear) ∧ (m = 0xB0000000 → decodeHost w = .ok .srDispnum) ∧
    (m ∉ [0x10000000, 0x20000000, 0x30000000, 0x40000000, 0x50000000, 0x60000000, 0x70000000, 0x80000000,
      0x90000000, 0xA0000000, 0xB0000000] → ∃ e, decodeHost w = .error e)

/-- 30_encoding.md R82: a field that R81 does not list for an operation may hold any value. -/
def Obligations.UnlistedFieldsAreIgnored : Prop :=
  ∀ w w' : Word, fieldRsv w = 0 → fieldRsv w' = 0 → fieldOp w = fieldOp w' →
    ((fieldOp w).toNat ∈ [0x1, 0x2, 0x8, 0xA, 0xB] → decodeHost w = decodeHost w') ∧
    ((fieldOp w).toNat ∈ [0x3, 0x7] → fieldV w = fieldV w' → fieldF w = fieldF w' → decodeHost w = decodeHost w') ∧
    ((fieldOp w).toNat ∈ [0x4, 0x9] → fieldV w = fieldV w' → fieldA w = fieldA w' → decodeHost w = decodeHost w') ∧
    ((fieldOp w).toNat = 0x5 → fieldA w = fieldA w' → fieldC w = fieldC w' → decodeHost w = decodeHost w') ∧
    ((fieldOp w).toNat = 0x6 → fieldV w = fieldV w' → fieldF w = fieldF w' → fieldA w = fieldA w' →
      decodeHost w = decodeHost w')

/-! ## Encoding -/

/-- The words of 95_test_vectors.md 2.1, and bytes and words of 30_encoding.md R85 to R92, decode to what they stand
for. -/
def Obligations.SampleWordsDecode : Prop :=
  decodeHost 0x11FFFFFF = .ok .twInit ∧ decodeHost 0x31000004 = .ok (.twConfig 4 true) ∧
  decodeHost 0x50050400 = .ok (.twSetdigits 4 5) ∧ decodeHost 0x61000541 = .ok (.twSethex 0x41 true 5) ∧
  decodeHost 0x90000B03 = .ok (.srWritereg 0x0B 0x03) ∧ decodeHost 0x12000000 = .error .reservedBits ∧
  decodeHost 0xF1234567 = .error .reservedOpcode ∧ decodeTw .first 0x8C = .ok (.cmdDispctl 4 true) ∧
  decodeTw .first 0xC5 = .ok (.cmdAddr 5) ∧ decodeTw .afterAddr 0x40 = .ok (.data 0x40) ∧
  decodeSr 0x01 0x0A08 = .ok (.srIntensity 0x08) ∧ decodeSr 0x01 0x0502 = .error .unassignedAddress

/-- Decoding an encoded well-formed instruction gives it back, for every instruction and every placement of the
digit registers clear of the other addresses. -/
def Obligations.DecodeOfEncodeIsTheInstruction : Prop :=
  ∀ (base : Byte) (i : Instr), digitBaseOk base = true → wellFormed i = true →
    decodeCode base (encode i base) = .ok i

/-- Whatever a decoder accepts is well formed, and its encoding decodes to the same instruction. -/
def Obligations.DecodedInstructionsAreWellFormed : Prop :=
  ∀ (base : Byte) (c : Code) (i : Instr), digitBaseOk base = true → decodeCode base c = .ok i →
    wellFormed i = true ∧ decodeCode base (encode i base) = decodeCode base c

/-- 30_encoding.md R94: each command mnemonic is a write of its word to CMD, and an operand that does not fit its
field is refused. -/
def Obligations.AssemblerWritesTheCommandWord : Prop :=
  ∀ x y z : Nat,
    assemble .twInit = some [.hostWrite 0 4 0x10000000] ∧ assemble .twDeinit = some [.hostWrite 0 4 0x20000000] ∧
    assemble .srInit = some [.hostWrite 0 4 0x80000000] ∧ assemble .srClear = some [.hostWrite 0 4 0xA0000000] ∧
    assemble .srDispnum = some [.hostWrite 0 4 0xB0000000] ∧
    assemble (.twConfig x y) = (if x ≤ 255 ∧ y ≤ 1 then
      some [.hostWrite 0 4 (BitVec.ofNat 32 (0x30000000 + y * 2 ^ 24 + x))] else none) ∧
    assemble (.twSetdigit x y) = (if x ≤ 255 ∧ y ≤ 255 then
      some [.hostWrite 0 4 (BitVec.ofNat 32 (0x40000000 + y * 2 ^ 8 + x))] else none) ∧
    assemble (.twSetdigits x y) = (if x ≤ 255 ∧ y ≤ 255 then
      some [.hostWrite 0 4 (BitVec.ofNat 32 (0x50000000 + y * 2 ^ 16 + x * 2 ^ 8))] else none) ∧
    assemble (.twSethex x y z) = (if x ≤ 255 ∧ y ≤ 1 ∧ z ≤ 255 then
      some [.hostWrite 0 4 (BitVec.ofNat 32 (0x60000000 + y * 2 ^ 24 + z * 2 ^ 8 + x))] else none) ∧
    assemble (.segEncode x y) = (if x ≤ 255 ∧ y ≤ 1 then
      some [.hostWrite 0 4 (BitVec.ofNat 32 (0x70000000 + y * 2 ^ 24 + x))] else none) ∧
    assemble (.srWritereg x y) = (if x ≤ 255 ∧ y ≤ 255 then
      some [.hostWrite 0 4 (BitVec.ofNat 32 (0x90000000 + x * 2 ^ 8 + y))] else none)

/-- 30_encoding.md R95: the pseudo-instructions expand to their accesses; tw.show with any number of patterns up to
six, and with seven or more it is refused. That a pattern above 255 is no reason to refuse it is the model's
(log 18). -/
def Obligations.PseudoInstructionsExpand : Prop :=
  assemble .wait = some [.hostWait] ∧
  (∀ n : Int, -2147483648 ≤ n → n ≤ 2147483647 → assemble (.srNumber n) =
    some [.hostWrite 0x04 4 (BitVec.ofInt 32 n), .hostWrite 0x00 4 0xB0000000, .hostWait]) ∧
  (∀ d i s p t : Byte, assemble (.srSetup d.toNat i.toNat s.toNat p.toNat t.toNat) =
    some [.hostWrite 0x00 4 (0x90000900#32 ||| d.setWidth 32), .hostWait,
      .hostWrite 0x00 4 (0x90000A00#32 ||| i.setWidth 32), .hostWait,
      .hostWrite 0x00 4 (0x90000B00#32 ||| s.setWidth 32), .hostWait,
      .hostWrite 0x00 4 (0x90000C00#32 ||| p.setWidth 32), .hostWait,
      .hostWrite 0x00 4 (0x90000F00#32 ||| t.setWidth 32), .hostWait]) ∧
  (∀ (a c : Byte) (ps : List Nat), ps.length ≤ 6 → (∀ p ∈ ps, p < 2 ^ 32) →
    assemble (.twShow a.toNat c.toNat ps) =
      some (((List.range ps.length).map fun i => .hostWrite (0x10 + 4 * i) 4 (BitVec.ofNat 32 (ps.getD i 0))) ++
        [.hostWrite 0x00 4 (0x50000000#32 ||| c.setWidth 32 <<< 16 ||| a.setWidth 32 <<< 8), .hostWait])) ∧
  (∀ (a c : Nat) (ps : List Nat), 7 ≤ ps.length → assemble (.twShow a c ps) = none)

/-! ## The segment encoder -/

/-- 41_segment_encoder.md R162: SEG_ENCODE (OP = 0x7, A and C ignored) writes ENCOUT and RC = 0, emits nothing, and
changes nothing else; a value that is no hex digit gives 0 whatever F is; the rule's example, with the default
SEG_TABLE. -/
def Obligations.SegEncodeWritesOnlyEncout : Prop :=
  (∀ (v : Byte) (dp : Bool) (s : State),
    exec (.segEncode v dp) s = .next { s with encout := segPattern s.cfg (v.toNat : Int) dp, rc := .ok, seq := none } ∧
    (0x10 ≤ v.toNat ∧ v.toNat ≤ 0x40 ∨ 0x47 ≤ v.toNat ∧ v.toNat ≤ 0x60 ∨ 0x67 ≤ v.toNat →
      segPattern s.cfg (v.toNat : Int) dp = 0)) ∧
  (∀ w : Word, fieldRsv w = 0 → fieldOp w = 0x7 → decodeHost w = .ok (.segEncode (fieldV w) (fieldF w))) ∧
  decodeHost 0x71000066 = .ok (.segEncode 0x66 true) ∧ segPattern Config.default 0x66 true = 0xF1

/-- 41_segment_encoder.md R161: ENCODE on every integer; the block applies it to the 8-bit field V. -/
def Obligations.EncodeLooksUpTheTable : Prop :=
  (∀ (cfg : Config) (v : Byte) (dp : Bool), segByte cfg v dp = segPattern cfg (v.toNat : Int) dp) ∧
  ∀ (cfg : Config) (v : Int) (dp : Bool),
    (0 ≤ v → v ≤ 15 → segPattern cfg v dp = cfg.segTable.getD v.toNat 0 ||| (if dp then 0x80 else 0)) ∧
    (0x41 ≤ v → v ≤ 0x46 → segPattern cfg v dp = segPattern cfg (v - 0x41 + 10) dp) ∧
    (0x61 ≤ v → v ≤ 0x66 → segPattern cfg v dp = segPattern cfg (v - 0x61 + 10) dp) ∧
    (¬ (0 ≤ v ∧ v ≤ 15) → ¬ (0x41 ≤ v ∧ v ≤ 0x46) → ¬ (0x61 ≤ v ∧ v ≤ 0x66) → segPattern cfg v dp = 0)

/-- 41_segment_encoder.md R163: the pattern without its bit 7 is the table entry of the value's nibble, bit 7 is
the decimal point, and an unrecognised value gives 0. The table meets R160 (a) and (b). -/
def Obligations.EncodeKeepsEntryAndDecimalPoint : Prop :=
  ∀ (cfg : Config) (v : Byte) (dp : Bool), SegTableDistinct cfg →
    (∀ k, hexNibble (v.toNat : Int) = some k →
      k < 16 ∧ segByte cfg v dp &&& 0x7F = segEntry cfg k ∧ (segByte cfg v dp).getLsbD 7 = dp ∧
      (∀ j, j < 16 → segByte cfg v dp &&& 0x7F = segEntry cfg j → j = k)) ∧
    (hexNibble (v.toNat : Int) = none → segByte cfg v dp = 0 ∧ (segByte cfg v dp).getLsbD 7 = false)

/-- 41_segment_encoder.md R164: letters map case-insensitively to the nibbles 10..15, and only they and the nibble
itself do. -/
def Obligations.EncodeIsCaseInsensitive : Prop :=
  ∀ (cfg : Config) (j : Nat) (dp : Bool), j < 6 →
    segByte cfg (BitVec.ofNat 8 (0x41 + j)) dp = segByte cfg (BitVec.ofNat 8 (10 + j)) dp ∧
    segByte cfg (BitVec.ofNat 8 (0x61 + j)) dp = segByte cfg (BitVec.ofNat 8 (10 + j)) dp ∧
    (∀ v : Byte, hexNibble (v.toNat : Int) = some (10 + j) ↔
      v.toNat = 10 + j ∨ v.toNat = 0x41 + j ∨ v.toNat = 0x61 + j)

/-- 41_segment_encoder.md R160: the encoder ROM is read-only, its reset contents are the listed default, and they meet
the constraints (a), (b) and (c); with a table that meets them the pattern of a recognised value shows a standard glyph
of its nibble. The default contents are presumed (log 7), and which masks are standard glyphs is the model's (log 20). -/
def Obligations.EncoderRomIsReadOnly : Prop :=
  (∀ s t : State, step s = .next t → t.cfg.segTable = s.cfg.segTable) ∧
  (List.range 16).map (segEntry State.reset.cfg) =
    [0x3F, 0x06, 0x5B, 0x4F, 0x66, 0x6D, 0x7D, 0x07, 0x7F, 0x6F, 0x77, 0x7C, 0x39, 0x5E, 0x79, 0x71] ∧
  SegTableOk State.reset.cfg ∧
  (∀ (cfg : Config) (v : Byte) (dp : Bool) (k : Nat), SegTableOk cfg → hexNibble (v.toNat : Int) = some k →
    segByte cfg v dp &&& 0x7F ∈ standardGlyphs k)

/-! ## The two-wire engine -/

/-- 40_two_wire_engine.md R112, R116: START and STOP, action by action. -/
def Obligations.StartAndStopActions : Prop :=
  ∀ s : State,
    (emitAll startActions s).trace =
      s.trace ++ [.dioOut, .dio true, .clk true, .wait .tBit, .dio false, .wait .tBit] ∧
    (emitAll stopActions s).trace =
      s.trace ++ [.clk false, .wait .tBit, .dio false, .wait .tBit, .clk true, .wait .tBit, .dio true, .wait .tBit]

/-- 40_two_wire_engine.md R113 to R115, 20_memory.md R55: TX_BYTE emits 48 actions, bit 0 first, then the
acknowledgment phase; it answers the level of its one sample and leaves the data line driven to bit 7. -/
def Obligations.TxByteSendsBitZeroFirst : Prop :=
  ∀ (x : Byte) (s : State), ∃ bits l,
    (txByte x s).1 = l ∧ l = oracleAt 0 s ∧
    (txByte x s).2.trace = s.trace ++ bits ++
      [.clk false, .dioIn, .wait .tBit, .clk true, .wait .tBit, .sample l, .clk false, .dioOut] ∧
    bits.length = 40 ∧
    (∀ i, i < 8 → (bits.drop (5 * i)).take 5 =
      [.clk false, .dio (x.getLsbD i), .wait .tBit, .clk true, .wait .tBit]) ∧
    (txByte x s).2.lines.twDioOut = x.getLsbD 7 ∧ (txByte x s).2.lines.twDioDir = .out

/-- 40_two_wire_engine.md R121, R122: TW_INIT and TW_DEINIT emit one hook action each and change nothing else of the
block; that the platform's window opens and closes is the model's (log 12), and so is it that the hooks leave the chips
as they were (log 21). -/
def Obligations.LifecycleHooksEmitOneAction : Prop :=
  ∀ s : State,
    exec .twInit s = .next { s with trace := s.trace ++ [.pInit], rc := .ok, seq := none
                                    dev := { s.dev with platformUp := true } } ∧
    exec .twDeinit s = .next { s with trace := s.trace ++ [.pDeinit], rc := .ok, seq := none
                                      dev := { s.dev with platformUp := false } }

/-- 40_two_wire_engine.md R123: TW_CONFIG sends one complete frame with the display-control byte, whatever the
sample, and ends Ok. -/
def Obligations.TwConfigSendsOneFrameWhateverTheSample : Prop :=
  ∀ (b : Byte) (on : Bool) (s : State), ∃ d, OnlyTwChip s.dev d ∧
    exec (.twConfig b on) s = .next (endsWith .ok 1
      (sentFrame [0x80 ||| (b &&& 0x07) ||| (if on then 0x08 else 0)] [oracleAt 0 s]) (linesAfterStop s.lines) d s)

/-- 40_two_wire_engine.md R124 to R127: when every byte is acknowledged, a digit write to an address below 6 sends
the mode frame and the digit frame of the clamped count and ends Ok; nothing else changes. -/
def Obligations.AcknowledgedDigitWritesSendBothFrames : Prop :=
  ∀ (a c : Nat) (p v : Byte) (dp : Bool) (s : State), a < 6 →
    (AllAck 3 s → ∃ t, exec (.twSetdigit p a) s = .next t ∧ WritesDigits (fun _ => p) a 1 s t) ∧
    (AllAck 3 s → ∃ t, exec (.twSethex v dp a) s = .next t ∧
      WritesDigits (fun _ => segPattern s.cfg (v.toNat : Int) dp) a 1 s t) ∧
    (PbufReady (clampCount a c) s → AllAck (clampCount a c + 2) s →
      ∃ t, exec (.twSetdigits a c) s = .next t ∧ WritesDigits (fun i => readPbuf i s) a c s t)

/-- 40_two_wire_engine.md R128: for a < 6 and a + c ≤ 6 TW_SETDIGITS sends exactly two frames, the second of 1 + c
bytes; for a + c > 6 it sends 6 - a data bytes; for a ≥ 6 it returns InvalidAddress and sends nothing. -/
def Obligations.SetdigitsClampsTheCount : Prop :=
  ∀ (a c : Nat) (s : State),
    (a < 6 → AllAck 8 s → PbufReady 6 s → ∃ t frame2 k,
      exec (.twSetdigits a c) s = .next t ∧
      t.trace = s.trace ++ sentFrame [0x40] [s.cfg.ackLevel] ++ sentFrame frame2 (List.replicate k s.cfg.ackLevel) ∧
      frame2.length = k ∧ (a + c ≤ 6 → k = 1 + c) ∧ (6 < a + c → k = 1 + (6 - a)) ∧
      frame2 = (0xC0 ||| BitVec.ofNat 8 a) :: (List.range (k - 1)).map fun i => readPbuf i s) ∧
    (6 ≤ a → ∃ t, exec (.twSetdigits a c) s = .next t ∧ t.trace = s.trace ∧ t.rc = .invalidAddress)

/-- 40_two_wire_engine.md R129: the first nak ends a digit write with AckFailure right after that byte; it does not
end TW_CONFIG, which ends Ok after its complete frame. -/
def Obligations.FirstNakEndsADigitWrite : Prop :=
  ∀ (j a c : Nat) (p v : Byte) (dp : Bool) (s : State), a < 6 → FirstNak j s →
    (j ≤ 2 → ∃ t, exec (.twSetdigit p a) s = .next t ∧ BreaksAt j (fun _ => p) a 1 s t) ∧
    (j ≤ 2 → ∃ t, exec (.twSethex v dp a) s = .next t ∧
      BreaksAt j (fun _ => segPattern s.cfg (v.toNat : Int) dp) a 1 s t) ∧
    (j ≤ clampCount a c + 1 → PbufReady (clampCount a c) s →
      ∃ t, exec (.twSetdigits a c) s = .next t ∧ BreaksAt j (fun i => readPbuf i s) a c s t) ∧
    (∃ t, exec (.twConfig v dp) s = .next t ∧ t.rc = .ok ∧
      t.trace = s.trace ++ sentFrame [cmdDispctlByte v dp] [oracleAt 0 s])

/-- 60_exceptions.md R252: an address of 6 or more ends a digit write with InvalidAddress before any action, and
before PBUF would be read (R255). -/
def Obligations.InvalidAddressComesBeforeAnyAction : Prop :=
  ∀ (a c : Nat) (p v : Byte) (dp : Bool) (s : State), 6 ≤ a →
    exec (.twSetdigit p a) s = .next { s with rc := .invalidAddress, seq := none } ∧
    exec (.twSethex v dp a) s = .next { s with rc := .invalidAddress, seq := none } ∧
    exec (.twSetdigits a c) s = .next { s with rc := .invalidAddress, seq := none }

/-- 10_state.md R23, R26, 70_reset_and_hazards.md R290: TW_SETDIGITS faults exactly when it would read a PBUF entry
never written since reset, SR_DISPNUM exactly when ARG was never written; neither is refused. -/
def Obligations.UnwrittenOperandsFault : Prop :=
  ∀ (a c : Nat) (s : State),
    (exec (.twSetdigits a c) s = .fault .pbufUnwritten ↔
      a < 6 ∧ ∃ i, i < min c (6 - a) ∧ pbufIsWritten i s = false) ∧
    (exec .srDispnum s = .fault .argUnwritten ↔ s.argWritten = false) ∧
    (∀ r, exec (.twSetdigits a c) s ≠ .refused r) ∧ (∀ r, exec .srDispnum s ≠ .refused r)

/-! ## The shift-register engine -/

/-- 42_shift_register_engine.md R181, 20_memory.md R57: SR_XFER, the one register write, is 50 actions: addr ++ value
bit 15 first, each bit with a clock pulse, then the latch pulse. SR_WRITEREG is one SR_XFER of its operands, whatever
the address (R183), and changes no more than the shift-register lines and chip. -/
def Obligations.SrWriteregShiftsSixteenBits : Prop :=
  ∀ (r v : Byte) (s : State), ∃ bits,
    srXferActions r v = bits ++ [.srLoad false, .srLoad true] ∧ bits.length = 48 ∧
    (∀ i, i < 8 → (bits.drop (3 * i)).take 3 = [.srDin (r.getLsbD (7 - i)), .srClk true, .srClk false]) ∧
    (∀ i, i < 8 → (bits.drop (3 * (i + 8))).take 3 = [.srDin (v.getLsbD (7 - i)), .srClk true, .srClk false]) ∧
    (srXfer r v s).trace = s.trace ++ srXferActions r v ∧
    ∃ t, exec (.srWritereg r v) s = .next t ∧ ShiftsOut (srXferActions r v) (v.getLsbD 0) s t

/-- 42_shift_register_engine.md R182: SR_INIT configures the port and sets the idle levels. With the latch high
before, as every operation leaves it, no chip register changes. -/
def Obligations.SrInitConfiguresThePort : Prop :=
  ∀ s : State, ∃ d, OnlySrChip s.dev d ∧ (s.lines.srLoad = true → d = s.dev) ∧
    exec .srInit s = .next { s with
      trace := s.trace ++ [.srCfg s.cfg.srRate, .srClk false, .srLoad true], rc := .ok, seq := none, dev := d
      lines := { s.lines with srCfg := some s.cfg.srRate, srClk := false, srLoad := true } }

/-- 42_shift_register_engine.md R184: SR_CLEAR writes BLANK_CODE to the four positions, ascending. -/
def Obligations.SrClearBlanksFourPositions : Prop :=
  ∀ s : State, ∃ t, exec .srClear s = .next t ∧
    ShiftsOut (sentWords ((List.range 4).map fun p => (s.cfg.digitRegBase + BitVec.ofNat 8 p, s.cfg.blankCode)))
      (s.cfg.blankCode.getLsbD 0) s t

/-- 42_shift_register_engine.md R186: SR_DISPNUM writes the display codes of ARG to the four positions, ascending,
once ARG has been written. -/
def Obligations.SrDispnumWritesFourPositions : Prop :=
  ∀ s : State, s.argWritten = true → ∃ t, exec .srDispnum s = .next t ∧
    ShiftsOut (sentWords ((List.range 4).map fun p =>
        (s.cfg.digitRegBase + BitVec.ofNat 8 p, displayCode s.cfg s.arg.toInt p)))
      ((displayCode s.cfg s.arg.toInt 3).getLsbD 0) s t

/-- 42_shift_register_engine.md R185: the code of each position, by the size of |n| alone. Position 0 always holds a
digit; a higher one holds a digit when |n| reaches it, the minus code when n is negative and it is the first one |n|
does not reach, and else the blank code. -/
def Obligations.DisplayCodesShowTheNumber : Prop :=
  ∀ (cfg : Config) (n : Int) (p : Nat), p < 4 →
    (p = 0 ∨ 10 ^ p ≤ n.natAbs → (displayCode cfg n p).toNat = n.natAbs / 10 ^ p % 10) ∧
    (n < 0 → 1 ≤ p → n.natAbs < 10 ^ p → (p = 1 ∨ 10 ^ (p - 1) ≤ n.natAbs) → displayCode cfg n p = cfg.minusCode) ∧
    (n < 0 → 2 ≤ p → n.natAbs < 10 ^ (p - 1) → displayCode cfg n p = cfg.blankCode) ∧
    (0 ≤ n → 1 ≤ p → n.natAbs < 10 ^ p → displayCode cfg n p = cfg.blankCode)

/-- 42_shift_register_engine.md R187: every SRE operation ends Ok after a fixed number of actions that does not depend
on any input value. -/
def Obligations.ShiftRegisterOperationsNeverFail : Prop :=
  ∀ (r v : Byte) (s : State),
    (∃ t, exec .srInit s = .next t ∧ t.rc = .ok ∧ t.trace.length = s.trace.length + 3) ∧
    (∃ t, exec (.srWritereg r v) s = .next t ∧ t.rc = .ok ∧ t.trace.length = s.trace.length + 50) ∧
    (∃ t, exec .srClear s = .next t ∧ t.rc = .ok ∧ t.trace.length = s.trace.length + 200) ∧
    (s.argWritten = true → ∃ t, exec .srDispnum s = .next t ∧ t.rc = .ok ∧ t.trace.length = s.trace.length + 200)

/-! ## The attached devices -/

/-- 43_attached_devices.md R222, R223, R225: the two-wire commands as the chip takes them. R228 leaves the effect of
CMD_ADDR with 6 or 7 unspecified: that the instruction completes there and only the chip may change is the model's
(logs 9 and 17). -/
def Obligations.TwoWireCommandsSetTheChip : Prop :=
  ∀ (a : Nat) (b : BitVec 3) (on : Bool) (s : State),
    (∃ rx, exec .cmdData s = .next { s with dev := { s.dev with tw := { s.dev.tw with autoInc := true, rx := rx } } }) ∧
    (a < 6 → ∃ rx, rx.pos = .afterAddr ∧
      exec (.cmdAddr a) s = .next { s with dev := { s.dev with tw := { s.dev.tw with ptr := a, rx := rx } } }) ∧
    (∃ tw n, exec (.cmdAddr a) s = .next { s with dev := { s.dev with tw := tw, draws := n } }) ∧
    (∃ rx, exec (.cmdDispctl b on) s =
      .next { s with dev := { s.dev with tw := { s.dev.tw with bri := b, on := on, rx := rx } } })

/-- 43_attached_devices.md R224: with AUTOINC = 1 a data byte writes DREG[PTR] and PTR moves on; every other register of
the chip is as before. With AUTOINC = 0 the effect is any value (93_implementation_defined.md): that the instruction
completes there, that only the chip may change, that PTR stays 0..6 and that further bytes are still data is the model's
(log 9), and so is it for a byte that would be written beyond DREG[5]. -/
def Obligations.DataByteWritesTheAddressedDigit : Prop :=
  ∀ (p : Byte) (s : State),
    (s.dev.tw.ptr < 6 → s.dev.tw.autoInc = true → ∃ t, exec (.data p) s = .next t ∧
      t = { s with dev := { s.dev with tw := { s.dev.tw with
              dreg := t.dev.tw.dreg, ptr := t.dev.tw.ptr, rx := t.dev.tw.rx } } } ∧
      t.dev.tw.dreg.getD s.dev.tw.ptr 0 = p ∧
      (∀ i, i ≠ s.dev.tw.ptr → t.dev.tw.dreg.getD i 0 = s.dev.tw.dreg.getD i 0) ∧
      t.dev.tw.ptr = s.dev.tw.ptr + 1) ∧
    (∃ tw n, exec (.data p) s = .next { s with dev := { s.dev with tw := tw, draws := n } } ∧
      tw.ptr ≤ 6 ∧ tw.rx.pos = .afterAddr)

/-- 43_attached_devices.md R231 to R234: a committed word writes the one register it names, NOOP none. -/
def Obligations.ShiftRegisterWordsWriteOneRegister : Prop :=
  ∀ (v : Byte) (s : State) (i : Instr) (r : SrReg),
    (i, r) ∈ [(Instr.srNoop v, SrReg.noop), (.srDigit0 v, .digit 0), (.srDigit1 v, .digit 1), (.srDigit2 v, .digit 2),
      (.srDigit3 v, .digit 3), (.srDecode v, .decode), (.srIntensity v, .intensity), (.srScanlimit v, .scanLimit),
      (.srPower v, .power), (.srTest v, .test)] →
    ∃ sr, exec i s = .next { s with dev := { s.dev with sr := sr } } ∧ sr.shift = s.dev.sr.shift ∧
      (r ≠ .noop → sr.read r = v) ∧ (∀ q, q ≠ r ∨ q = .noop → sr.read q = s.dev.sr.read q)

/-- 43_attached_devices.md R221 to R224, through the wires: inside the platform's window, a digit write (TW_SETDIGITS,
TW_SETDIGIT, TW_SETHEX) whose every byte is acknowledged leaves the patterns in the chip's digit registers
a .. a + n - 1, the others as they were, AUTOINC = 1 and PTR = a + n. The place where a byte takes effect is the model's
(log 10). -/
def Obligations.AcknowledgedDigitWriteReachesTheDigits : Prop :=
  ∀ (a c : Nat) (p v : Byte) (dp : Bool) (s t : State), a < 6 → s.dev.twWired s.cfg = true →
    (AllAck (clampCount a c + 2) s → exec (.twSetdigits a c) s = .next t →
      ShowsDigits (fun i => readPbuf i s) a (clampCount a c) s t) ∧
    (AllAck 3 s → exec (.twSetdigit p a) s = .next t → ShowsDigits (fun _ => p) a 1 s t) ∧
    (AllAck 3 s → exec (.twSethex v dp a) s = .next t →
      ShowsDigits (fun _ => segPattern s.cfg (v.toNat : Int) dp) a 1 s t)

/-- 43_attached_devices.md R225, through the wires: inside the platform's window, an acknowledged TW_CONFIG leaves the
chip's brightness and on flag as given and its digit registers as they were. -/
def Obligations.AcknowledgedConfigReachesTheChip : Prop :=
  ∀ (b : Byte) (on : Bool) (s t : State), s.dev.twWired s.cfg = true → AllAck 1 s →
    exec (.twConfig b on) s = .next t →
    t.dev.tw.bri = b.setWidth 3 ∧ t.dev.tw.on = on ∧ t.dev.tw.dreg = s.dev.tw.dreg ∧
    t.dev.tw.ptr = s.dev.tw.ptr ∧ t.dev.tw.autoInc = s.dev.tw.autoInc

/-- 43_attached_devices.md R230 to R234, through the wires: with the port configured and the shift clock low before,
SR_WRITEREG leaves addr ++ value in SHIFT and the value in the register that the address names, and no other
register changes. At a DIGIT_REG_BASE that puts a digit register on the address of another register, which of the two
the address names is the model's choice (log 19); the wires before SR_INIT are the model's too (log 12). -/
def Obligations.SrWriteregReachesTheRegister : Prop :=
  ∀ (a v : Byte) (r : SrReg) (s t : State), srWired s.cfg s.lines = true → s.lines.srClk = false →
    srRegAt s.cfg.digitRegBase a = some r → exec (.srWritereg a v) s = .next t →
    srAddr t.dev.sr.shift = a ∧ srValue t.dev.sr.shift = v ∧ (r ≠ .noop → t.dev.sr.read r = v) ∧
    (∀ q, q ≠ r ∨ q = .noop → t.dev.sr.read q = s.dev.sr.read q)

/-! ## The sequencer -/

/-- 10_state.md R29: from acceptance, the engine's single moves end in the state that the operation as one step
gives; the moves are one for each action and one for the completion; and the acceptance faults exactly when the one
step does. The two granularities are the model's (log 2). -/
def Obligations.SingleMovesMakeTheWholeOperation : Prop :=
  ∀ (w : Word) (i : Instr) (s : State), decodeHost w = .ok i →
    (∀ t, exec i s = .next t →
      ∃ s1, accept w i s = .next s1 ∧ engineSteps (t.trace.length - s.trace.length + 1) s1 = t) ∧
    (∀ f, exec i s = .fault f ↔ accept w i s = .fault f) ∧ (∀ r, exec i s ≠ .refused r)

/-- 10_state.md R22, R24: an accepted command makes BUSY 1, leaves RC and emits nothing; while BUSY = 1 RC holds the
previous operation's code, and each move of the engine emits one action; the move that ends the operation records its
result and emits none. The single moves are the model's (log 2). -/
def Obligations.RcIsWrittenOnlyAtCompletion : Prop :=
  (∀ (w : Word) (i : Instr) (s : State), operandFault i s = none → ∃ t, accept w i s = .next t ∧
    busy t = true ∧ t.rc = s.rc ∧ t.trace = s.trace ∧ t = { s with seq := t.seq }) ∧
  ∀ (s : State) (f : InFlight), s.seq = some f →
    (f.todo ≠ [] → busy (engineStep s) = true ∧ (engineStep s).rc = s.rc ∧
      ∃ a, (engineStep s).trace = s.trace ++ [a]) ∧
    (f.todo = [] → busy (engineStep s) = false ∧ (engineStep s).rc = f.result ∧ (engineStep s).trace = s.trace)

/-- 70_reset_and_hazards.md R292: no operation hangs; the engine is idle after at most one move for each entry left
and one more, whatever the oracle answers. -/
def Obligations.EveryOperationCompletes : Prop :=
  ∀ (s : State) (f : InFlight) (n : Nat), s.seq = some f → f.todo.length + 1 ≤ n → busy (engineSteps n s) = false

/-- 70_reset_and_hazards.md R285, R286: another driver of the two-wire lines during a two-wire operation is refused,
except exactly between the two frames of a digit write; and of the shift-register lines during a shift-register
operation always. The inputs are the model's (log 13). -/
def Obligations.AnotherDriverDuringAnOperationIsRefused : Prop :=
  ∀ (s : State) (rest : List Input) (f : InFlight) (b : Byte) (w : BitVec 16), s.seq = some f →
    (usesTwPort f.instr = true → betweenFrames s.cfg f = false →
      s.inputs = .twStart :: rest ∨ s.inputs = .twByte b :: rest ∨ s.inputs = .twStop :: rest →
      step s = .refused .foreignDriver) ∧
    (usesSrPort f.instr = true → s.inputs = .srWord w :: rest → step s = .refused .foreignDriver)

/-! ## Frames and whole-machine rules -/

/-- 10_state.md R25, R35, 20_memory.md R63, 92_eei_decisions.md D45: no instruction changes a parameter, ARG, PBUF,
the pending inputs or the host's data, and only SEG_ENCODE changes ENCOUT. -/
def Obligations.InstructionsKeepTheHostOperands : Prop :=
  ∀ (i : Instr) (s t : State), exec i s = .next t →
    t.cfg = s.cfg ∧ t.arg = s.arg ∧ t.argWritten = s.argWritten ∧ t.pbuf = s.pbuf ∧ t.pbufWritten = s.pbufWritten ∧
    t.inputs = s.inputs ∧ t.hostData = s.hostData ∧ ((∀ v dp, i ≠ .segEncode v dp) → t.encout = s.encout)

/-- 10_state.md R32: an operation of one port leaves the other port's lines and chip as they were; only two-wire
operations take samples; the bytes and words of the chips leave the block as it was. -/
def Obligations.EachPortLeavesTheOtherAlone : Prop :=
  ∀ (i : Instr) (s t : State), exec i s = .next t →
    (usesTwPort i = true → t.lines.srClk = s.lines.srClk ∧ t.lines.srDin = s.lines.srDin ∧
      t.lines.srLoad = s.lines.srLoad ∧ t.lines.srCfg = s.lines.srCfg ∧ t.dev.sr = s.dev.sr) ∧
    (usesTwPort i = false → t.lines.twClk = s.lines.twClk ∧ t.lines.twDioOut = s.lines.twDioOut ∧
      t.lines.twDioDir = s.lines.twDioDir ∧ t.answers = s.answers ∧ t.asked = s.asked ∧
      t.dev.platformUp = s.dev.platformUp) ∧
    (usesSrPort i = true → t.dev.tw = s.dev.tw) ∧
    (usesTwPort i = false → usesSrPort i = false → t.lines = s.lines ∧ t.trace = s.trace) ∧
    ((∃ b pos, decodeTw pos b = .ok i) → t = { s with dev := t.dev } ∧ t.dev.sr = s.dev.sr) ∧
    ((∃ w, decodeSr s.cfg.digitRegBase w = .ok i) → t = { s with dev := t.dev } ∧ t.dev.tw = s.dev.tw)

/-- 10_state.md R33: only `emit` appends to TRACE and nothing removes from it; a platform reset alone empties it
(70_reset_and_hazards.md R280; the reset as an input is the model's, log 14). -/
def Obligations.TraceOnlyGrows : Prop :=
  ∀ s t : State, step s = .next t →
    (∃ acts, t.trace = s.trace ++ acts) ∨ (∃ rest, s.inputs = .platformReset :: rest ∧ t.trace = [])

/-- 10_state.md R35, R36 (e), 43_attached_devices.md R220, 70_reset_and_hazards.md R281: what the block reports, its
trace and every host register included, depends on no line level and on nothing the attached chips hold. -/
def Obligations.ReportsDependOnNoLineOrChip : Prop :=
  ∀ (s : State) (ln : Lines) (d : Devices),
    viewNext report (step { s with lines := ln, dev := d }) = viewNext report (step s)

/-- 10_state.md R36: the invariant holds at reset. The line levels at reset are the model's choice (log 5). -/
def Obligations.InvariantHoldsAtReset : Prop := Inv State.reset

/-- 10_state.md R36 (a), (b), 43_attached_devices.md: every step keeps the invariant: data is written only while the
line is driven, the line is released only inside an acknowledgment phase, an idle block leaves the idle levels, PTR
stays 0..6. -/
def Obligations.EveryStepKeepsTheInvariant : Prop :=
  ∀ s t : State, Inv s → step s = .next t → Inv t

/-- 70_reset_and_hazards.md R294: the port actions and waits of every operation and outcome, and of the parts of a
frame. -/
def Obligations.ActionAndWaitCounts : Prop :=
  ∀ (a c j : Nat) (r v : Byte) (on : Bool) (s : State),
    (Emits (exec .twInit s) s 1 0 0 ∧ Emits (exec .twDeinit s) s 1 0 0) ∧
    Emits (exec (.twConfig v on) s) s 63 24 1 ∧
    (a < 6 → AllAck 3 s →
      Emits (exec (.twSetdigit v a) s) s 174 66 2 ∧ Emits (exec (.twSethex v on a) s) s 174 66 2) ∧
    (a < 6 → PbufReady (clampCount a c) s → AllAck (clampCount a c + 2) s →
      Emits (exec (.twSetdigits a c) s) s (126 + 48 * clampCount a c) (48 + 18 * clampCount a c) 2) ∧
    (6 ≤ a → Emits (exec (.twSetdigit v a) s) s 0 0 0 ∧ Emits (exec (.twSethex v on a) s) s 0 0 0 ∧
      Emits (exec (.twSetdigits a c) s) s 0 0 0) ∧
    (a < 6 → FirstNak 0 s → Emits (exec (.twSetdigit v a) s) s 54 20 0 ∧ Emits (exec (.twSethex v on a) s) s 54 20 0 ∧
      (PbufReady (clampCount a c) s → Emits (exec (.twSetdigits a c) s) s 54 20 0)) ∧
    (a < 6 → 1 ≤ j → FirstNak j s →
      (j ≤ 2 → Emits (exec (.twSetdigit v a) s) s (69 + 48 * j) (26 + 18 * j) 1 ∧
        Emits (exec (.twSethex v on a) s) s (69 + 48 * j) (26 + 18 * j) 1) ∧
      (j ≤ clampCount a c + 1 → PbufReady (clampCount a c) s →
        Emits (exec (.twSetdigits a c) s) s (69 + 48 * j) (26 + 18 * j) 1)) ∧
    Emits (exec (.segEncode v on) s) s 0 0 0 ∧ Emits (exec .srInit s) s 3 0 0 ∧
    Emits (exec (.srWritereg r v) s) s 50 0 0 ∧ Emits (exec .srClear s) s 200 0 0 ∧
    (s.argWritten = true → Emits (exec .srDispnum s) s 200 0 0) ∧
    (∀ w e, decodeHost w = .error e → Emits (command w s) s 0 0 0) ∧
    startActions.count (.wait .tBit) = 2 ∧ (∀ l, (bitActions l).count (.wait .tBit) = 2) ∧
    (∀ l, (ackOpen ++ [Action.sample l] ++ ackClose).count (Action.wait .tBit) = 2) ∧ stopActions.count (.wait .tBit) = 4 ∧
    (∀ x l, (sentByte x l).count (.wait .tBit) = 18) ∧
    (∀ xs ls, xs.length = ls.length → (sentFrame xs ls).count (.wait .tBit) = 6 + 18 * xs.length)
end

