-- ==== Sys2Proof/Laws/State.lean ====
section
/-! SUPPORT. Laws/State.lean: each field of State after each basic update. -/

namespace Sys2Proof.Machine

@[simp] theorem emit_cfg (a : Action) (s : State) : (emit a s).cfg = s.cfg := rfl
@[simp] theorem emit_arg (a : Action) (s : State) : (emit a s).arg = s.arg := rfl
@[simp] theorem emit_argWritten (a : Action) (s : State) : (emit a s).argWritten = s.argWritten := rfl
@[simp] theorem emit_rc (a : Action) (s : State) : (emit a s).rc = s.rc := rfl
@[simp] theorem emit_encout (a : Action) (s : State) : (emit a s).encout = s.encout := rfl
@[simp] theorem emit_pbuf (a : Action) (s : State) : (emit a s).pbuf = s.pbuf := rfl
@[simp] theorem emit_pbufWritten (a : Action) (s : State) : (emit a s).pbufWritten = s.pbufWritten := rfl
@[simp] theorem emit_seq (a : Action) (s : State) : (emit a s).seq = s.seq := rfl
@[simp] theorem emit_lines (a : Action) (s : State) : (emit a s).lines = s.lines.drive a := rfl
@[simp] theorem emit_trace (a : Action) (s : State) : (emit a s).trace = s.trace ++ [a] := rfl
@[simp] theorem emit_answers (a : Action) (s : State) : (emit a s).answers = s.answers := rfl
@[simp] theorem emit_asked (a : Action) (s : State) : (emit a s).asked = s.asked := rfl
@[simp] theorem emit_inputs (a : Action) (s : State) : (emit a s).inputs = s.inputs := rfl
@[simp] theorem emit_hostData (a : Action) (s : State) : (emit a s).hostData = s.hostData := rfl
@[simp] theorem emit_dev (a : Action) (s : State) : (emit a s).dev = s.dev.see s.cfg s.lines a := rfl

@[simp] theorem sample_cfg (s : State) : (sample s).cfg = s.cfg := rfl
@[simp] theorem sample_arg (s : State) : (sample s).arg = s.arg := rfl
@[simp] theorem sample_argWritten (s : State) : (sample s).argWritten = s.argWritten := rfl
@[simp] theorem sample_rc (s : State) : (sample s).rc = s.rc := rfl
@[simp] theorem sample_encout (s : State) : (sample s).encout = s.encout := rfl
@[simp] theorem sample_pbuf (s : State) : (sample s).pbuf = s.pbuf := rfl
@[simp] theorem sample_pbufWritten (s : State) : (sample s).pbufWritten = s.pbufWritten := rfl
@[simp] theorem sample_seq (s : State) : (sample s).seq = s.seq := rfl
@[simp] theorem sample_lines (s : State) : (sample s).lines = s.lines := rfl
@[simp] theorem sample_trace (s : State) : (sample s).trace = s.trace ++ [.sample (nextLevel s)] := rfl
@[simp] theorem sample_answers (s : State) : (sample s).answers = s.answers.tail := rfl
@[simp] theorem sample_asked (s : State) : (sample s).asked = s.asked + 1 := rfl
@[simp] theorem sample_inputs (s : State) : (sample s).inputs = s.inputs := rfl
@[simp] theorem sample_hostData (s : State) : (sample s).hostData = s.hostData := rfl
@[simp] theorem sample_dev (s : State) : (sample s).dev = s.dev.see s.cfg s.lines (.sample (nextLevel s)) := rfl

@[simp] theorem complete_cfg (r : Result) (s : State) : (complete r s).cfg = s.cfg := rfl
@[simp] theorem complete_arg (r : Result) (s : State) : (complete r s).arg = s.arg := rfl
@[simp] theorem complete_argWritten (r : Result) (s : State) : (complete r s).argWritten = s.argWritten := rfl
@[simp] theorem complete_rc (r : Result) (s : State) : (complete r s).rc = r := rfl
@[simp] theorem complete_encout (r : Result) (s : State) : (complete r s).encout = s.encout := rfl
@[simp] theorem complete_pbuf (r : Result) (s : State) : (complete r s).pbuf = s.pbuf := rfl
@[simp] theorem complete_pbufWritten (r : Result) (s : State) : (complete r s).pbufWritten = s.pbufWritten := rfl
@[simp] theorem complete_seq (r : Result) (s : State) : (complete r s).seq = none := rfl
@[simp] theorem complete_lines (r : Result) (s : State) : (complete r s).lines = s.lines := rfl
@[simp] theorem complete_trace (r : Result) (s : State) : (complete r s).trace = s.trace := rfl
@[simp] theorem complete_answers (r : Result) (s : State) : (complete r s).answers = s.answers := rfl
@[simp] theorem complete_asked (r : Result) (s : State) : (complete r s).asked = s.asked := rfl
@[simp] theorem complete_inputs (r : Result) (s : State) : (complete r s).inputs = s.inputs := rfl
@[simp] theorem complete_hostData (r : Result) (s : State) : (complete r s).hostData = s.hostData := rfl
@[simp] theorem complete_dev (r : Result) (s : State) : (complete r s).dev = s.dev := rfl

@[simp] theorem finish_cfg (s : State) : (finish s).cfg = s.cfg := rfl
@[simp] theorem finish_arg (s : State) : (finish s).arg = s.arg := rfl
@[simp] theorem finish_argWritten (s : State) : (finish s).argWritten = s.argWritten := rfl
@[simp] theorem finish_rc (s : State) : (finish s).rc = .ok := rfl
@[simp] theorem finish_encout (s : State) : (finish s).encout = s.encout := rfl
@[simp] theorem finish_pbuf (s : State) : (finish s).pbuf = s.pbuf := rfl
@[simp] theorem finish_pbufWritten (s : State) : (finish s).pbufWritten = s.pbufWritten := rfl
@[simp] theorem finish_seq (s : State) : (finish s).seq = none := rfl
@[simp] theorem finish_lines (s : State) : (finish s).lines = s.lines := rfl
@[simp] theorem finish_trace (s : State) : (finish s).trace = s.trace := rfl
@[simp] theorem finish_answers (s : State) : (finish s).answers = s.answers := rfl
@[simp] theorem finish_asked (s : State) : (finish s).asked = s.asked := rfl
@[simp] theorem finish_inputs (s : State) : (finish s).inputs = s.inputs := rfl
@[simp] theorem finish_hostData (s : State) : (finish s).hostData = s.hostData := rfl
@[simp] theorem finish_dev (s : State) : (finish s).dev = s.dev := rfl

@[simp] theorem raise_cfg (r : Result) (s : State) : (raise r s).cfg = s.cfg := rfl
@[simp] theorem raise_arg (r : Result) (s : State) : (raise r s).arg = s.arg := rfl
@[simp] theorem raise_argWritten (r : Result) (s : State) : (raise r s).argWritten = s.argWritten := rfl
@[simp] theorem raise_rc (r : Result) (s : State) : (raise r s).rc = r := rfl
@[simp] theorem raise_encout (r : Result) (s : State) : (raise r s).encout = s.encout := rfl
@[simp] theorem raise_pbuf (r : Result) (s : State) : (raise r s).pbuf = s.pbuf := rfl
@[simp] theorem raise_pbufWritten (r : Result) (s : State) : (raise r s).pbufWritten = s.pbufWritten := rfl
@[simp] theorem raise_seq (r : Result) (s : State) : (raise r s).seq = none := rfl
@[simp] theorem raise_lines (r : Result) (s : State) : (raise r s).lines = s.lines := rfl
@[simp] theorem raise_trace (r : Result) (s : State) : (raise r s).trace = s.trace := rfl
@[simp] theorem raise_answers (r : Result) (s : State) : (raise r s).answers = s.answers := rfl
@[simp] theorem raise_asked (r : Result) (s : State) : (raise r s).asked = s.asked := rfl
@[simp] theorem raise_inputs (r : Result) (s : State) : (raise r s).inputs = s.inputs := rfl
@[simp] theorem raise_hostData (r : Result) (s : State) : (raise r s).hostData = s.hostData := rfl
@[simp] theorem raise_dev (r : Result) (s : State) : (raise r s).dev = s.dev := rfl

@[simp] theorem abandonFrame_cfg (s : State) : (abandonFrame s).cfg = s.cfg := rfl
@[simp] theorem abandonFrame_arg (s : State) : (abandonFrame s).arg = s.arg := rfl
@[simp] theorem abandonFrame_argWritten (s : State) : (abandonFrame s).argWritten = s.argWritten := rfl
@[simp] theorem abandonFrame_rc (s : State) : (abandonFrame s).rc = s.rc := rfl
@[simp] theorem abandonFrame_encout (s : State) : (abandonFrame s).encout = s.encout := rfl
@[simp] theorem abandonFrame_pbuf (s : State) : (abandonFrame s).pbuf = s.pbuf := rfl
@[simp] theorem abandonFrame_pbufWritten (s : State) : (abandonFrame s).pbufWritten = s.pbufWritten := rfl
@[simp] theorem abandonFrame_seq (s : State) : (abandonFrame s).seq = s.seq := rfl
@[simp] theorem abandonFrame_lines (s : State) : (abandonFrame s).lines = s.lines := rfl
@[simp] theorem abandonFrame_trace (s : State) : (abandonFrame s).trace = s.trace := rfl
@[simp] theorem abandonFrame_answers (s : State) : (abandonFrame s).answers = s.answers := rfl
@[simp] theorem abandonFrame_asked (s : State) : (abandonFrame s).asked = s.asked := rfl
@[simp] theorem abandonFrame_inputs (s : State) : (abandonFrame s).inputs = s.inputs := rfl
@[simp] theorem abandonFrame_hostData (s : State) : (abandonFrame s).hostData = s.hostData := rfl
@[simp] theorem abandonFrame_dev (s : State) : (abandonFrame s).dev = s.dev.twUnspecified := rfl

@[simp] theorem onDevices_cfg (f : Devices → Devices) (s : State) : (onDevices f s).cfg = s.cfg := rfl
@[simp] theorem onDevices_arg (f : Devices → Devices) (s : State) : (onDevices f s).arg = s.arg := rfl
@[simp] theorem onDevices_argWritten (f : Devices → Devices) (s : State) : (onDevices f s).argWritten = s.argWritten := rfl
@[simp] theorem onDevices_rc (f : Devices → Devices) (s : State) : (onDevices f s).rc = s.rc := rfl
@[simp] theorem onDevices_encout (f : Devices → Devices) (s : State) : (onDevices f s).encout = s.encout := rfl
@[simp] theorem onDevices_pbuf (f : Devices → Devices) (s : State) : (onDevices f s).pbuf = s.pbuf := rfl
@[simp] theorem onDevices_pbufWritten (f : Devices → Devices) (s : State) : (onDevices f s).pbufWritten = s.pbufWritten := rfl
@[simp] theorem onDevices_seq (f : Devices → Devices) (s : State) : (onDevices f s).seq = s.seq := rfl
@[simp] theorem onDevices_lines (f : Devices → Devices) (s : State) : (onDevices f s).lines = s.lines := rfl
@[simp] theorem onDevices_trace (f : Devices → Devices) (s : State) : (onDevices f s).trace = s.trace := rfl
@[simp] theorem onDevices_answers (f : Devices → Devices) (s : State) : (onDevices f s).answers = s.answers := rfl
@[simp] theorem onDevices_asked (f : Devices → Devices) (s : State) : (onDevices f s).asked = s.asked := rfl
@[simp] theorem onDevices_inputs (f : Devices → Devices) (s : State) : (onDevices f s).inputs = s.inputs := rfl
@[simp] theorem onDevices_hostData (f : Devices → Devices) (s : State) : (onDevices f s).hostData = s.hostData := rfl
@[simp] theorem onDevices_dev (f : Devices → Devices) (s : State) : (onDevices f s).dev = f s.dev := rfl

@[simp] theorem writeEncout_cfg (p : Byte) (s : State) : (writeEncout p s).cfg = s.cfg := rfl
@[simp] theorem writeEncout_arg (p : Byte) (s : State) : (writeEncout p s).arg = s.arg := rfl
@[simp] theorem writeEncout_argWritten (p : Byte) (s : State) : (writeEncout p s).argWritten = s.argWritten := rfl
@[simp] theorem writeEncout_rc (p : Byte) (s : State) : (writeEncout p s).rc = s.rc := rfl
@[simp] theorem writeEncout_encout (p : Byte) (s : State) : (writeEncout p s).encout = p := rfl
@[simp] theorem writeEncout_pbuf (p : Byte) (s : State) : (writeEncout p s).pbuf = s.pbuf := rfl
@[simp] theorem writeEncout_pbufWritten (p : Byte) (s : State) : (writeEncout p s).pbufWritten = s.pbufWritten := rfl
@[simp] theorem writeEncout_seq (p : Byte) (s : State) : (writeEncout p s).seq = s.seq := rfl
@[simp] theorem writeEncout_lines (p : Byte) (s : State) : (writeEncout p s).lines = s.lines := rfl
@[simp] theorem writeEncout_trace (p : Byte) (s : State) : (writeEncout p s).trace = s.trace := rfl
@[simp] theorem writeEncout_answers (p : Byte) (s : State) : (writeEncout p s).answers = s.answers := rfl
@[simp] theorem writeEncout_asked (p : Byte) (s : State) : (writeEncout p s).asked = s.asked := rfl
@[simp] theorem writeEncout_inputs (p : Byte) (s : State) : (writeEncout p s).inputs = s.inputs := rfl
@[simp] theorem writeEncout_hostData (p : Byte) (s : State) : (writeEncout p s).hostData = s.hostData := rfl
@[simp] theorem writeEncout_dev (p : Byte) (s : State) : (writeEncout p s).dev = s.dev := rfl

@[simp] theorem afterSamples_cfg (k : Nat) (s : State) : (afterSamples k s).cfg = s.cfg := rfl
@[simp] theorem afterSamples_arg (k : Nat) (s : State) : (afterSamples k s).arg = s.arg := rfl
@[simp] theorem afterSamples_argWritten (k : Nat) (s : State) : (afterSamples k s).argWritten = s.argWritten := rfl
@[simp] theorem afterSamples_rc (k : Nat) (s : State) : (afterSamples k s).rc = s.rc := rfl
@[simp] theorem afterSamples_encout (k : Nat) (s : State) : (afterSamples k s).encout = s.encout := rfl
@[simp] theorem afterSamples_pbuf (k : Nat) (s : State) : (afterSamples k s).pbuf = s.pbuf := rfl
@[simp] theorem afterSamples_pbufWritten (k : Nat) (s : State) : (afterSamples k s).pbufWritten = s.pbufWritten := rfl
@[simp] theorem afterSamples_seq (k : Nat) (s : State) : (afterSamples k s).seq = s.seq := rfl
@[simp] theorem afterSamples_lines (k : Nat) (s : State) : (afterSamples k s).lines = s.lines := rfl
@[simp] theorem afterSamples_trace (k : Nat) (s : State) : (afterSamples k s).trace = s.trace := rfl
@[simp] theorem afterSamples_answers (k : Nat) (s : State) : (afterSamples k s).answers = s.answers.drop k := rfl
@[simp] theorem afterSamples_asked (k : Nat) (s : State) : (afterSamples k s).asked = s.asked + k := rfl
@[simp] theorem afterSamples_inputs (k : Nat) (s : State) : (afterSamples k s).inputs = s.inputs := rfl
@[simp] theorem afterSamples_hostData (k : Nat) (s : State) : (afterSamples k s).hostData = s.hostData := rfl
@[simp] theorem afterSamples_dev (k : Nat) (s : State) : (afterSamples k s).dev = s.dev := rfl

end Sys2Proof.Machine
end

