-- ==== Sys2Proof/Laws/Ops.lean ====
section
/-! SUPPORT. Laws/Ops.lean: what `emitAll` and the oracle do, once and for all callers. -/

namespace Sys2Proof.Machine

/-- The lines after a list of actions. -/
def Lines.driveAll (as : List Action) (ln : Lines) : Lines := as.foldl (fun l a => l.drive a) ln

/-- The devices after a list of actions that starts from lines `ln`. -/
def Devices.seeAll (cfg : Config) (ln : Lines) (as : List Action) (d : Devices) : Devices :=
  match as with
  | [] => d
  | a :: rest => (d.see cfg ln a).seeAll cfg (ln.drive a) rest

@[simp] theorem driveAll_nil (ln : Lines) : ln.driveAll [] = ln := rfl
@[simp] theorem driveAll_cons (a : Action) (as : List Action) (ln : Lines) :
    ln.driveAll (a :: as) = (ln.drive a).driveAll as := rfl
@[simp] theorem driveAll_append (as bs : List Action) (ln : Lines) :
    ln.driveAll (as ++ bs) = (ln.driveAll as).driveAll bs := by
  simp [Lines.driveAll]

@[simp] theorem seeAll_nil (cfg : Config) (ln : Lines) (d : Devices) : d.seeAll cfg ln [] = d := rfl
@[simp] theorem seeAll_cons (cfg : Config) (ln : Lines) (a : Action) (as : List Action) (d : Devices) :
    d.seeAll cfg ln (a :: as) = (d.see cfg ln a).seeAll cfg (ln.drive a) as := rfl
@[simp] theorem seeAll_append (cfg : Config) (ln : Lines) (as bs : List Action) (d : Devices) :
    d.seeAll cfg ln (as ++ bs) = (d.seeAll cfg ln as).seeAll cfg (ln.driveAll as) bs := by
  induction as generalizing ln d with
  | nil => rfl
  | cons a as ih => simp [ih]

@[simp] theorem emitAll_nil (s : State) : emitAll [] s = s := rfl
@[simp] theorem emitAll_cons (a : Action) (as : List Action) (s : State) :
    emitAll (a :: as) s = emitAll as (emit a s) := rfl

/-- Emitting one list after another is emitting their concatenation. -/
theorem emitAll_append (as bs : List Action) (s : State) : emitAll (as ++ bs) s = emitAll bs (emitAll as s) := by
  induction as generalizing s with
  | nil => rfl
  | cons a as ih => simp [ih]

/-- Everything `emitAll` can do: it appends to the trace, drives the lines, and the devices see it. -/
theorem emitAll_eq (as : List Action) (s : State) :
    emitAll as s = { s with
      trace := s.trace ++ as
      lines := s.lines.driveAll as
      dev := s.dev.seeAll s.cfg s.lines as } := by
  induction as generalizing s with
  | nil => simp
  | cons a as ih => simp [ih, emit]

/-- What is written before an action, and not read by it, can be written after it. -/
theorem emitAll_afterSamples (as : List Action) (k : Nat) (s : State) :
    emitAll as (afterSamples k s) = afterSamples k (emitAll as s) := by
  simp [emitAll_eq, afterSamples]

theorem emit_afterSamples (a : Action) (k : Nat) (s : State) :
    emit a (afterSamples k s) = afterSamples k (emit a s) := rfl

theorem afterSamples_zero (s : State) : afterSamples 0 s = s := by simp [afterSamples]

theorem afterSamples_afterSamples (j k : Nat) (s : State) :
    afterSamples j (afterSamples k s) = afterSamples (j + k) s := by
  simp [afterSamples, Nat.add_assoc, Nat.add_comm j k]

/-- The oracle's answers after `k` samples are the later ones. -/
@[simp] theorem oracleAt_afterSamples (i k : Nat) (s : State) : oracleAt i (afterSamples k s) = oracleAt (k + i) s := by
  simp only [oracleAt, afterSamples, List.getElem?_drop, Nat.add_assoc]

/-- The oracle reads neither the trace nor the lines nor the devices. -/
@[simp] theorem oracleAt_emitAll (i : Nat) (as : List Action) (s : State) : oracleAt i (emitAll as s) = oracleAt i s := by
  simp [emitAll_eq, oracleAt]

@[simp] theorem emitAll_cfg (as : List Action) (s : State) : (emitAll as s).cfg = s.cfg := by simp [emitAll_eq]

/-- `sample` is the emission of the oracle's answer, with one sample taken. -/
theorem sample_eq (s : State) : sample s = emit (.sample (oracleAt 0 s)) (afterSamples 1 s) := by
  simp [sample, afterSamples, nextLevel]

end Sys2Proof.Machine
end

