-- ==== Sys2Proof/Laws/TwoWire.lean ====
section
/-! SUPPORT. Laws/TwoWire.lean: the one spec lemma of each bus primitive of the two-wire engine. -/

namespace Sys2Proof.Machine

/-- TX_BYTE is the emission of the byte with the oracle's answer. -/
theorem txByte_eq (x : Byte) (s : State) :
    txByte x s = (oracleAt 0 s, emitAll (sentByte x (oracleAt 0 s)) (afterSamples 1 s)) := by
  have h : sample (emitAll ackOpen (emitAll (byteActions x) s)) =
      emit (.sample (oracleAt 0 s)) (emitAll (byteActions x ++ ackOpen) (afterSamples 1 s)) := by
    rw [sample_eq, emitAll_afterSamples, emitAll_append]; simp
  simp only [txByte, ackPhase, nextLevel, oracleAt_emitAll, h, sentByte]
  simp [emitAll_append]

@[simp] theorem sentBytes_nil (ls : List Level) : sentBytes [] ls = [] := rfl
@[simp] theorem sentBytes_cons (x : Byte) (xs : List Byte) (l : Level) (ls : List Level) :
    sentBytes (x :: xs) (l :: ls) = sentByte x l ++ sentBytes xs ls := rfl

theorem levelsFrom_zero (i : Nat) (s : State) : levelsFrom i 0 s = [] := rfl

theorem levelsFrom_succ (i k : Nat) (s : State) : levelsFrom i (k + 1) s = oracleAt i s :: levelsFrom (i + 1) k s := by
  simp only [levelsFrom, List.range_succ_eq_map, List.map_cons, List.map_map, Nat.add_zero]
  congr 1
  apply List.map_congr_left; intro j _; simp [Nat.add_comm, Nat.add_left_comm]

@[simp] theorem levelsFrom_afterSamples (i k n : Nat) (s : State) :
    levelsFrom i n (afterSamples k s) = levelsFrom (k + i) n s := by
  simp [levelsFrom, Nat.add_assoc]

@[simp] theorem levelsFrom_emitAll (i n : Nat) (as : List Action) (s : State) :
    levelsFrom i n (emitAll as s) = levelsFrom i n s := by
  simp [levelsFrom]

/-- The levels of acknowledged samples. -/
theorem levelsFrom_of_ack (i n : Nat) (s : State) (h : ∀ k, i ≤ k → k < i + n → oracleAt k s = s.cfg.ackLevel) :
    levelsFrom i n s = List.replicate n s.cfg.ackLevel := by
  induction n generalizing i with
  | zero => rfl
  | succ n ih =>
    rw [levelsFrom_succ, h i (le_refl i) (by omega), ih (i + 1) (fun k h1 h2 => h k (by omega) (by omega))]
    rfl

/-- The bytes of an unchecked frame, and of a checked one whose samples all acknowledge. -/
theorem sendBytes_ok (check : Bool) (seq : List Byte) (s : State) (h : check = true → AllAck seq.length s) :
    sendBytes check seq s =
      (.ok, emitAll (sentBytes seq (levelsFrom 0 seq.length s)) (afterSamples seq.length s)) := by
  induction seq generalizing s with
  | nil => simp [sendBytes, sentBytes, levelsFrom, afterSamples_zero]
  | cons x rest ih =>
    have hc : ¬ (check = true ∧ oracleAt 0 s ≠ s.cfg.ackLevel) := by
      rintro ⟨h1, h2⟩; exact h2 (h h1 0 (by simp))
    rw [sendBytes]
    simp only [txByte_eq]
    rw [if_neg hc, ih]
    · simp [levelsFrom_succ, emitAll_append, emitAll_afterSamples, afterSamples_afterSamples]
    · intro h1 i hi
      have := h h1 (1 + i) (by simp; omega)
      simpa using this

/-- A checked frame's bytes up to and with the first nak. -/
theorem sendBytes_nak (j : Nat) (seq : List Byte) (s : State) (h : FirstNak j s) (hj : j < seq.length) :
    sendBytes true seq s =
      (.ackFailure, emitAll (sentBytes (seq.take (j + 1)) (levelsFrom 0 (j + 1) s)) (afterSamples (j + 1) s)) := by
  induction seq generalizing s j with
  | nil => simp at hj
  | cons x rest ih =>
    cases j with
    | zero =>
      simp only [sendBytes, txByte_eq, true_and, if_pos h.2]
      simp [levelsFrom_succ, levelsFrom_zero]
    | succ j =>
      have hc : ¬ (True ∧ oracleAt 0 s ≠ s.cfg.ackLevel) := by
        rintro ⟨-, h2⟩; exact h2 (h.1 0 (by omega))
      rw [sendBytes]
      simp only [txByte_eq]
      rw [if_neg hc, ih j]
      · simp [levelsFrom_succ _ (j + 1), emitAll_append, emitAll_afterSamples, afterSamples_afterSamples]
      · constructor
        · intro i hi
          have := h.1 (1 + i) (by omega)
          simpa using this
        · have := h.2
          simpa [Nat.add_comm] using this
      · simp at hj; omega

/-- FRAME that completes. -/
theorem frame_ok (check : Bool) (seq : List Byte) (s : State) (h : check = true → AllAck seq.length s) :
    frame seq check s =
      (.ok, emitAll (sentFrame seq (levelsFrom 0 seq.length s)) (afterSamples seq.length s)) := by
  unfold frame
  rw [sendBytes_ok]
  · simp [sentFrame, emitAll_append, emitAll_afterSamples, emit_afterSamples]
  · intro h1 i hi; simpa using h h1 i hi

/-- FRAME that is abandoned at its first nak. -/
theorem frame_nak (j : Nat) (seq : List Byte) (s : State) (h : FirstNak j s) (hj : j < seq.length) :
    frame seq true s =
      (.ackFailure, abandonFrame (emitAll (brokenFrame (seq.take (j + 1)) (levelsFrom 0 (j + 1) s))
        (afterSamples (j + 1) s))) := by
  unfold frame
  rw [sendBytes_nak j]
  · simp [brokenFrame, emitAll_append, emitAll_afterSamples]
  · refine ⟨fun i hi => ?_, ?_⟩
    · simpa using h.1 i hi
    · simpa using h.2
  · exact hj

@[simp] theorem length_digitFrameBytes (pat : Nat → Byte) (a n : Nat) :
    (digitFrameBytes pat a n).length = n + 1 := by simp [digitFrameBytes]

/-- WRITE_DIGITS when every byte is acknowledged: both frames, and finish. -/
theorem writeDigits_ok (pat : Nat → Byte) (a c : Nat) (s : State) (ha : a < twDigits)
    (h : AllAck (clampCount a c + 2) s) :
    writeDigits pat a c s = finish (emitAll
      (sentFrame [cmdDataByte] (levelsFrom 0 1 s) ++
        sentFrame (digitFrameBytes pat a (clampCount a c)) (levelsFrom 1 (clampCount a c + 1) s))
      (afterSamples (clampCount a c + 2) s)) := by
  have e1 := frame_ok true [cmdDataByte] s (fun _ i hi => h i (by simp at hi; omega))
  have e2 := frame_ok true (digitFrameBytes pat a (clampCount a c))
    (emitAll (sentFrame [cmdDataByte] (levelsFrom 0 1 s)) (afterSamples 1 s)) (by
      intro _ i hi
      have := h (1 + i) (by simp at hi; omega)
      simpa using this)
  simp only [List.length_singleton] at e1
  simp only [writeDigits, if_neg (Nat.not_le.mpr ha), e1, e2]
  simp [emitAll_append, emitAll_afterSamples, afterSamples_afterSamples]

/-- WRITE_DIGITS whose CMD_DATA is not acknowledged: the digit frame is not begun. -/
theorem writeDigits_nak_first (pat : Nat → Byte) (a c : Nat) (s : State) (ha : a < twDigits) (h : FirstNak 0 s) :
    writeDigits pat a c s = raise .ackFailure (abandonFrame (emitAll
      (brokenFrame [cmdDataByte] (levelsFrom 0 1 s)) (afterSamples 1 s))) := by
  have e1 := frame_nak 0 [cmdDataByte] s h (by simp)
  simp only [writeDigits, if_neg (Nat.not_le.mpr ha), e1]
  simp

/-- WRITE_DIGITS whose first nak is at byte `j` of the digit frame, counted from 1. -/
theorem writeDigits_nak (j : Nat) (pat : Nat → Byte) (a c : Nat) (s : State) (ha : a < twDigits)
    (h : FirstNak (j + 1) s) (hj : j < clampCount a c + 1) :
    writeDigits pat a c s = raise .ackFailure (abandonFrame (emitAll
      (sentFrame [cmdDataByte] (levelsFrom 0 1 s) ++
        brokenFrame ((digitFrameBytes pat a (clampCount a c)).take (j + 1)) (levelsFrom 1 (j + 1) s))
      (afterSamples (j + 2) s))) := by
  have e1 := frame_ok true [cmdDataByte] s (fun _ i hi => h.1 i (by simp at hi; omega))
  have e2 := frame_nak j (digitFrameBytes pat a (clampCount a c))
    (emitAll (sentFrame [cmdDataByte] (levelsFrom 0 1 s)) (afterSamples 1 s)) (by
      refine ⟨fun i hi => ?_, ?_⟩
      · have := h.1 (1 + i) (by omega)
        simpa using this
      · have := h.2
        rw [Nat.add_comm] at this
        simpa using this) (by simpa using hj)
  simp only [List.length_singleton] at e1
  simp only [writeDigits, if_neg (Nat.not_le.mpr ha), e1, e2]
  simp [emitAll_append, emitAll_afterSamples, afterSamples_afterSamples]

/-- A frame completes, or is abandoned at its first nak. -/
theorem allAck_or_firstNak (n : Nat) (s : State) : AllAck n s ∨ ∃ j, j < n ∧ FirstNak j s := by
  induction n with
  | zero => exact .inl fun i hi => absurd hi (by omega)
  | succ n ih =>
    rcases ih with h | ⟨j, hj, h⟩
    · by_cases hn : oracleAt n s = s.cfg.ackLevel
      · refine .inl fun i hi => ?_
        rcases Nat.lt_succ_iff_lt_or_eq.mp hi with h1 | rfl
        · exact h i h1
        · exact hn
      · exact .inr ⟨n, by omega, h, hn⟩
    · exact .inr ⟨j, by omega, h⟩

end Sys2Proof.Machine
end

