-- ==== Sys2Proof/Laws/Lines.lean ====
section
/-! SUPPORT. Laws/Lines.lean: the lines after each part of an operation (10_state.md R36). -/

namespace Sys2Proof.Machine

/-- The bits of a byte, written out. -/
theorem byteActions_eq (x : Byte) :
    byteActions x = bitActions (x.getLsbD 0) ++ bitActions (x.getLsbD 1) ++ bitActions (x.getLsbD 2) ++
      bitActions (x.getLsbD 3) ++ bitActions (x.getLsbD 4) ++ bitActions (x.getLsbD 5) ++
      bitActions (x.getLsbD 6) ++ bitActions (x.getLsbD 7) := rfl

/-- After a byte and its acknowledgment phase: clock low, data driven to bit 7. -/
theorem driveAll_sentByte (x : Byte) (l : Level) (ln : Lines) : ln.driveAll (sentByte x l) = linesAfterNak x ln := by
  simp [sentByte, byteActions_eq, bitActions, ackOpen, ackClose, Lines.drive, linesAfterNak]

/-- After START: clock high, data driven low. -/
theorem driveAll_start (ln : Lines) :
    ln.driveAll startActions = { ln with twClk := true, twDioOut := false, twDioDir := .out } := rfl

/-- After the bytes of a frame: those of the last byte. -/
theorem driveAll_sentBytes (xs : List Byte) (ls : List Level) (hl : xs.length = ls.length) (x : Byte)
    (hx : xs.getLast? = some x) (ln : Lines) : ln.driveAll (sentBytes xs ls) = linesAfterNak x ln := by
  induction xs generalizing ls ln with
  | nil => simp at hx
  | cons y ys ih =>
    cases ls with
    | nil => simp at hl
    | cons l ls =>
      rw [sentBytes_cons, driveAll_append, driveAll_sentByte]
      cases ys with
      | nil =>
        obtain rfl : y = x := by simpa using hx
        rfl
      | cons z zs =>
        rw [ih ls (by simpa using hl) (by simpa using hx)]
        rfl

/-- After an abandoned frame (R36 (d)). -/
theorem driveAll_brokenFrame (xs : List Byte) (ls : List Level) (hl : xs.length = ls.length) (x : Byte)
    (hx : xs.getLast? = some x) (ln : Lines) : ln.driveAll (brokenFrame xs ls) = linesAfterNak x ln := by
  rw [brokenFrame, driveAll_append, driveAll_start, driveAll_sentBytes xs ls hl x hx]
  rfl

/-- After STOP from lines whose data line is driven (R36 (c)). -/
theorem driveAll_stop (ln : Lines) (h : ln.twDioDir = .out) :
    ln.driveAll (stopActions ++ [.wait .tBurst]) = linesAfterStop ln := by
  simp [stopActions, Lines.drive, linesAfterStop, h]

/-- After a complete frame (R36 (c)). -/
theorem driveAll_sentFrame (xs : List Byte) (ls : List Level) (hl : xs.length = ls.length) (ln : Lines) :
    ln.driveAll (sentFrame xs ls) = linesAfterStop ln := by
  have e : sentFrame xs ls = startActions ++ (sentBytes xs ls ++ (stopActions ++ [.wait .tBurst])) := by
    simp [sentFrame]
  rw [e, driveAll_append, driveAll_append]
  rcases List.eq_nil_or_concat xs with rfl | ⟨ys, y, rfl⟩
  · rw [driveAll_stop] <;> rfl
  · rw [driveAll_sentBytes _ ls hl y (by simp), driveAll_start, driveAll_stop] <;> rfl

/-- The bits of a shift-register word, in the order they are sent: bit 15 first. -/
theorem srBits_eq : (List.range 16).reverse = [15, 14, 13, 12, 11, 10, 9, 8, 7, 6, 5, 4, 3, 2, 1, 0] := by decide

/-- After SR_XFER: SR_DIN holds bit 0, the clock is low, the latch high. -/
theorem driveAll_srXfer (a v : Byte) (ln : Lines) :
    ln.driveAll (srXferActions a v) = { ln with srDin := v.getLsbD 0, srClk := false, srLoad := true } := by
  have h : (srWordOf a v).getLsbD 0 = v.getLsbD 0 := by simp [srWordOf]
  simp only [srXferActions, srBits_eq, List.flatMap_cons, List.flatMap_nil, srBitActions, driveAll_append,
    driveAll_cons, driveAll_nil, Lines.drive, h]

end Sys2Proof.Machine
end

