-- ==== Sys2Proof/Laws/Chips.lean ====
section
/-! SUPPORT. Laws/Chips.lean: what the actions of one port leave alone in the attached devices. -/

namespace Sys2Proof.Machine

/-- An action of the two-wire port other than a lifecycle hook. -/
def Action.isTw : Action → Bool
  | .dioOut => true
  | .dioIn => true
  | .dio _ => true
  | .clk _ => true
  | .sample _ => true
  | .wait _ => true
  | .pInit => false
  | .pDeinit => false
  | .srCfg _ => false
  | .srClk _ => false
  | .srDin _ => false
  | .srLoad _ => false

/-- An action of the shift-register port. -/
def Action.isSr : Action → Bool
  | .srCfg _ => true
  | .srClk _ => true
  | .srDin _ => true
  | .srLoad _ => true
  | .dioOut => false
  | .dioIn => false
  | .dio _ => false
  | .clk _ => false
  | .sample _ => false
  | .wait _ => false
  | .pInit => false
  | .pDeinit => false

theorem OnlyTwChip.refl (d : Devices) : OnlyTwChip d d := ⟨rfl, rfl⟩

theorem OnlyTwChip.trans {d e f : Devices} (h : OnlyTwChip d e) (h' : OnlyTwChip e f) : OnlyTwChip d f :=
  ⟨h'.1.trans h.1, h'.2.trans h.2⟩

theorem OnlySrChip.trans {d e f : Devices} (h : OnlySrChip d e) (h' : OnlySrChip e f) : OnlySrChip d f :=
  ⟨h'.1.trans h.1, h'.2.trans h.2⟩

theorem twUnspecified_onlyTw (d : Devices) : OnlyTwChip d d.twUnspecified := ⟨rfl, rfl⟩

theorem takeByte_onlyTw (b : Byte) (d : Devices) : OnlyTwChip d (d.takeByte b) := by
  unfold Devices.takeByte
  split
  · exact ⟨rfl, rfl⟩
  · unfold Devices.takeCmdAddr; split_ifs <;> exact ⟨rfl, rfl⟩
  · exact ⟨rfl, rfl⟩
  · unfold Devices.takeData; split_ifs <;> exact ⟨rfl, rfl⟩
  · exact ⟨rfl, rfl⟩

/-- Whatever the two-wire chip takes, PTR stays 0..6 (43_attached_devices.md, section 1). -/
theorem freePtr_le (n : Nat) : Config.freePtr n % 7 ≤ 6 := by omega

theorem takeCmdAddr_ptr (a : Nat) (d : Devices) : (d.takeCmdAddr a).tw.ptr ≤ 6 := by
  unfold Devices.takeCmdAddr
  split_ifs with h
  · simp only [Devices.expect, twDigits] at h ⊢; omega
  · exact freePtr_le _

theorem takeData_ptr (p : Byte) (d : Devices) : (d.takeData p).tw.ptr ≤ 6 := by
  unfold Devices.takeData
  split_ifs with h
  · exact freePtr_le _
  · simp only [Devices.expect, twDigits] at h ⊢; omega

theorem takeByte_ptr (b : Byte) (d : Devices) (h : d.tw.ptr ≤ 6) : (d.takeByte b).tw.ptr ≤ 6 := by
  unfold Devices.takeByte
  split
  · exact h
  · exact takeCmdAddr_ptr _ _
  · exact h
  · exact takeData_ptr _ _
  · exact freePtr_le _

theorem takeByte_count (b : Byte) (d : Devices) : (d.takeByte b).tw.rx.count = d.tw.rx.count := by
  unfold Devices.takeByte
  split
  · rfl
  · unfold Devices.takeCmdAddr; split_ifs <;> rfl
  · rfl
  · unfold Devices.takeData; split_ifs <;> rfl
  · rfl

theorem clockRises_onlyTw (dir : Dir) (l : Level) (d : Devices) : OnlyTwChip d (d.clockRises dir l) := by
  unfold Devices.clockRises
  split_ifs
  · exact ⟨rfl, rfl⟩
  · cases dir <;> exact ⟨rfl, rfl⟩
  · exact ⟨rfl, rfl⟩
  · exact ⟨rfl, rfl⟩

theorem acknowledge_onlyTw (cfg : Config) (l : Level) (d : Devices) : OnlyTwChip d (d.acknowledge cfg l) := by
  unfold Devices.acknowledge
  split_ifs
  · exact takeByte_onlyTw _ _
  · exact takeByte_onlyTw _ ({ d with draws := d.draws + 1 } : Devices)
  · exact ⟨rfl, rfl⟩
  · exact ⟨rfl, rfl⟩

theorem twSees_onlyTw (cfg : Config) (ln : Lines) (a : Action) (d : Devices) :
    OnlyTwChip d (d.twSees cfg ln a) := by
  unfold Devices.twSees
  split
  · split_ifs <;> exact ⟨rfl, rfl⟩
  · split_ifs
    · exact clockRises_onlyTw _ _ _
    · exact ⟨rfl, rfl⟩
  · exact acknowledge_onlyTw _ _ _
  · exact ⟨rfl, rfl⟩

/-- An action of the two-wire port touches the two-wire chip alone. -/
theorem see_onlyTw (cfg : Config) (ln : Lines) (a : Action) (d : Devices) (h : a.isTw = true) :
    OnlyTwChip d (d.see cfg ln a) := by
  cases a <;> simp [Action.isTw] at h <;> unfold Devices.see <;> dsimp only
  all_goals first
    | exact ⟨rfl, rfl⟩
    | (split_ifs; exacts [twSees_onlyTw _ _ _ _, ⟨rfl, rfl⟩])

theorem srLatch_onlySr (base : Byte) (d : Devices) : OnlySrChip d (d.srLatch base) := by
  unfold Devices.srLatch
  split <;> exact ⟨rfl, rfl⟩

/-- An action of the shift-register port touches the shift-register chip alone. -/
theorem see_onlySr (cfg : Config) (ln : Lines) (a : Action) (d : Devices) (h : a.isSr = true) :
    OnlySrChip d (d.see cfg ln a) := by
  have hs : OnlySrChip d (d.srSees cfg ln a) := by
    unfold Devices.srSees
    split
    · split_ifs <;> exact ⟨rfl, rfl⟩
    · split_ifs
      · exact srLatch_onlySr _ _
      · exact ⟨rfl, rfl⟩
    · exact ⟨rfl, rfl⟩
  cases a <;> simp [Action.isSr] at h <;> unfold Devices.see <;> dsimp only
  all_goals first
    | exact ⟨rfl, rfl⟩
    | (split_ifs; exacts [hs, ⟨rfl, rfl⟩])

/-- A list of two-wire actions touches the two-wire chip alone. -/
theorem seeAll_onlyTw (cfg : Config) (ln : Lines) (as : List Action) (d : Devices) (h : as.all Action.isTw = true) :
    OnlyTwChip d (d.seeAll cfg ln as) := by
  induction as generalizing ln d with
  | nil => exact ⟨rfl, rfl⟩
  | cons a as ih =>
    rw [List.all_cons, Bool.and_eq_true] at h
    exact (see_onlyTw cfg ln a d h.1).trans (ih _ _ h.2)

/-- A list of shift-register actions touches the shift-register chip alone. -/
theorem seeAll_onlySr (cfg : Config) (ln : Lines) (as : List Action) (d : Devices) (h : as.all Action.isSr = true) :
    OnlySrChip d (d.seeAll cfg ln as) := by
  induction as generalizing ln d with
  | nil => exact ⟨rfl, rfl⟩
  | cons a as ih =>
    rw [List.all_cons, Bool.and_eq_true] at h
    exact (see_onlySr cfg ln a d h.1).trans (ih _ _ h.2)

theorem isTw_sentBytes (xs : List Byte) (ls : List Level) : (sentBytes xs ls).all Action.isTw = true := by
  induction xs generalizing ls with
  | nil => rfl
  | cons x xs ih =>
    cases ls with
    | nil => rfl
    | cons l ls => rw [sentBytes_cons, List.all_append, ih]; rfl

theorem isTw_sentFrame (xs : List Byte) (ls : List Level) : (sentFrame xs ls).all Action.isTw = true := by
  simp only [sentFrame, List.all_append, isTw_sentBytes]; rfl

theorem isTw_brokenFrame (xs : List Byte) (ls : List Level) : (brokenFrame xs ls).all Action.isTw = true := by
  simp only [brokenFrame, List.all_append, isTw_sentBytes]; rfl

theorem isSr_srXfer (a v : Byte) : (srXferActions a v).all Action.isSr = true := rfl

end Sys2Proof.Machine
end

