-- ==== Sys2Proof/Laws/ShiftRegister.lean ====
section
/-! SUPPORT. Laws/ShiftRegister.lean: the register writes of the shift-register engine as one emission. -/

namespace Sys2Proof.Machine

/-- A sequence of register writes is the emission of their actions. -/
theorem srWriteFrom_eq (p : Nat) (codes : List Byte) (s : State) :
    srWriteFrom p codes s = emitAll (srWriteActions s.cfg p codes) s := by
  induction codes generalizing p s with
  | nil => rfl
  | cons c rest ih => simp [srWriteFrom, ih, srXfer, srWriteActions, emitAll_append]

@[simp] theorem sentWords_nil : sentWords [] = [] := rfl
@[simp] theorem sentWords_cons (w : Byte × Byte) (ws : List (Byte × Byte)) :
    sentWords (w :: ws) = srXferActions w.1 w.2 ++ sentWords ws := rfl

/-- The writes of four codes from position 0 on, as words (42_shift_register_engine.md R184, R186). -/
theorem srWriteActions_four (cfg : Config) (f : Nat → Byte) :
    srWriteActions cfg 0 ((List.range srDigits).map f) =
      sentWords ((List.range 4).map fun p => (cfg.digitRegBase + BitVec.ofNat 8 p, f p)) := by
  have h : List.range 4 = [0, 1, 2, 3] := by decide
  simp [srDigits, h, srWriteActions, digitAddr]

theorem blankCodes_eq (cfg : Config) : blankCodes cfg = (List.range srDigits).map fun _ => cfg.blankCode := rfl

theorem isSr_sentWords (ws : List (Byte × Byte)) : (sentWords ws).all Action.isSr = true := by
  induction ws with
  | nil => rfl
  | cons w ws ih => rw [sentWords_cons, List.all_append, isSr_srXfer, ih]; rfl

/-- After a sequence of words: SR_DIN holds bit 0 of the last value, the clock is low, the latch high. -/
theorem driveAll_sentWords (ws : List (Byte × Byte)) (w : Byte × Byte) (ln : Lines) :
    ln.driveAll (sentWords (ws ++ [w])) = { ln with srDin := w.2.getLsbD 0, srClk := false, srLoad := true } := by
  induction ws generalizing ln with
  | nil => rw [List.nil_append, sentWords_cons, sentWords_nil, List.append_nil, driveAll_srXfer]
  | cons v ws ih => rw [List.cons_append, sentWords_cons, driveAll_append, driveAll_srXfer, ih]

end Sys2Proof.Machine
end

