-- ==== Sys2Proof/Laws/Vectors.lean ====
section
/-! SUPPORT. Laws/Vectors.lean: a register file read after a write. -/

namespace Sys2Proof

/-- Reading entry `j` after writing entry `i`. -/
theorem getD_setIfInBounds {α : Type} {n : Nat} (v : Vector α n) (i j : Nat) (x d : α) :
    (v.setIfInBounds i x).getD j d = if j = i ∧ i < n then x else v.getD j d := by
  by_cases h : i = j
  · subst h
    by_cases hi : i < n <;> simp [Vector.getD, Array.getD_eq_getD_getElem?, hi]
  · have : ¬ (j = i ∧ i < n) := fun a => h a.1.symm
    simp [Vector.getD, Array.getD_eq_getD_getElem?, h, this]

end Sys2Proof
end

