-- ==== Sys2Proof/Laws/ChipFrames.lean ====
section
/-! SUPPORT. Laws/ChipFrames.lean: what the attached chips take from the wires when the engine sends a byte, a frame
or a word (43_attached_devices.md R221, R230). -/

namespace Sys2Proof.Machine

/-- The devices with another receiver state. -/
def Devices.setRx (rx : TwReceiver) (d : Devices) : Devices := { d with tw := { d.tw with rx := rx } }

@[simp] theorem setRx_platformUp (rx : TwReceiver) (d : Devices) : (d.setRx rx).platformUp = d.platformUp := rfl
@[simp] theorem setRx_sr (rx : TwReceiver) (d : Devices) : (d.setRx rx).sr = d.sr := rfl
@[simp] theorem setRx_draws (rx : TwReceiver) (d : Devices) : (d.setRx rx).draws = d.draws := rfl
@[simp] theorem setRx_rx (rx : TwReceiver) (d : Devices) : (d.setRx rx).tw.rx = rx := rfl
@[simp] theorem setRx_setRx (rx ry : TwReceiver) (d : Devices) : (d.setRx rx).setRx ry = d.setRx ry := rfl
theorem setRx_self (d : Devices) : d.setRx d.tw.rx = d := rfl

/-- The two-wire chip through wires that carry what the engine drives. -/
def Devices.twSeesAll (cfg : Config) (ln : Lines) (as : List Action) (d : Devices) : Devices :=
  match as with
  | [] => d
  | a :: rest => (d.twSees cfg ln a).twSeesAll cfg (ln.drive a) rest

@[simp] theorem twSeesAll_nil (cfg : Config) (ln : Lines) (d : Devices) : d.twSeesAll cfg ln [] = d := rfl
@[simp] theorem twSeesAll_cons (cfg : Config) (ln : Lines) (a : Action) (as : List Action) (d : Devices) :
    d.twSeesAll cfg ln (a :: as) = (d.twSees cfg ln a).twSeesAll cfg (ln.drive a) as := rfl
@[simp] theorem twSeesAll_append (cfg : Config) (ln : Lines) (as bs : List Action) (d : Devices) :
    d.twSeesAll cfg ln (as ++ bs) = (d.twSeesAll cfg ln as).twSeesAll cfg (ln.driveAll as) bs := by
  induction as generalizing ln d with
  | nil => rfl
  | cons a as ih => simp [ih]

theorem twWired_of_onlyTw (cfg : Config) {d e : Devices} (h : OnlyTwChip d e) : e.twWired cfg = d.twWired cfg := by
  simp [Devices.twWired, h.2]

/-- With the wires up, what the devices see of two-wire actions is what the chip sees. -/
theorem seeAll_eq_twSeesAll (cfg : Config) (ln : Lines) (as : List Action) (d : Devices)
    (hw : d.twWired cfg = true) (h : as.all Action.isTw = true) : d.seeAll cfg ln as = d.twSeesAll cfg ln as := by
  induction as generalizing ln d with
  | nil => rfl
  | cons a as ih =>
    rw [List.all_cons, Bool.and_eq_true] at h
    have e : d.see cfg ln a = d.twSees cfg ln a := by
      have ha := h.1
      cases a <;> simp [Action.isTw] at ha <;> simp [Devices.see, hw, Devices.twSees]
    rw [seeAll_cons, twSeesAll_cons, e, ih _ _ ?_ h.2]
    rw [twWired_of_onlyTw cfg (twSees_onlyTw cfg ln a d), hw]

/-- One bit sent with the data line driven is one bit taken. -/
theorem twSeesAll_bit (cfg : Config) (ln : Lines) (b : Level) (d : Devices)
    (ho : ln.twDioDir = .out) (ha : d.tw.rx.active = true) (hc : d.tw.rx.count < 8) :
    d.twSeesAll cfg ln (bitActions b) = d.takeBit b := by
  simp [bitActions, Devices.twSees, Lines.drive, ho, Devices.clockRises, ha, hc]

/-- The lines after one bit. -/
theorem driveAll_bit (b : Level) (ln : Lines) :
    ln.driveAll (bitActions b) = { ln with twClk := true, twDioOut := b } := rfl

/-- One bit shifted into a byte, least significant first. -/
def shiftBit (x y : Byte) (i : Nat) : Byte := y >>> 1 ||| (BitVec.ofBool (x.getLsbD i)).setWidth 8 <<< 7

/-- Eight bits shifted in, bit 0 first, are the byte. -/
theorem shiftBit_eight (x y : Byte) : (List.range 8).foldl (shiftBit x) y = x := by
  have h : List.range 8 = [0, 1, 2, 3, 4, 5, 6, 7] := by decide
  apply BitVec.eq_of_getLsbD_eq
  intro i hi
  interval_cases i <;> simp [h, shiftBit]

/-- Bits sent one after another, from the `k`-th of a byte on. -/
theorem twSeesAll_bits (cfg : Config) (x : Byte) (is : List Nat) (k : Nat) (ln : Lines) (d : Devices)
    (ho : ln.twDioDir = .out) (ha : d.tw.rx.active = true) (hk : d.tw.rx.count = k) (hle : k + is.length ≤ 8) :
    d.twSeesAll cfg ln (is.flatMap fun i => bitActions (x.getLsbD i)) =
      d.setRx { d.tw.rx with count := k + is.length, shift := is.foldl (shiftBit x) d.tw.rx.shift } := by
  induction is generalizing k ln d with
  | nil => subst hk; rfl
  | cons i is ih =>
    have hle' : k + 1 + is.length ≤ 8 := by simp at hle; omega
    rw [List.flatMap_cons, twSeesAll_append, twSeesAll_bit cfg ln _ d ho ha (by omega), driveAll_bit]
    rw [ih (k + 1) { ln with twClk := true, twDioOut := x.getLsbD i } (d.takeBit (x.getLsbD i)) ho ha
      (by simp [Devices.takeBit, hk]) hle']
    simp [Devices.takeBit, Devices.setRx, shiftBit, Nat.add_comm, Nat.add_left_comm]

/-- The bits of a byte, sent from the start of a byte, leave the byte in the receiver. -/
theorem twSeesAll_byte (cfg : Config) (ln : Lines) (x : Byte) (d : Devices)
    (ho : ln.twDioDir = .out) (ha : d.tw.rx.active = true) (hc : d.tw.rx.count = 0) :
    d.twSeesAll cfg ln (byteActions x) = d.setRx { d.tw.rx with count := 8, shift := x } := by
  rw [byteActions, twSeesAll_bits cfg x (List.range 8) 0 ln d ho ha hc (by simp), shiftBit_eight]
  simp

/-- The lines after the bits of a byte. -/
theorem driveAll_byte (x : Byte) (ln : Lines) :
    ln.driveAll (byteActions x) = { ln with twClk := true, twDioOut := x.getLsbD 7 } := by
  simp [byteActions_eq, bitActions, Lines.drive]

/-- A byte sent with the data line driven and acknowledged is taken at its position, and the receiver is ready for
the next one. -/
theorem twSeesAll_sentByte (cfg : Config) (ln : Lines) (x : Byte) (d : Devices)
    (ho : ln.twDioDir = .out) (ha : d.tw.rx.active = true) (hc : d.tw.rx.count = 0) :
    d.twSeesAll cfg ln (sentByte x cfg.ackLevel) =
      ((d.setRx { d.tw.rx with count := 9, shift := x }).takeByte x).nextByte := by
  rw [sentByte, twSeesAll_append, twSeesAll_append, twSeesAll_append, twSeesAll_byte cfg ln x d ho ha hc,
    driveAll_byte]
  simp [ackOpen, ackClose, Lines.drive, Devices.twSees, Devices.clockRises, ha, Devices.setRx, Devices.acknowledge]

theorem frameStart_clockRises (l : Level) (d : Devices) : (d.clockRises .out l).frameStart = d.frameStart := by
  unfold Devices.clockRises; split_ifs <;> rfl

/-- START opens a frame, whatever the lines were. -/
theorem twSeesAll_start (cfg : Config) (ln : Lines) (d : Devices) :
    d.twSeesAll cfg ln startActions = d.frameStart := by
  cases h1 : ln.twClk <;> cases h2 : ln.twDioOut <;>
    simp [startActions, Devices.twSees, Lines.drive, h1, h2, frameStart_clockRises]
  rfl

/-- STOP closes the frame; only the receiver changes. -/
theorem twSeesAll_stop (cfg : Config) (ln : Lines) (d : Devices) (ho : ln.twDioDir = .out) (hc : d.tw.rx.count = 0) :
    ∃ rx, d.twSeesAll cfg ln (stopActions ++ [.wait .tBurst]) = d.setRx rx := by
  cases ha : d.tw.rx.active
  · refine ⟨{ d.tw.rx with active := false }, ?_⟩
    simp [stopActions, Devices.twSees, Lines.drive, ho, Devices.clockRises, ha, Devices.frameStop, Devices.setRx]
  · refine ⟨(d.takeBit false).frameStop.tw.rx, ?_⟩
    simp [stopActions, Devices.twSees, Lines.drive, ho, Devices.clockRises, ha, hc, Devices.frameStop, Devices.setRx,
      Devices.takeBit]

/-- The two-wire chip after a byte that it acknowledged. -/
def Devices.afterByte (x : Byte) (d : Devices) : Devices :=
  ((d.setRx { d.tw.rx with count := 9, shift := x }).takeByte x).nextByte

theorem takeByte_active (x : Byte) (d : Devices) : (d.takeByte x).tw.rx.active = d.tw.rx.active := by
  unfold Devices.takeByte
  split
  · rfl
  · unfold Devices.takeCmdAddr; split_ifs <;> rfl
  · rfl
  · unfold Devices.takeData; split_ifs <;> rfl
  · rfl

theorem afterByte_active (x : Byte) (d : Devices) : (d.afterByte x).tw.rx.active = d.tw.rx.active := by
  simp [Devices.afterByte, Devices.nextByte, takeByte_active]

theorem afterByte_count (x : Byte) (d : Devices) : (d.afterByte x).tw.rx.count = 0 := rfl

/-- Acknowledged bytes of a frame are taken one after another. -/
theorem twSeesAll_sentBytes (cfg : Config) (xs : List Byte) (ln : Lines) (d : Devices)
    (ho : ln.twDioDir = .out) (ha : d.tw.rx.active = true) (hc : d.tw.rx.count = 0) :
    d.twSeesAll cfg ln (sentBytes xs (List.replicate xs.length cfg.ackLevel)) =
      xs.foldl (fun e x => e.afterByte x) d := by
  induction xs generalizing ln d with
  | nil => rfl
  | cons x xs ih =>
    rw [List.length_cons, List.replicate_succ, sentBytes_cons, twSeesAll_append, twSeesAll_sentByte cfg ln x d ho ha hc,
      driveAll_sentByte, ← Devices.afterByte, ih _ _ rfl (by rw [afterByte_active, ha]) (afterByte_count _ _)]
    rfl

theorem foldl_afterByte_active (xs : List Byte) (d : Devices) :
   (xs.foldl (fun e x => e.afterByte x) d).tw.rx.active = d.tw.rx.active := by
  induction xs generalizing d with
  | nil => rfl
  | cons x xs ih => rw [List.foldl_cons, ih, afterByte_active]

theorem foldl_afterByte_count (xs : List Byte) (d : Devices) (h : d.tw.rx.count = 0) :
   (xs.foldl (fun e x => e.afterByte x) d).tw.rx.count = 0 := by
  induction xs generalizing d with
  | nil => exact h
  | cons x xs ih => rw [List.foldl_cons, ih]; rfl

/-- An acknowledged frame is its bytes taken one after another; the receiver alone differs. -/
theorem twSeesAll_sentFrame (cfg : Config) (xs : List Byte) (ln : Lines) (d : Devices) :
    ∃ rx, d.twSeesAll cfg ln (sentFrame xs (List.replicate xs.length cfg.ackLevel)) =
      (xs.foldl (fun e x => e.afterByte x) d.frameStart).setRx rx := by
  have e : sentFrame xs (List.replicate xs.length cfg.ackLevel) =
    startActions ++ (sentBytes xs (List.replicate xs.length cfg.ackLevel) ++ (stopActions ++ [.wait .tBurst])) := by
    simp [sentFrame]
  rw [e, twSeesAll_append, twSeesAll_append, twSeesAll_start, driveAll_start,
    twSeesAll_sentBytes cfg xs _ _ rfl rfl rfl]
  refine twSeesAll_stop cfg _ _ ?_ (foldl_afterByte_count xs _ rfl)
  rcases List.eq_nil_or_concat xs with rfl | ⟨ys, y, rfl⟩
  · rfl
  · rw [driveAll_sentBytes _ _ (by simp) y (by simp)]; rfl

/-- A digit frame's data bytes land in consecutive digit registers (43_attached_devices.md R224). -/
theorem foldl_afterByte_data (pat : Nat → Byte) (n : Nat) (d : Devices) (hp : d.tw.rx.pos = .afterAddr)
    (hi : d.tw.autoInc = true) (hn : d.tw.ptr + n ≤ twDigits) :
    ∃ e, ((List.range n).map pat).foldl (fun e x => e.afterByte x) d = e ∧
      (∀ i, i < n → e.tw.dreg.getD (d.tw.ptr + i) 0 = pat i) ∧
      (∀ k, k < d.tw.ptr ∨ d.tw.ptr + n ≤ k → e.tw.dreg.getD k 0 = d.tw.dreg.getD k 0) ∧
      e.tw.rx.pos = .afterAddr ∧ e.tw.autoInc = true ∧ e.tw.ptr = d.tw.ptr + n ∧ e.tw.bri = d.tw.bri ∧
      e.tw.on = d.tw.on := by
  induction n with
  | zero => exact ⟨d, rfl, by simp, by simp, hp, hi, rfl, rfl, rfl⟩
  | succ n ih =>
    obtain ⟨e, he, h1, h2, h3, h4, h5, h6, h7⟩ := ih (by omega)
    have hc : ¬ (twDigits ≤ e.tw.ptr ∨ e.tw.autoInc = false) := by
      rw [h4, h5]; simp; omega
    have hb : e.afterByte (pat n) = (((e.setRx { e.tw.rx with count := 9, shift := pat n }).takeData (pat n))).nextByte := by
      simp only [Devices.afterByte, Devices.takeByte, setRx_rx, h3, decodeTw]
    refine ⟨_, rfl, ?_⟩
    rw [List.range_succ, List.map_append, List.foldl_append, he]
    simp only [List.map_cons, List.map_nil, List.foldl_cons, List.foldl_nil, hb]
    have hc' := hc
    rw [h4, h5] at hc'
    simp only [Devices.takeData, Devices.setRx, Devices.nextByte, Devices.expect, if_neg hc', h4, h5]
    refine ⟨fun i hi => ?_, fun k hk => ?_, trivial, trivial, by omega, h6, h7⟩
    · rw [getD_setIfInBounds]
      by_cases hin : i = n
      · subst hin; simp [twDigits] at hn ⊢; omega
      · rw [if_neg (by omega), h1 i (by omega)]
    · rw [getD_setIfInBounds, if_neg (by omega), h2 k (by omega)]

theorem decode_cmdAddrByte (a : Nat) (h : a < 8) : decodeTw .first (cmdAddrByte a) = .ok (.cmdAddr a) := by
  interval_cases a <;> rfl

/-! ## The shift-register chip -/

/-- A register write writes that register, NOOP none (43_attached_devices.md R231 to R234). -/
theorem srWrite_read (r : SrReg) (v : Byte) (c : SrChip) :
    (c.write r v).shift = c.shift ∧ (r ≠ .noop → (c.write r v).read r = v) ∧
    (∀ q, q ≠ r ∨ q = .noop → (c.write r v).read q = c.read q) := by
  refine ⟨by cases r <;> rfl, ?_, ?_⟩
  · cases r <;> simp [SrChip.read, SrChip.write]
  · intro q hq
    cases r <;> cases q <;> simp_all [SrChip.read, SrChip.write]
    rw [Vector.getElem_set_ne]; intro h; apply hq; exact Fin.ext h.symm

/-- The shift-register chip with another SHIFT. -/
def Devices.setSrShift (w : BitVec 16) (d : Devices) : Devices := { d with sr := { d.sr with shift := w } }

@[simp] theorem setSrShift_shift (w : BitVec 16) (d : Devices) : (d.setSrShift w).sr.shift = w := rfl
@[simp] theorem setSrShift_setSrShift (w v : BitVec 16) (d : Devices) :
    (d.setSrShift w).setSrShift v = d.setSrShift v := rfl

/-- One bit of a word shifted into SHIFT (R230). -/
def srShiftBit (x y : BitVec 16) (i : Nat) : BitVec 16 := y <<< 1 ||| (BitVec.ofBool (x.getLsbD i)).setWidth 16

/-- Sixteen bits shifted in, bit 15 first, are the word. -/
theorem srShiftBit_sixteen (x y : BitVec 16) : (List.range 16).reverse.foldl (srShiftBit x) y = x := by
  apply BitVec.eq_of_getLsbD_eq
  intro i hi
  rw [srBits_eq]
  interval_cases i <;> simp [srShiftBit]

/-- Bits of a word sent one after another with the shift clock low before. -/
theorem seeAll_srBits (cfg : Config) (x : BitVec 16) (is : List Nat) (ln : Lines) (d : Devices)
    (hw : srWired cfg ln = true) (hc : ln.srClk = false) :
    d.seeAll cfg ln (is.flatMap fun i => srBitActions (x.getLsbD i)) =
      d.setSrShift (is.foldl (srShiftBit x) d.sr.shift) := by
  induction is generalizing ln d with
  | nil => rfl
  | cons i is ih =>
    have hb : d.seeAll cfg ln (srBitActions (x.getLsbD i)) = d.setSrShift (srShiftBit x d.sr.shift i) := by
      have hw' : (ln.srCfg.isSome || cfg.wire == .always) = true := hw
      simp [srBitActions, Devices.see, Devices.srSees, srWired, hw', Lines.drive, hc, Devices.srShift,
        Devices.setSrShift, srShiftBit]
    rw [List.flatMap_cons, seeAll_append, hb, ih (ln.driveAll (srBitActions (x.getLsbD i))) _ hw rfl]
    rfl

/-- Bits leave the configuration and the latch as they were. -/
theorem driveAll_srBits (x : BitVec 16) (is : List Nat) (ln : Lines) :
    (ln.driveAll (is.flatMap fun i => srBitActions (x.getLsbD i))).srCfg = ln.srCfg := by
  induction is generalizing ln with
  | nil => rfl
  | cons i is ih => rw [List.flatMap_cons, driveAll_append, ih]; rfl

/-- A word sent with the shift clock low before is in SHIFT, and then committed. -/
theorem seeAll_srXfer (cfg : Config) (ln : Lines) (a v : Byte) (d : Devices) (hw : srWired cfg ln = true)
    (hc : ln.srClk = false) :
    d.seeAll cfg ln (srXferActions a v) = (d.setSrShift (srWordOf a v)).srLatch cfg.digitRegBase := by
  have hw2 : ∀ l : Lines, l.srCfg = ln.srCfg → srWired cfg l = true := by
    intro l h; rw [← hw]; simp only [srWired, h]
  rw [srXferActions, seeAll_append, seeAll_srBits cfg (srWordOf a v) _ ln d hw hc, srShiftBit_sixteen]
  generalize hl : ln.driveAll ((List.range 16).reverse.flatMap fun i => srBitActions ((srWordOf a v).getLsbD i)) = l
  have hcfg : l.srCfg = ln.srCfg := by rw [← hl]; exact driveAll_srBits _ _ _
  have h2 : srWired cfg (l.drive (.srLoad false)) = true := hw2 _ hcfg
  rw [seeAll_cons, seeAll_cons, seeAll_nil]
  simp only [Devices.see, hw2 l hcfg, h2, if_true, Devices.srSees]
  rfl

end Sys2Proof.Machine
end

