-- ==== Sys2Proof/Laws/Counts.lean ====
section
/-! SUPPORT. Laws/Counts.lean: the actions and waits of the parts of a frame and of a word
(70_reset_and_hazards.md R294). -/

namespace Sys2Proof.Machine

/-- Actions and waits of a list. -/
def Tally (as : List Action) (n b u : Nat) : Prop :=
  as.length = n ∧ as.count (.wait .tBit) = b ∧ as.count (.wait .tBurst) = u

theorem Tally.append {as bs : List Action} {n b u n' b' u' : Nat} (h : Tally as n b u) (h' : Tally bs n' b' u') :
    Tally (as ++ bs) (n + n') (b + b') (u + u') := by
  obtain ⟨h1, h2, h3⟩ := h; obtain ⟨g1, g2, g3⟩ := h'
  exact ⟨by rw [List.length_append, h1, g1], by rw [List.count_append, h2, g2], by rw [List.count_append, h3, g3]⟩

theorem Tally.cast {as : List Action} {n b u n' b' u' : Nat} (h : Tally as n b u) (h1 : n = n') (h2 : b = b')
    (h3 : u = u') : Tally as n' b' u' := by subst h1 h2 h3; exact h

theorem tally_sentByte (x : Byte) (l : Level) : Tally (sentByte x l) 48 18 0 := by
  refine ⟨?_, ?_, ?_⟩ <;> simp [sentByte, byteActions_eq, bitActions, ackOpen, ackClose]

theorem tally_sentBytes (xs : List Byte) (ls : List Level) (h : xs.length = ls.length) :
    Tally (sentBytes xs ls) (48 * xs.length) (18 * xs.length) 0 := by
  induction xs generalizing ls with
  | nil => exact ⟨rfl, rfl, rfl⟩
  | cons x xs ih =>
    cases ls with
    | nil => simp at h
    | cons l ls =>
      have := (tally_sentByte x l).append (ih ls (by simpa using h))
      rw [sentBytes_cons]
      exact this.cast (by simp; ring) (by simp; ring) rfl

theorem tally_brokenFrame (xs : List Byte) (ls : List Level) (h : xs.length = ls.length) :
    Tally (brokenFrame xs ls) (6 + 48 * xs.length) (2 + 18 * xs.length) 0 := by
  have : Tally startActions 6 2 0 := ⟨rfl, rfl, rfl⟩
  exact this.append (tally_sentBytes xs ls h)

theorem tally_sentFrame (xs : List Byte) (ls : List Level) (h : xs.length = ls.length) :
    Tally (sentFrame xs ls) (15 + 48 * xs.length) (6 + 18 * xs.length) 1 := by
  have h1 : Tally stopActions 8 4 0 := ⟨rfl, rfl, rfl⟩
  have h2 : Tally [.wait .tBurst] 1 0 1 := ⟨rfl, rfl, rfl⟩
  have := ((tally_brokenFrame xs ls h).append h1).append h2
  rw [sentFrame]
  exact this.cast (by ring) (by ring) rfl

theorem emits_emitAll (r : Result) (k : Nat) (acts : List Action) (s : State) (n b u : Nat)
    (h : Tally acts n b u) : Emits (.next (complete r (emitAll acts (afterSamples k s)))) s n b u :=
  ⟨_, acts, rfl, by rw [emitAll_eq]; rfl, h⟩

theorem emits_abandoned (r : Result) (k : Nat) (acts : List Action) (s : State) (n b u : Nat)
    (h : Tally acts n b u) : Emits (.next (complete r (abandonFrame (emitAll acts (afterSamples k s))))) s n b u :=
  ⟨_, acts, rfl, by rw [emitAll_eq]; rfl, h⟩

theorem exec_srWritereg (r v : Byte) (s : State) :
    exec (.srWritereg r v) s = .next (finish (emitAll (srXferActions r v) s)) := rfl

/-- A shift-register word is 50 actions and no wait. -/
theorem tally_srXfer (a v : Byte) : Tally (srXferActions a v) 50 0 0 := by
  have h := List.all_eq_true.1 (isSr_srXfer a v)
  refine ⟨rfl, ?_, ?_⟩ <;> refine List.count_eq_zero.2 fun hm => ?_ <;> simpa [Action.isSr] using h _ hm

end Sys2Proof.Machine
end

