-- ==== Sys2Proof/Laws/Decode.lean ====
section
/-! SUPPORT. Laws/Decode.lean: the fields of an encoded word are what was put in. -/

namespace Sys2Proof

theorem fieldOp_hostWord (op : BitVec 4) (f : Bool) (c a v : Byte) : fieldOp (hostWord op f c a v) = op := by
  apply BitVec.eq_of_getLsbD_eq; intro i hi
  interval_cases i <;> simp [fieldOp, hostWord]

theorem fieldRsv_hostWord (op : BitVec 4) (f : Bool) (c a v : Byte) : fieldRsv (hostWord op f c a v) = 0 := by
  apply BitVec.eq_of_getLsbD_eq; intro i hi
  interval_cases i <;> simp [fieldRsv, hostWord]

theorem fieldF_hostWord (op : BitVec 4) (f : Bool) (c a v : Byte) : fieldF (hostWord op f c a v) = f := by
  simp [fieldF, hostWord, BitVec.getElem_ofBool]

theorem fieldC_hostWord (op : BitVec 4) (f : Bool) (c a v : Byte) : fieldC (hostWord op f c a v) = c := by
  apply BitVec.eq_of_getLsbD_eq; intro i hi
  interval_cases i <;> simp [fieldC, hostWord, BitVec.getElem_ofBool]

theorem fieldA_hostWord (op : BitVec 4) (f : Bool) (c a v : Byte) : fieldA (hostWord op f c a v) = a := by
  apply BitVec.eq_of_getLsbD_eq; intro i hi
  interval_cases i <;> simp [fieldA, hostWord, BitVec.getElem_ofBool]

theorem fieldV_hostWord (op : BitVec 4) (f : Bool) (c a v : Byte) : fieldV (hostWord op f c a v) = v := by
  apply BitVec.eq_of_getLsbD_eq; intro i hi
  interval_cases i <;> simp [fieldV, hostWord, BitVec.getElem_ofBool]

/-- A command word as a sum of its fields (30_encoding.md R94). -/
theorem hostWord_eq_ofNat (op f c a v : Nat) (h1 : op < 16) (h2 : f ≤ 1) (h3 : c ≤ 255) (h4 : a ≤ 255) (h5 : v ≤ 255) :
    hostWord (BitVec.ofNat 4 op) (f == 1) (BitVec.ofNat 8 c) (BitVec.ofNat 8 a) (BitVec.ofNat 8 v)
     = BitVec.ofNat 32 (op * 2^28 + f * 2^24 + c * 2^16 + a * 2^8 + v) := by
  apply BitVec.eq_of_toNat_eq
  have e1 : op * 2^28 + f * 2^24 + c * 2^16 + a * 2^8 + v < 2^32 := by omega
  simp only [hostWord, BitVec.toNat_or, BitVec.toNat_shiftLeft, BitVec.toNat_setWidth, BitVec.toNat_ofNat]
  have hf : (BitVec.ofBool (f == 1)).toNat = f := by
    rcases Nat.le_one_iff_eq_zero_or_eq_one.1 h2 with rfl | rfl <;> rfl
  rw [hf]
  rw [Nat.mod_eq_of_lt e1]
  have m (x n : Nat) (h : x < 2 ^ n) : x % 2 ^ n = x := Nat.mod_eq_of_lt h
  have l (x n k : Nat) (h : x < 2 ^ n) (hk : n + k ≤ 32) : x <<< k % 2 ^ 32 = x * 2 ^ k := by
    rw [Nat.shiftLeft_eq]
    apply Nat.mod_eq_of_lt
    calc x * 2 ^ k < 2 ^ n * 2 ^ k := by exact Nat.mul_lt_mul_of_pos_right h (by positivity)
      _ = 2 ^ (n + k) := by rw [pow_add]
      _ ≤ 2 ^ 32 := Nat.pow_le_pow_right (by norm_num) hk
  rw [m op 4 (by omega), m op 32 (by omega), m f 32 (by omega), m c 8 (by omega), m c 32 (by omega), m a 8 (by omega),
    m a 32 (by omega), m v 8 (by omega), m v 32 (by omega), l op 4 28 (by omega) (by omega), l f 1 24 (by omega) (by omega),
    l c 8 16 (by omega) (by omega), l a 8 8 (by omega) (by omega)]
  have o (k x y : Nat) (h : y < 2 ^ k) : x * 2 ^ k ||| y = x * 2 ^ k + y := by
    rw [Nat.mul_comm, ← Nat.two_pow_add_eq_or_of_lt h]
  have b1 : f * 2^24 < 2^28 := by linarith
  have b2 : c * 2^16 < 2^24 := by linarith
  have b3 : a * 2^8 < 2^16 := by linarith
  have e1 := o 28 op (f * 2^24) b1
  have e2 := o 24 (op * 2^4 + f) (c * 2^16) b2
  have e3 := o 16 (op * 2^12 + f * 2^8 + c) (a * 2^8) b3
  have e4 := o 8 (op * 2^20 + f * 2^16 + c * 2^8 + a) v (by omega)
  rw [e1, show op * 2^28 + f * 2^24 = (op * 2^4 + f) * 2^24 by omega, e2,
    show (op * 2^4 + f) * 2^24 + c * 2^16 = (op * 2^12 + f * 2^8 + c) * 2^16 by omega, e3,
    show (op * 2^12 + f * 2^8 + c) * 2^16 + a * 2^8 = (op * 2^20 + f * 2^16 + c * 2^8 + a) * 2^8 by omega, e4]


theorem srAddr_srWordOf (a v : Byte) : srAddr (srWordOf a v) = a := by
  apply BitVec.eq_of_getLsbD_eq; intro i hi
  interval_cases i <;> simp [srAddr, srWordOf]

theorem srValue_srWordOf (a v : Byte) : srValue (srWordOf a v) = v := by
  apply BitVec.eq_of_getLsbD_eq; intro i hi
  interval_cases i <;> simp [srValue, srWordOf]

/-- A register is found at its own address (30_encoding.md R92). -/
theorem srRegAt_addr (base : Byte) (r : SrReg) (h : digitBaseOk base = true) :
    srRegAt base (r.addr base) = some r := by
  have key : ∀ b : BitVec 8, ∀ p : Fin 4,
      digitBaseOk b = true → srRegAt b ((SrReg.digit p).addr b) = some (.digit p) := by decide +kernel
  cases r with
  | digit p => exact key base p h
  | noop => rfl
  | decode => rfl
  | intensity => rfl
  | scanLimit => rfl
  | power => rfl
  | test => rfl

/-- The register found at an address has that address. -/
theorem addr_of_srRegAt (base a : Byte) (r : SrReg) (h : srRegAt base a = some r) : r.addr base = a := by
  have := List.find?_some h
  simpa using this

end Sys2Proof
end

