-- ==== Sys2Proof/Laws/Sequencer.lean ====
section
/-! SUPPORT. Laws/Sequencer.lean: the moves of the engine, and that a list of moves is the emission of its actions
(10_state.md R29). -/

namespace Sys2Proof.Machine

/-- The state with another operation in flight. -/
def State.flying (f : InFlight) (s : State) : State := { s with seq := some f }

/-! One move of the engine, by what is next in the action list. -/

theorem engineStep_idle {s : State} (h : s.seq = none) : engineStep s = s := by
  simp only [engineStep, h]

theorem engineStep_end {s : State} {f : InFlight} (h : s.seq = some f) (ht : f.todo = []) :
    engineStep s = complete f.result (settle f s) := by
  simp only [engineStep, h, ht]

theorem engineStep_act {s : State} {f : InFlight} {a : Action} {rest : List MicroOp} (h : s.seq = some f)
    (ht : f.todo = .act a :: rest) : engineStep s = (emit a s).flying { f with todo := rest } := by
  simp only [engineStep, h, ht]; rfl

theorem engineStep_sample {s : State} {f : InFlight} {rest : List MicroOp} (h : s.seq = some f)
    (ht : f.todo = .sample :: rest) :
    engineStep s = (sample s).flying { f with todo := rest, level := nextLevel s } := by
  simp only [engineStep, h, ht]; rfl

theorem engineStep_ackEnd {s : State} {f : InFlight} {check : Bool} {rest : List MicroOp} (h : s.seq = some f)
    (ht : f.todo = .ackEnd check :: rest) :
    engineStep s = if check = true ∧ f.level ≠ s.cfg.ackLevel then
      (abandonFrame (emit .dioOut s)).flying { f with todo := [], result := .ackFailure }
      else (emit .dioOut s).flying { f with todo := rest } := by
  simp only [engineStep, h, ht]; rfl

theorem engineSteps_add (m n : Nat) (s : State) : engineSteps (m + n) s = engineSteps n (engineSteps m s) := by
  induction m generalizing s with
  | zero => simp [engineSteps]
  | succ m ih => rw [Nat.succ_add]; exact ih (engineStep s)

/-- Some number of moves leads from one state to another. -/
def Moves (s t : State) : Prop := ∃ n, engineSteps n s = t

theorem Moves.refl (s : State) : Moves s s := ⟨0, rfl⟩
theorem Moves.trans {s t u : State} (h : Moves s t) (h' : Moves t u) : Moves s u := by
  obtain ⟨m, rfl⟩ := h; obtain ⟨n, rfl⟩ := h'
  exact ⟨m + n, engineSteps_add m n s⟩

/-- A list of actions, move by move, is their emission. -/
theorem moves_acts (as : List Action) (rest : List MicroOp) (f : InFlight) (s : State) :
    Moves (s.flying { f with todo := as.map .act ++ rest }) ((emitAll as s).flying { f with todo := rest }) := by
  induction as generalizing s with
  | nil => exact .refl _
  | cons a as ih => exact Moves.trans ⟨1, rfl⟩ (ih (emit a s))

/-- The end of the acknowledgment phase, move by move (R114, R118). -/
theorem moves_ackTail (check : Bool) (rest : List MicroOp) (f : InFlight) (s : State) :
    engineSteps 3 (s.flying { f with todo := [.sample, .act (.clk false), .ackEnd check] ++ rest }) =
      (if check = true ∧ nextLevel s ≠ s.cfg.ackLevel then
        (abandonFrame (emitAll ackClose (sample s))).flying
          { f with todo := [], level := nextLevel s, result := .ackFailure }
      else (emitAll ackClose (sample s)).flying { f with todo := rest, level := nextLevel s }) := by
  by_cases h : check = true ∧ nextLevel s ≠ s.cfg.ackLevel
  · rw [if_pos h]
    exact if_pos h
  · rw [if_neg h]
    exact if_neg h

/-- TX_BYTE, move by move (R114, R115, R118). -/
theorem moves_byte (check : Bool) (x : Byte) (rest : List MicroOp) (f : InFlight) (s : State) :
    Moves (s.flying { f with todo := bytePlan check x ++ rest })
      (if check = true ∧ (txByte x s).1 ≠ s.cfg.ackLevel then
        (abandonFrame (txByte x s).2).flying { f with todo := [], level := (txByte x s).1, result := .ackFailure }
      else (txByte x s).2.flying { f with todo := rest, level := (txByte x s).1 }) := by
  have e : bytePlan check x ++ rest = (byteActions x).map .act ++
      (ackOpen.map .act ++ ([.sample, .act (.clk false), .ackEnd check] ++ rest)) := by
    simp [bytePlan, ackPlan]
  rw [e]
  refine (moves_acts _ _ _ _).trans ((moves_acts _ _ _ _).trans ⟨3, ?_⟩)
  have h := moves_ackTail check rest f (emitAll ackOpen (emitAll (byteActions x) s))
  rw [emitAll_cfg, emitAll_cfg] at h
  exact h

/-- The bytes of a frame, move by move (R118). -/
theorem moves_sendBytes (check : Bool) (seq : List Byte) (rest : List MicroOp) (f : InFlight) (s : State) :
    ∃ l, Moves (s.flying { f with todo := seq.flatMap (bytePlan check) ++ rest })
      (match sendBytes check seq s with
        | (.ok, s1) => s1.flying { f with todo := rest, level := l }
        | (r, s1) => (abandonFrame s1).flying { f with todo := [], level := l, result := r }) := by
  induction seq generalizing s f with
  | nil => exact ⟨f.level, .refl _⟩
  | cons x xs ih =>
    have h := moves_byte check x (xs.flatMap (bytePlan check) ++ rest) f s
    have e : (x :: xs).flatMap (bytePlan check) ++ rest = bytePlan check x ++ (xs.flatMap (bytePlan check) ++ rest) := by
      simp
    rw [e]
    by_cases hc : check = true ∧ (txByte x s).1 ≠ s.cfg.ackLevel
    · rw [if_pos hc] at h
      refine ⟨(txByte x s).1, ?_⟩
      simp only [sendBytes, if_pos hc]
      exact h
    · rw [if_neg hc] at h
      obtain ⟨l, h2⟩ := ih { f with level := (txByte x s).1 } (txByte x s).2
      refine ⟨l, h.trans ?_⟩
      simp only [sendBytes, if_neg hc]
      exact h2

/-- A frame, move by move (R117, R118). -/
theorem moves_frame (check : Bool) (seq : List Byte) (rest : List MicroOp) (f : InFlight) (s : State) :
    ∃ l, Moves (s.flying { f with todo := framePlan check seq ++ rest })
      (match frame seq check s with
        | (.ok, s1) => s1.flying { f with todo := rest, level := l }
        | (r, s1) => s1.flying { f with todo := [], level := l, result := r }) := by
  obtain ⟨l, h⟩ := moves_sendBytes check seq (stopActions.map .act ++ ([.wait .tBurst].map .act ++ rest)) f
    (emitAll startActions s)
  have e : framePlan check seq ++ rest = startActions.map .act ++
      (seq.flatMap (bytePlan check) ++ (stopActions.map .act ++ ([.wait .tBurst].map .act ++ rest))) := by
    simp [framePlan]
  refine ⟨l, ?_⟩
  rw [e]
  refine (moves_acts _ _ _ _).trans (h.trans ?_)
  unfold frame
  rcases sendBytes check seq (emitAll startActions s) with ⟨r, s1⟩
  cases r
  · exact (moves_acts stopActions _ { f with level := l } s1).trans
      (moves_acts [.wait .tBurst] rest { f with level := l } (emitAll stopActions s1))
  all_goals exact .refl _

/-- A digit write, move by move (R124). -/
theorem moves_writeDigits (pat : Nat → Byte) (a c : Nat) (f : InFlight) (s : State)
    (hr : f.todo = (writeDigitsPlan pat a c).1) (hres : f.result = (writeDigitsPlan pat a c).2) :
    ∃ s1 g, Moves (s.flying f) (s1.flying g) ∧ g.todo = [] ∧ g.instr = f.instr ∧ g.disturbed = f.disturbed ∧
      complete g.result s1 = writeDigits pat a c s := by
  by_cases ha : twDigits ≤ a
  · refine ⟨s, f, .refl _, ?_, rfl, rfl, ?_⟩
    · rw [hr, writeDigitsPlan, if_pos ha]
    · rw [hres, writeDigitsPlan, if_pos ha, writeDigits, if_pos ha]; rfl
  · have hf : f = { f with todo := framePlan true [cmdDataByte] ++ digitFramePlan pat a c } := by
      rw [writeDigitsPlan, if_neg ha] at hr; cases f; simp_all
    have hres' : f.result = .ok := by rw [hres, writeDigitsPlan, if_neg ha]
    obtain ⟨l, h1⟩ := moves_frame true [cmdDataByte] (digitFramePlan pat a c) f s
    rw [← hf] at h1
    rw [writeDigits, if_neg ha]
    generalize frame [cmdDataByte] true s = fr at h1 ⊢
    obtain ⟨r, s1⟩ := fr
    cases r
    · obtain ⟨l2, h2⟩ := moves_frame true (digitFrameBytes pat a (clampCount a c)) [] { f with level := l } s1
      rw [List.append_nil] at h2
      dsimp only
      have h3 := Moves.trans h1 h2
      generalize frame (digitFrameBytes pat a (clampCount a c)) true s1 = fr at h3 ⊢
      obtain ⟨r2, s2⟩ := fr
      cases r2
      · exact ⟨_, _, h3, rfl, rfl, rfl, by rw [hres']; rfl⟩
      all_goals exact ⟨_, _, h3, rfl, rfl, rfl, rfl⟩
    all_goals exact ⟨_, _, h1, rfl, rfl, rfl, rfl⟩

theorem engineSteps_idle (n : Nat) (s : State) (h : s.seq = none) : engineSteps n s = s := by
  induction n with
  | zero => rfl
  | succ n ih => rw [engineSteps, show engineStep s = s by unfold engineStep; rw [h], ih]

/-- A move that leaves the engine busy emits one action. -/
theorem length_of_busy (n : Nat) (s : State) (h : busy (engineSteps n s) = true) :
    (engineSteps n s).trace.length = s.trace.length + n := by
  induction n generalizing s with
  | zero => rfl
  | succ n ih =>
    rw [engineSteps] at h ⊢
    rw [ih _ h]
    have : (engineStep s).trace.length = s.trace.length + 1 := by
      rcases hs : s.seq with _ | f
      · rw [engineStep_idle hs, engineSteps_idle n s hs] at h
        simp [busy, hs] at h
      · rcases ht : f.todo with _ | ⟨m, rest⟩
        · rw [engineStep_end hs ht, engineSteps_idle n _ rfl] at h
          simp [busy, complete] at h
        · cases m with
          | act a => rw [engineStep_act hs ht]; simp [emit, State.flying]
          | sample => rw [engineStep_sample hs ht]; simp [sample, emit, State.flying]
          | ackEnd check =>
            rw [engineStep_ackEnd hs ht]
            split_ifs <;> simp [emit, abandonFrame, State.flying]
    omega

theorem settle_frames (f : InFlight) (s : State) : (settle f s).trace = s.trace := by
  unfold settle; split <;> dsimp only <;> split_ifs <;> rfl

/-- From an operation whose list is run to its end, completion is one move more. -/
theorem steps_of_moves (s s1 : State) (f g : InFlight) (h : Moves (s.flying f) (s1.flying g)) (hg : g.todo = []) :
    engineSteps ((complete g.result (settle g (s1.flying g))).trace.length - s.trace.length + 1) (s.flying f) =
      complete g.result (settle g (s1.flying g)) := by
  obtain ⟨n, hn⟩ := h
  have hl := length_of_busy n (s.flying f) (by rw [hn]; rfl)
  rw [hn] at hl
  have e : (complete g.result (settle g (s1.flying g))).trace = s1.trace := settle_frames g _
  rw [e]
  have e2 : s1.trace.length = s.trace.length + n := hl
  rw [show s1.trace.length - s.trace.length + 1 = n + 1 by omega, engineSteps_add, hn]
  show engineStep (s1.flying g) = _
  unfold engineStep State.flying
  simp only [hg]

theorem flying_complete (s1 : State) (g : InFlight) (hd : g.disturbed = false) (hi : ∀ v dp, g.instr ≠ .segEncode v dp) :
    complete g.result (settle g (s1.flying g)) = complete g.result s1 := by
  unfold settle
  split
  · rename_i v dp h; exact absurd h (hi v dp)
  · simp [hd, complete, State.flying]

/-- Operations that are one list of actions. -/
theorem moves_plain (as : List Action) (f : InFlight) (s : State) (h : f.todo = as.map .act) :
    ∃ g, Moves (s.flying f) ((emitAll as s).flying g) ∧ g.todo = [] ∧ g.instr = f.instr ∧ g.disturbed = f.disturbed ∧ g.result = f.result := by
  have := moves_acts as [] f s
  rw [List.append_nil, ← h] at this
  exact ⟨_, this, rfl, rfl, rfl, rfl⟩

theorem digitFramePlan_congr (pat pat' : Nat → Byte) (a c : Nat) (h : ∀ i, i < clampCount a c → pat i = pat' i) :
    digitFramePlan pat a c = digitFramePlan pat' a c := by
  have : (List.range (clampCount a c)).map pat = (List.range (clampCount a c)).map pat' :=
    List.map_congr_left fun i hi => h i (List.mem_range.1 hi)
  simp only [digitFramePlan, digitFrameBytes, this]

theorem writeDigitsPlan_congr (pat pat' : Nat → Byte) (a c : Nat) (h : ∀ i, i < clampCount a c → pat i = pat' i) :
    writeDigitsPlan pat a c = writeDigitsPlan pat' a c := by
  simp only [writeDigitsPlan, digitFramePlan_congr pat pat' a c h]

theorem patternOf_copied (cfg : Config) (a c : Nat) (s : State) (i : Nat) (h : i < clampCount a c) :
    patternOf cfg (copiedPatterns (.twSetdigits a c) s) (.twSetdigits a c) i = readPbuf i s := by
  simp [patternOf, copiedPatterns, pbufPatterns, h]

end Sys2Proof.Machine
end

