-- ==== Sys2Proof/Laws/Exec.lean ====
section
/-! SUPPORT. Laws/Exec.lean: everything an instruction can do, once: `exec_cases`. -/

namespace Sys2Proof.Machine

/-- Actions that are not the shift-register port's leave its lines as they were. -/
theorem driveAll_notSr (as : List Action) (ln : Lines) (h : ∀ a ∈ as, a.isSr = false) :
    (ln.driveAll as).srClk = ln.srClk ∧ (ln.driveAll as).srDin = ln.srDin ∧
      (ln.driveAll as).srLoad = ln.srLoad ∧ (ln.driveAll as).srCfg = ln.srCfg := by
  induction as generalizing ln with
  | nil => exact ⟨rfl, rfl, rfl, rfl⟩
  | cons a as ih =>
    obtain ⟨h1, h2, h3, h4⟩ := ih (ln.drive a) fun b hb => h b (List.mem_cons_of_mem a hb)
    have ha := h a List.mem_cons_self
    rw [driveAll_cons, h1, h2, h3, h4]
    cases a <;> simp [Action.isSr] at ha <;> exact ⟨rfl, rfl, rfl, rfl⟩

/-- Shift-register actions leave the two-wire lines as they were. -/
theorem driveAll_isSr (as : List Action) (ln : Lines) (h : as.all Action.isSr = true) :
    (ln.driveAll as).twClk = ln.twClk ∧ (ln.driveAll as).twDioOut = ln.twDioOut ∧
      (ln.driveAll as).twDioDir = ln.twDioDir := by
  induction as generalizing ln with
  | nil => exact ⟨rfl, rfl, rfl⟩
  | cons a as ih =>
    rw [List.all_cons, Bool.and_eq_true] at h
    have ha := h.1
    obtain ⟨h1, h2, h3⟩ := ih (ln.drive a) h.2
    rw [driveAll_cons, h1, h2, h3]
    cases a <;> simp [Action.isSr] at ha <;> exact ⟨rfl, rfl, rfl⟩

theorem notSr_of_isTw (as : List Action) (h : as.all Action.isTw = true) : ∀ a ∈ as, a.isSr = false := by
  intro a ha
  have := List.all_eq_true.1 h a ha
  cases a <;> simp [Action.isTw, Action.isSr] at this ⊢

/-- Actions that are not the shift-register port's leave its chip as it was. -/
theorem seeAll_notSr (cfg : Config) (as : List Action) (ln : Lines) (d : Devices) (h : ∀ a ∈ as, a.isSr = false) :
    (d.seeAll cfg ln as).sr = d.sr := by
  induction as generalizing ln d with
  | nil => rfl
  | cons a as ih =>
    rw [seeAll_cons, ih _ _ fun b hb => h b (List.mem_cons_of_mem a hb)]
    have ha := h a List.mem_cons_self
    cases a <;> simp [Action.isSr] at ha
    case pInit => rfl
    case pDeinit => rfl
    all_goals exact (see_onlyTw cfg ln _ d rfl).1

/-- The state that a two-wire operation leaves: it took `k` samples, emitted `acts` and ended with `r`; the chip's
registers are free (`lost`) when the frame was abandoned. -/
def twEnd (r : Result) (k : Nat) (acts : List Action) (lost : Bool) (s : State) : State :=
  complete r (if lost then abandonFrame (emitAll acts (afterSamples k s)) else emitAll acts (afterSamples k s))

theorem twEnd_eq (r : Result) (k : Nat) (acts : List Action) (lost : Bool) (s : State) :
    twEnd r k acts lost s = endsWith r k acts (s.lines.driveAll acts)
      (if lost then (s.dev.seeAll s.cfg s.lines acts).twUnspecified else s.dev.seeAll s.cfg s.lines acts) s := by
  cases lost <;> simp [twEnd, emitAll_eq, endsWith, complete, afterSamples, abandonFrame]

/-- The actions of an operation of the two-wire port: none of the other port's, and idle lines stay idle. -/
def TwActions (acts : List Action) : Prop :=
  (∀ a ∈ acts, a.isSr = false) ∧ ∀ ln : Lines, idleLines ln = true → idleLines (ln.driveAll acts) = true

theorem twActions_of_out (acts : List Action) (h : acts.all Action.isTw = true)
    (ho : ∀ ln : Lines, (ln.driveAll acts).twDioDir = .out) : TwActions acts := by
  refine ⟨notSr_of_isTw acts h, fun ln hl => ?_⟩
  obtain ⟨h1, -, h3, -⟩ := driveAll_notSr acts ln (notSr_of_isTw acts h)
  simp only [idleLines, h1, h3, ho] at hl ⊢
  simp_all

/-- The state with other line levels and other devices. -/
def State.withOutside (ln : Lines) (d : Devices) (s : State) : State := { s with lines := ln, dev := d }

theorem withOutside_self (s : State) : s.withOutside s.lines s.dev = s := rfl
@[simp] theorem oracleAt_withOutside (i : Nat) (ln : Lines) (d : Devices) (s : State) :
    oracleAt i (s.withOutside ln d) = oracleAt i s := rfl
@[simp] theorem levelsFrom_withOutside (i n : Nat) (ln : Lines) (d : Devices) (s : State) :
    levelsFrom i n (s.withOutside ln d) = levelsFrom i n s := rfl
theorem allAck_withOutside {n : Nat} {s : State} (ln : Lines) (d : Devices) (h : AllAck n s) :
    AllAck n (s.withOutside ln d) := fun i hi => h i hi
theorem firstNak_withOutside {j : Nat} {s : State} (ln : Lines) (d : Devices) (h : FirstNak j s) :
    FirstNak j (s.withOutside ln d) := ⟨fun i hi => h.1 i hi, h.2⟩

/-- How a digit write ends (40_two_wire_engine.md R124, R118), from any lines and devices. -/
theorem writeDigits_cases (pat : Nat → Byte) (a c : Nat) (s : State) :
    ∃ r k acts lost, TwActions acts ∧ ∀ ln d,
      writeDigits pat a c (s.withOutside ln d) = twEnd r k acts lost (s.withOutside ln d) := by
  by_cases ha : twDigits ≤ a
  · refine ⟨.invalidAddress, 0, [], false, ⟨by simp, fun _ h => h⟩, fun ln d => ?_⟩
    rw [writeDigits, if_pos ha]
    simp [twEnd, afterSamples_zero, raise]
  · have ha' := Nat.not_le.1 ha
    rcases allAck_or_firstNak (clampCount a c + 2) s with h | ⟨j, hj, h⟩
    · refine ⟨.ok, clampCount a c + 2, sentFrame [cmdDataByte] (levelsFrom 0 1 s) ++
        sentFrame (digitFrameBytes pat a (clampCount a c)) (levelsFrom 1 (clampCount a c + 1) s), false,
        twActions_of_out _ ?_ ?_, fun ln d => by
        rw [writeDigits_ok pat a c _ ha' (allAck_withOutside ln d h), levelsFrom_withOutside, levelsFrom_withOutside]; rfl⟩
      · simp [isTw_sentFrame]
      · intro ln
        rw [driveAll_append, driveAll_sentFrame _ _ (by simp [levelsFrom])]
        rfl
    · cases j with
      | zero =>
        refine ⟨.ackFailure, 1, brokenFrame [cmdDataByte] (levelsFrom 0 1 s), true, twActions_of_out _ ?_ ?_, fun ln d => by
          rw [writeDigits_nak_first pat a c _ ha' (firstNak_withOutside ln d h), levelsFrom_withOutside]; rfl⟩
        · exact isTw_brokenFrame _ _
        · intro ln
          rw [driveAll_brokenFrame _ _ (by simp [levelsFrom]) cmdDataByte rfl]
          rfl
      | succ j =>
        refine ⟨.ackFailure, j + 2, sentFrame [cmdDataByte] (levelsFrom 0 1 s) ++
          brokenFrame ((digitFrameBytes pat a (clampCount a c)).take (j + 1)) (levelsFrom 1 (j + 1) s), true,
          twActions_of_out _ ?_ ?_,
          fun ln d => by
            rw [writeDigits_nak j pat a c _ ha' (firstNak_withOutside ln d h) (by omega), levelsFrom_withOutside,
              levelsFrom_withOutside]; rfl⟩
        · simp [isTw_sentFrame, isTw_brokenFrame]
        · intro ln
          have hl : ((digitFrameBytes pat a (clampCount a c)).take (j + 1)).length = j + 1 := by
            simp; omega
          obtain ⟨x, hx⟩ : ∃ x, ((digitFrameBytes pat a (clampCount a c)).take (j + 1)).getLast? = some x := by
            refine ⟨_, List.getLast?_eq_some_getLast fun h => ?_⟩
            rw [h] at hl
            exact absurd hl (by simp)
          rw [driveAll_append, driveAll_brokenFrame _ _ (by rw [hl]; simp [levelsFrom]) x hx]
          rfl

/-- The actions of an operation of the shift-register port: only its own, and idle lines stay idle. -/
def SrActions (acts : List Action) : Prop :=
  acts.all Action.isSr = true ∧ ∀ ln : Lines, idleLines ln = true → idleLines (ln.driveAll acts) = true

theorem srActions_sentWords (ws : List (Byte × Byte)) : SrActions (sentWords ws) := by
  refine ⟨isSr_sentWords ws, fun ln hl => ?_⟩
  rcases List.eq_nil_or_concat ws with rfl | ⟨vs, v, rfl⟩
  · exact hl
  · rw [List.concat_eq_append, driveAll_sentWords]
    simp only [idleLines] at hl ⊢
    simp_all

/-- Everything an instruction can do, from any lines and devices: it faults; or it is a two-wire operation, SEG_ENCODE,
a shift-register operation, or a byte or word of one of the chips. -/
theorem exec_cases (i : Instr) (s : State) :
    (∃ f, ∀ ln d, exec i (s.withOutside ln d) = .fault f) ∨
    (usesTwPort i = true ∧ usesSrPort i = false ∧ ∃ r k acts lost, TwActions acts ∧
      ∀ ln d, exec i (s.withOutside ln d) = .next (twEnd r k acts lost (s.withOutside ln d))) ∨
    (∃ v dp, i = .segEncode v dp) ∨
    (usesSrPort i = true ∧ usesTwPort i = false ∧ ∃ acts, SrActions acts ∧
      ∀ ln d, exec i (s.withOutside ln d) = .next (finish (emitAll acts (s.withOutside ln d)))) ∨
    (usesTwPort i = false ∧ usesSrPort i = false ∧ ∃ g : Devices → Devices, (∀ d, OnlyTwChip d (g d)) ∧
      (∀ d, d.tw.ptr ≤ 6 → (g d).tw.ptr ≤ 6) ∧ (∀ d, (g d).tw.rx.count = d.tw.rx.count) ∧
      ∀ ln d, exec i (s.withOutside ln d) = .next (s.withOutside ln (g d))) ∨
    (usesTwPort i = false ∧ usesSrPort i = false ∧ ∃ g : Devices → Devices, (∀ d, OnlySrChip d (g d)) ∧
      ∀ ln d, exec i (s.withOutside ln d) = .next (s.withOutside ln (g d))) := by
  have digits : ∀ pat a c, (∀ ln d, exec i (s.withOutside ln d) = .next (writeDigits pat a c (s.withOutside ln d))) →
      ∃ r k acts lost, TwActions acts ∧
        ∀ ln d, exec i (s.withOutside ln d) = .next (twEnd r k acts lost (s.withOutside ln d)) := by
    intro pat a c h
    obtain ⟨r, k, acts, lost, h1, h2⟩ := writeDigits_cases pat a c s
    exact ⟨r, k, acts, lost, h1, fun ln d => by rw [h, h2]⟩
  have srReg : ∀ r v, (∀ ln d, exec i (s.withOutside ln d) = .next (s.withOutside ln (d.srWrite r v))) →
      ∃ g : Devices → Devices, (∀ d, OnlySrChip d (g d)) ∧
        ∀ ln d, exec i (s.withOutside ln d) = .next (s.withOutside ln (g d)) :=
    fun r v h => ⟨Devices.srWrite r v, fun _ => ⟨rfl, rfl⟩, h⟩
  cases i with
  | twInit =>
    exact .inr (.inl ⟨rfl, rfl, .ok, 0, [.pInit], false, ⟨by simp [Action.isSr], fun _ h => h⟩,
      fun ln d => by simp [twEnd, afterSamples_zero]; rfl⟩)
  | twDeinit =>
    exact .inr (.inl ⟨rfl, rfl, .ok, 0, [.pDeinit], false, ⟨by simp [Action.isSr], fun _ h => h⟩,
      fun ln d => by simp [twEnd, afterSamples_zero]; rfl⟩)
  | twConfig b on =>
    refine .inr (.inl ⟨rfl, rfl, .ok, 1, sentFrame [cmdDispctlByte b on] (levelsFrom 0 1 s), false,
      twActions_of_out _ (isTw_sentFrame _ _) (fun ln => ?_), fun ln d => ?_⟩)
    · rw [driveAll_sentFrame _ _ (by simp [levelsFrom])]; rfl
    · rw [exec, execTwConfig, frame_ok _ _ _ (by simp)]; rfl
  | twSetdigit p a => exact .inr (.inl ⟨rfl, rfl, digits (fun _ => p) a 1 fun _ _ => rfl⟩)
  | twSethex v dp a => exact .inr (.inl ⟨rfl, rfl, digits (fun _ => segByte s.cfg v dp) a 1 fun _ _ => rfl⟩)
  | twSetdigits a c =>
    by_cases h : a < twDigits ∧ pbufFault (clampCount a c) s = true
    · exact .inl ⟨.pbufUnwritten, fun ln d => if_pos h⟩
    · exact .inr (.inl ⟨rfl, rfl, digits (fun i => readPbuf i s) a c fun ln d => if_neg h⟩)
  | segEncode v dp => exact .inr (.inr (.inl ⟨v, dp, rfl⟩))
  | srInit =>
    refine .inr (.inr (.inr (.inl ⟨rfl, rfl, srInitActions s.cfg, ⟨rfl, fun ln hl => ?_⟩, fun _ _ => rfl⟩)))
    simp [idleLines, srInitActions, Lines.drive] at hl ⊢
    exact hl.1.1
  | srWritereg r v =>
    refine .inr (.inr (.inr (.inl ⟨rfl, rfl, sentWords [(r, v)], srActions_sentWords _, fun ln d => ?_⟩)))
    simp [exec, execSrWritereg, srXfer]
  | srClear =>
    refine .inr (.inr (.inr (.inl ⟨rfl, rfl, sentWords ((List.range 4).map fun p =>
      (s.cfg.digitRegBase + BitVec.ofNat 8 p, s.cfg.blankCode)), srActions_sentWords _, fun ln d => ?_⟩)))
    rw [exec, execSrClear, srWriteFrom_eq, blankCodes_eq, srWriteActions_four]; rfl
  | srDispnum =>
    by_cases h : s.argWritten = false
    · exact .inl ⟨.argUnwritten, fun ln d => if_pos h⟩
    · refine .inr (.inr (.inr (.inl ⟨rfl, rfl, sentWords ((List.range 4).map fun p =>
        (s.cfg.digitRegBase + BitVec.ofNat 8 p, displayCode s.cfg s.arg.toInt p)), srActions_sentWords _,
        fun ln d => (if_neg h).trans ?_⟩)))
      rw [displayCodes, srWriteFrom_eq, srWriteActions_four]; rfl
  | cmdData =>
    exact .inr (.inr (.inr (.inr (.inl ⟨rfl, rfl, Devices.takeCmdData, fun _ => ⟨rfl, rfl⟩, fun _ h => h,
      fun _ => rfl, fun _ _ => rfl⟩))))
  | cmdAddr a =>
    refine .inr (.inr (.inr (.inr (.inl ⟨rfl, rfl, Devices.takeCmdAddr a, fun d => ?_, fun d h => ?_, fun d => ?_,
      fun _ _ => rfl⟩))))
    · unfold Devices.takeCmdAddr; split_ifs <;> exact ⟨rfl, rfl⟩
    · exact takeCmdAddr_ptr a d
    · unfold Devices.takeCmdAddr; split_ifs <;> rfl
  | cmdDispctl b on =>
    exact .inr (.inr (.inr (.inr (.inl ⟨rfl, rfl, Devices.takeCmdDispctl b on, fun _ => ⟨rfl, rfl⟩, fun _ h => h,
      fun _ => rfl, fun _ _ => rfl⟩))))
  | data p =>
    refine .inr (.inr (.inr (.inr (.inl ⟨rfl, rfl, Devices.takeData p, fun d => ?_, fun d h => ?_, fun d => ?_,
      fun _ _ => rfl⟩))))
    · unfold Devices.takeData; split_ifs <;> exact ⟨rfl, rfl⟩
    · exact takeData_ptr p d
    · unfold Devices.takeData; split_ifs <;> rfl
  | srNoop v => exact .inr (.inr (.inr (.inr (.inr ⟨rfl, rfl, srReg .noop v fun _ _ => rfl⟩))))
  | srDigit0 v => exact .inr (.inr (.inr (.inr (.inr ⟨rfl, rfl, srReg (.digit 0) v fun _ _ => rfl⟩))))
  | srDigit1 v => exact .inr (.inr (.inr (.inr (.inr ⟨rfl, rfl, srReg (.digit 1) v fun _ _ => rfl⟩))))
  | srDigit2 v => exact .inr (.inr (.inr (.inr (.inr ⟨rfl, rfl, srReg (.digit 2) v fun _ _ => rfl⟩))))
  | srDigit3 v => exact .inr (.inr (.inr (.inr (.inr ⟨rfl, rfl, srReg (.digit 3) v fun _ _ => rfl⟩))))
  | srDecode v => exact .inr (.inr (.inr (.inr (.inr ⟨rfl, rfl, srReg .decode v fun _ _ => rfl⟩))))
  | srIntensity v => exact .inr (.inr (.inr (.inr (.inr ⟨rfl, rfl, srReg .intensity v fun _ _ => rfl⟩))))
  | srScanlimit v => exact .inr (.inr (.inr (.inr (.inr ⟨rfl, rfl, srReg .scanLimit v fun _ _ => rfl⟩))))
  | srPower v => exact .inr (.inr (.inr (.inr (.inr ⟨rfl, rfl, srReg .power v fun _ _ => rfl⟩))))
  | srTest v => exact .inr (.inr (.inr (.inr (.inr ⟨rfl, rfl, srReg .test v fun _ _ => rfl⟩))))

/-- `exec_cases` at one state: everything a next state can be. -/
theorem exec_next (i : Instr) (s t : State) (h : exec i s = .next t) :
    (usesTwPort i = true ∧ usesSrPort i = false ∧ ∃ r k acts lost, TwActions acts ∧ t = twEnd r k acts lost s) ∨
    (∃ v dp, i = .segEncode v dp ∧ t = finish (writeEncout (segByte s.cfg v dp) s)) ∨
    (usesSrPort i = true ∧ usesTwPort i = false ∧ ∃ acts, SrActions acts ∧ t = finish (emitAll acts s)) ∨
    (usesTwPort i = false ∧ usesSrPort i = false ∧ ∃ d, OnlyTwChip s.dev d ∧ (s.dev.tw.ptr ≤ 6 → d.tw.ptr ≤ 6) ∧
      d.tw.rx.count = s.dev.tw.rx.count ∧ t = { s with dev := d }) ∨
    (usesTwPort i = false ∧ usesSrPort i = false ∧ ∃ d, OnlySrChip s.dev d ∧ t = { s with dev := d }) := by
  have inj : ∀ {x}, exec i (s.withOutside s.lines s.dev) = .next x → t = x := by
    intro x hx; rw [withOutside_self, h] at hx; simpa using hx
  rcases exec_cases i s with ⟨f, hf⟩ | ⟨h1, h2, r, k, acts, lost, ha, hx⟩ | ⟨v, dp, rfl⟩ | ⟨h1, h2, acts, ha, hx⟩ |
    ⟨h1, h2, g, hg, hp, hc, hx⟩ | ⟨h1, h2, g, hg, hx⟩
  · have := hf s.lines s.dev; rw [withOutside_self, h] at this; cases this
  · exact .inl ⟨h1, h2, r, k, acts, lost, ha, inj (hx _ _)⟩
  · exact .inr (.inl ⟨v, dp, rfl, inj rfl⟩)
  · exact .inr (.inr (.inl ⟨h1, h2, acts, ha, inj (hx _ _)⟩))
  · exact .inr (.inr (.inr (.inl ⟨h1, h2, g s.dev, hg _, hp _, hc _, inj (hx _ _)⟩)))
  · exact .inr (.inr (.inr (.inr ⟨h1, h2, g s.dev, hg _, inj (hx _ _)⟩)))

/-- A byte of the two-wire chip changes that chip alone, whatever the rest of the machine is. -/
theorem exec_of_decodeTw {pos : TwPos} {b : Byte} {i : Instr} (h : decodeTw pos b = .ok i) :
    ∃ g : Devices → Devices, (∀ d, OnlyTwChip d (g d)) ∧ (∀ d, d.tw.ptr ≤ 6 → (g d).tw.ptr ≤ 6) ∧
      (∀ d, (g d).tw.rx.count = d.tw.rx.count) ∧ ∀ s, exec i s = .next { s with dev := g s.dev } := by
  have hi : i = .cmdData ∨ (∃ a, i = .cmdAddr a) ∨ (∃ v on, i = .cmdDispctl v on) ∨ ∃ p, i = .data p := by
    cases pos with
    | first =>
      simp only [decodeTw, decodeTwCommand] at h
      split_ifs at h <;> simp only [Except.ok.injEq] at h <;> subst h <;> simp
    | afterAddr => simp only [decodeTw, Except.ok.injEq] at h; subst h; simp
    | afterOther => simp [decodeTw] at h
  rcases hi with rfl | ⟨a, rfl⟩ | ⟨v, on, rfl⟩ | ⟨p, rfl⟩
  · exact ⟨Devices.takeCmdData, fun _ => ⟨rfl, rfl⟩, fun _ h => h, fun _ => rfl, fun _ => rfl⟩
  · refine ⟨Devices.takeCmdAddr a, fun d => ?_, fun d _ => takeCmdAddr_ptr a d, fun d => ?_, fun _ => rfl⟩ <;>
      unfold Devices.takeCmdAddr <;> split_ifs
    exacts [⟨rfl, rfl⟩, ⟨rfl, rfl⟩, rfl, rfl]
  · exact ⟨Devices.takeCmdDispctl v on, fun _ => ⟨rfl, rfl⟩, fun _ h => h, fun _ => rfl, fun _ => rfl⟩
  · refine ⟨Devices.takeData p, fun d => ?_, fun d _ => takeData_ptr p d, fun d => ?_, fun _ => rfl⟩ <;>
      unfold Devices.takeData <;> split_ifs
    exacts [⟨rfl, rfl⟩, ⟨rfl, rfl⟩, rfl, rfl]

/-- The instruction that writes a register is the register write. -/
theorem exec_srReg (r : SrReg) (v : Byte) (s : State) :
    exec (r.instr v) s = .next { s with dev := s.dev.srWrite r v } := by
  cases r with
  | digit p => fin_cases p <;> rfl
  | noop => rfl
  | decode => rfl
  | intensity => rfl
  | scanLimit => rfl
  | power => rfl
  | test => rfl

/-- A word of the shift-register chip is a register write. -/
theorem exec_of_decodeSr {base : Byte} {w : BitVec 16} {i : Instr} (h : decodeSr base w = .ok i) :
    ∃ r v, i = SrReg.instr v r := by
  unfold decodeSr at h
  split at h
  · simp only [Except.ok.injEq] at h; exact ⟨_, _, h.symm⟩
  · cases h

end Sys2Proof.Machine
end

