-- ==== Sys2Proof/Laws/Step.lean ====
section
/-! SUPPORT. Laws/Step.lean: everything the moves of a step can do: the engine, the host accesses, the other drivers;
what they do to the trace and to the report. -/

namespace Sys2Proof.Machine

/-- A move of the engine only appends to the trace (10_state.md R33). -/
theorem trace_engineStep (s : State) : ∃ acts, (engineStep s).trace = s.trace ++ acts := by
  rcases h : s.seq with _ | f
  · rw [engineStep_idle h]; exact ⟨[], by simp⟩
  · rcases ht : f.todo with _ | ⟨m, rest⟩
    · rw [engineStep_end h ht]; exact ⟨[], by simp [complete, settle_frames]⟩
    · cases m with
      | act a => rw [engineStep_act h ht]; exact ⟨_, rfl⟩
      | sample => rw [engineStep_sample h ht]; exact ⟨_, rfl⟩
      | ackEnd c => rw [engineStep_ackEnd h ht]; split_ifs <;> exact ⟨_, rfl⟩

/-- An instruction only appends to the trace (10_state.md R33). -/
theorem trace_exec (i : Instr) (s t : State) (h : exec i s = .next t) : ∃ acts, t.trace = s.trace ++ acts := by
  rcases exec_next i s t h with ⟨h1, h2, r, k, acts, lost, ha, rfl⟩ | ⟨v, dp, rfl, rfl⟩ | ⟨h1, h2, acts, ha, rfl⟩ |
    ⟨h1, h2, d, hd, hp, hc, rfl⟩ | ⟨h1, h2, d, hd, rfl⟩
  · rw [twEnd_eq]; exact ⟨_, rfl⟩
  · exact ⟨[], by simp [finish, complete, writeEncout]⟩
  · rw [emitAll_eq]; exact ⟨_, rfl⟩
  · exact ⟨[], by simp⟩
  · exact ⟨[], by simp⟩

/-- A byte from another driver changes the two-wire chip alone. -/
theorem busByte_eq (b : Byte) (s : State) : ∃ d, OnlyTwChip s.dev d ∧ (s.dev.tw.ptr ≤ 6 → d.tw.ptr ≤ 6) ∧
    d.tw.rx.count = s.dev.tw.rx.count ∧ busByte b s = .next { s with dev := d } := by
  unfold busByte
  split_ifs with ha
  · exact ⟨s.dev, ⟨rfl, rfl⟩, fun h => h, rfl, rfl⟩
  · split
    · rename_i i hd
      obtain ⟨g, h1, h2, h3, h4⟩ := exec_of_decodeTw hd
      exact ⟨g s.dev, h1 _, h2 _, h3 _, h4 s⟩
    · exact ⟨s.dev.twUnspecified.expect .afterOther, ⟨rfl, rfl⟩, fun _ => freePtr_le _, rfl, rfl⟩

/-- A word from another driver changes the shift-register chip alone. -/
theorem busWord_eq (w : BitVec 16) (s : State) : ∃ d, OnlySrChip s.dev d ∧ busWord w s = .next { s with dev := d } := by
  unfold busWord
  split
  · rename_i i hd
    obtain ⟨r, v, rfl⟩ := exec_of_decodeSr hd
    exact ⟨(shiftIn w s.dev).srWrite r v, ⟨rfl, rfl⟩, exec_srReg r v _⟩
  · exact ⟨(shiftIn w s.dev).srUnspecified, ⟨rfl, rfl⟩, rfl⟩

/-- What another driver's move on the two-wire lines can do. -/
theorem foreignTw_cases (free : State → Host.Outcome State Fault Refusal) (s t : State) (h : foreignTw free s = .next t) :
    free s = .next t ∨ ∃ f, s.seq = some f ∧
      t = { s with dev := s.dev.twUnspecified, seq := some { f with disturbed := true } } := by
  unfold foreignTw at h
  split at h
  · exact .inl h
  · rename_i f hf
    split_ifs at h
    · exact .inl h
    · exact .inr ⟨f, hf, by simpa [eq_comm, onDevices] using h⟩

theorem foreignSr_next (w : BitVec 16) (s t : State) (h : foreignSr w s = .next t) : busWord w s = .next t := by
  unfold foreignSr at h
  split at h
  · exact h
  · split_ifs at h; exact h

/-- Everything a host access can do. -/
theorem hostWrite_next (off width : Nat) (v : Word) (s t : State) (h : hostWrite off width v s = .next t) :
    s.seq = none ∧ (command v s = .next t ∨ t = writeReg off v s) := by
  unfold hostWrite at h
  split at h
  · cases h
  · cases h
  · rename_i hx
    have hs : s.seq = none := by
      unfold accessStop at hx
      by_contra hn
      have : busy s = true := by simpa [busy, Option.isSome_iff_ne_none] using hn
      simp [this] at hx
      split_ifs at hx
    split_ifs at h
    · exact ⟨hs, .inl h⟩
    · exact ⟨hs, .inr (by simpa [eq_comm] using h)⟩

theorem command_next (w : Word) (s t : State) (h : command w s = .next t) :
    t = raise .illegalCommand s ∨ (∃ i, decodeHost w = .ok i ∧ exec i s = .next t) ∨
      ∃ i, decodeHost w = .ok i ∧ t = s.flying (inFlightOf w i s) := by
  unfold command at h
  split at h
  · exact .inl (by simpa [eq_comm] using h)
  · rename_i i hd
    split at h
    · exact .inr (.inl ⟨i, hd, h⟩)
    · unfold accept at h
      split at h
      · cases h
      · exact .inr (.inr ⟨i, hd, by simpa [eq_comm, State.flying] using h⟩)

theorem hostRead_next (off width : Nat) (s t : State) (h : hostRead off width s = .next t) :
    t = { s with hostData := readReg off s } := by
  unfold hostRead at h
  split at h
  · cases h
  · cases h
  · simpa [eq_comm] using h

theorem hostWait_next (s t : State) (h : hostWait s = .next t) :
    t = { s with hostData := statusWord s } ∨
      t = engineStep { s with hostData := statusWord s, inputs := .hostWait :: s.inputs } := by
  unfold hostWait at h
  split_ifs at h
  · exact .inr (by simpa [eq_comm] using h)
  · exact .inl (by simpa [eq_comm] using h)

theorem writeReg_eq (off : Nat) (v : Word) (s : State) :
    writeReg off v s = { s with arg := (writeReg off v s).arg, argWritten := (writeReg off v s).argWritten
                                pbuf := (writeReg off v s).pbuf, pbufWritten := (writeReg off v s).pbufWritten } := by
  unfold writeReg
  split_ifs
  · rfl
  · split <;> rfl

/-- The report of an instruction's outcome depends on no line and no device. -/
theorem report_exec (i : Instr) (s : State) (ln : Lines) (d : Devices) :
    viewNext report (exec i (s.withOutside ln d)) = viewNext report (exec i s) := by
  rcases exec_cases i s with ⟨f, hf⟩ | ⟨h1, h2, r, k, acts, lost, ha, hx⟩ | ⟨v, dp, rfl⟩ | ⟨h1, h2, acts, ha, hx⟩ |
    ⟨h1, h2, g, hg, hp, hc, hx⟩ | ⟨h1, h2, g, hg, hx⟩
  · rw [hf, ← withOutside_self s, hf]
  · have := hx s.lines s.dev; rw [withOutside_self] at this
    rw [hx, this, twEnd_eq, twEnd_eq]; rfl
  · rfl
  · have := hx s.lines s.dev; rw [withOutside_self] at this
    rw [hx, this, emitAll_eq, emitAll_eq]; rfl
  · have := hx s.lines s.dev; rw [withOutside_self] at this
    rw [hx, this]; rfl
  · have := hx s.lines s.dev; rw [withOutside_self] at this
    rw [hx, this]; rfl

theorem report_engineStep (s : State) (ln : Lines) (d : Devices) :
    report (engineStep (s.withOutside ln d)) = report (engineStep s) := by
  rcases h : s.seq with _ | f
  · rw [engineStep_idle h, engineStep_idle (s := s.withOutside ln d) h]; rfl
  · have h' : (s.withOutside ln d).seq = some f := h
    rcases ht : f.todo with _ | ⟨m, rest⟩
    · rw [engineStep_end h ht, engineStep_end h' ht]
      unfold settle
      split <;> dsimp only <;> split_ifs <;> rfl
    · cases m with
      | act a => rw [engineStep_act h ht, engineStep_act h' ht]; rfl
      | sample => rw [engineStep_sample h ht, engineStep_sample h' ht]; rfl
      | ackEnd c =>
        rw [engineStep_ackEnd h ht, engineStep_ackEnd h' ht]
        by_cases hc : c = true ∧ f.level ≠ s.cfg.ackLevel
        · rw [if_pos hc, if_pos (show c = true ∧ f.level ≠ (s.withOutside ln d).cfg.ackLevel from hc)]; rfl
        · rw [if_neg hc, if_neg (show ¬ (c = true ∧ f.level ≠ (s.withOutside ln d).cfg.ackLevel) from hc)]; rfl

end Sys2Proof.Machine
end

