-- ==== Sys2Proof/Laws/Invariant.lean ====
section
/-! SUPPORT. Laws/Invariant.lean: action lists are safe from idle lines, the two-wire chip's bounded registers stay in
their bounds, and instructions and engine moves keep the invariant (10_state.md R36). -/

namespace Sys2Proof.Machine

theorem planSafe_act {ln : Lines} {a : Action} {rest : List MicroOp} (h : planSafe ln (.act a :: rest) = true) :
    planSafe (ln.drive a) rest = true := by
  simp only [planSafe, Bool.and_eq_true] at h
  exact h.2

/-- The lines inside a two-wire operation: the data line driven or released, the other port idle. -/
theorem idleLines_iff (ln : Lines) : idleLines ln = true ↔ ln.twDioDir = .out ∧ ln.srClk = false ∧ ln.srLoad = true := by
  simp [idleLines, and_assoc]

/-- A byte is safe from driven lines, and ends with driven lines. -/
theorem planSafe_byte (check : Bool) (x : Byte) (rest : List MicroOp) (ln : Lines) (h : idleLines ln = true)
    (hr : ∀ ln', idleLines ln' = true → planSafe ln' rest = true) :
    planSafe ln (bytePlan check x ++ rest) = true := by
  rw [idleLines_iff] at h
  obtain ⟨h1, h2, h3⟩ := h
  have hr' := hr { ln with twClk := false, twDioOut := x.getLsbD 7, twDioDir := .out } (by simp [idleLines, h2, h3])
  simp only [bytePlan, ackPlan, byteActions_eq, bitActions, ackOpen, List.map_cons, List.map_nil,
    List.cons_append, List.nil_append, planSafe, Lines.drive, h1, idleLines, h2, h3]
  simp only [h2, h3] at hr'
  rw [hr']
  rfl

theorem planSafe_bytes (check : Bool) (xs : List Byte) (rest : List MicroOp) (ln : Lines) (h : idleLines ln = true)
    (hr : ∀ ln', idleLines ln' = true → planSafe ln' rest = true) :
    planSafe ln (xs.flatMap (bytePlan check) ++ rest) = true := by
  induction xs generalizing ln with
  | nil => exact hr ln h
  | cons x xs ih =>
    rw [List.flatMap_cons, List.append_assoc]
    exact planSafe_byte check x _ ln h ih

theorem planSafe_frame (check : Bool) (xs : List Byte) (rest : List MicroOp) (ln : Lines) (h : idleLines ln = true)
    (hr : ∀ ln', idleLines ln' = true → planSafe ln' rest = true) :
    planSafe ln (framePlan check xs ++ rest) = true := by
  rw [idleLines_iff] at h
  obtain ⟨h1, h2, h3⟩ := h
  have e : framePlan check xs ++ rest = startActions.map .act ++
      (xs.flatMap (bytePlan check) ++ (stopActions.map .act ++ ([.act (.wait .tBurst)] ++ rest))) := by
    simp [framePlan]
  have hb := planSafe_bytes check xs (stopActions.map .act ++ ([.act (.wait .tBurst)] ++ rest))
    { ln with twClk := true, twDioOut := false, twDioDir := .out } (by simp [idleLines, h2, h3]) (by
      intro l hl
      rw [idleLines_iff] at hl
      obtain ⟨g1, g2, g3⟩ := hl
      have := hr { l with twClk := true, twDioOut := true } (by simp [idleLines, g1, g2, g3])
      simp only [g1] at this
      simp [stopActions, planSafe, Lines.drive, g1, this])
  rw [e]
  simpa [startActions, planSafe, Lines.drive] using hb

theorem planSafe_writeDigits (pat : Nat → Byte) (a c : Nat) (ln : Lines) (h : idleLines ln = true) :
    planSafe ln (writeDigitsPlan pat a c).1 = true := by
  unfold writeDigitsPlan
  split_ifs
  · exact h
  · refine planSafe_frame true _ _ ln h fun l hl => ?_
    rw [digitFramePlan, ← List.append_nil (framePlan _ _)]
    exact planSafe_frame true _ _ l hl fun l hl => hl

/-- Shift-register actions are safe from idle lines. -/
theorem planSafe_sr (acts : List Action) (ln : Lines) (h : SrActions acts) (hl : idleLines ln = true) :
    planSafe ln (acts.map .act) = true := by
  have : ∀ (as : List Action) (l : Lines), as.all Action.isSr = true → idleLines (l.driveAll as) = true →
      planSafe l (as.map .act) = true := by
    intro as
    induction as with
    | nil => exact fun l _ h => h
    | cons a as ih =>
      intro l ha h
      rw [List.all_cons, Bool.and_eq_true] at ha
      simp only [List.map_cons, planSafe, Bool.and_eq_true]
      refine ⟨?_, ih _ ha.2 h⟩
      have := ha.1
      cases a <;> simp [Action.isSr] at this ⊢
  exact this acts ln h.1 (h.2 ln hl)

theorem srActions_write (cfg : Config) (p : Nat) (codes : List Byte) : SrActions (srWriteActions cfg p codes) := by
  have : ∃ ws, srWriteActions cfg p codes = sentWords ws := by
    induction codes generalizing p with
    | nil => exact ⟨[], rfl⟩
    | cons c cs ih => obtain ⟨ws, h⟩ := ih (p + 1); exact ⟨(digitAddr cfg p, c) :: ws, by rw [srWriteActions, h]; rfl⟩
  obtain ⟨ws, h⟩ := this
  rw [h]; exact srActions_sentWords ws

/-- The action list of every operation is safe from idle lines. -/
theorem planSafe_plan (cfg : Config) (patterns : List Byte) (arg : Word) (i : Instr) (ln : Lines)
    (h : idleLines ln = true) : planSafe ln (plan cfg patterns arg i).1 = true := by
  have h' := h
  rw [idleLines_iff] at h'
  obtain ⟨h1, h2, h3⟩ := h'
  cases i with
  | twConfig b on =>
    show planSafe ln (framePlan false _) = true
    rw [← List.append_nil (framePlan _ _)]
    exact planSafe_frame false _ _ ln h fun l hl => hl
  | twSetdigit p a => exact planSafe_writeDigits _ _ _ _ h
  | twSetdigits a c => exact planSafe_writeDigits _ _ _ _ h
  | twSethex v dp a => exact planSafe_writeDigits _ _ _ _ h
  | srInit => simp [plan, srInitActions, planSafe, Lines.drive, idleLines, h1]
  | srWritereg r v =>
    have := planSafe_sr (sentWords [(r, v)]) ln (srActions_sentWords _) h
    simpa [plan] using this
  | srClear => exact planSafe_sr _ ln (srActions_write _ _ _) h
  | srDispnum => exact planSafe_sr _ ln (srActions_write _ _ _) h
  | twInit => simpa [plan, planSafe, Lines.drive] using h
  | twDeinit => simpa [plan, planSafe, Lines.drive] using h
  | _ => exact h

/-- The registers of the two-wire chip that the invariant bounds. -/
def ChipBounds (d : Devices) : Prop := d.tw.ptr ≤ 6 ∧ d.tw.rx.count ≤ 9

theorem chipBounds_twLost (d : Devices) (h : ChipBounds d) : ChipBounds d.twLost := ⟨freePtr_le _, h.2⟩

theorem chipBounds_twSees (cfg : Config) (ln : Lines) (a : Action) (d : Devices) (h : ChipBounds d) :
    ChipBounds (d.twSees cfg ln a) := by
  obtain ⟨h1, h2⟩ := h
  unfold Devices.twSees
  split
  · split_ifs <;> first | exact ⟨h1, h2⟩ | exact ⟨h1, Nat.zero_le _⟩
  · split_ifs
    · unfold Devices.clockRises
      split_ifs
      · exact ⟨h1, h2⟩
      · split <;> exact ⟨h1, by simp only [Devices.takeBit]; omega⟩
      · exact ⟨h1, by simp⟩
      · exact ⟨h1, h2⟩
    · exact ⟨h1, h2⟩
  · unfold Devices.acknowledge
    split_ifs
    · exact ⟨takeByte_ptr _ _ h1, Nat.zero_le _⟩
    · exact ⟨takeByte_ptr _ ({ d with draws := d.draws + 1 } : Devices) h1, Nat.zero_le _⟩
    · exact ⟨h1, Nat.zero_le _⟩
    · exact ⟨h1, h2⟩
  · exact ⟨h1, h2⟩

theorem chipBounds_see (cfg : Config) (ln : Lines) (a : Action) (d : Devices) (h : ChipBounds d) :
    ChipBounds (d.see cfg ln a) := by
  have sr : ∀ e : Devices, e.tw = d.tw → ChipBounds e := fun e he => by rw [ChipBounds, he]; exact h
  have tw := chipBounds_twSees cfg ln a d h
  have lost := chipBounds_twLost d h
  by_cases hs : a.isSr = true
  · exact sr _ (see_onlySr cfg ln a d hs).1
  · cases a <;> simp [Action.isSr] at hs <;> unfold Devices.see <;> dsimp only <;>
      first | exact h | (split_ifs; exacts [tw, lost])

theorem chipBounds_seeAll (cfg : Config) (ln : Lines) (as : List Action) (d : Devices) (h : ChipBounds d) :
    ChipBounds (d.seeAll cfg ln as) := by
  induction as generalizing ln d with
  | nil => exact h
  | cons a as ih => exact ih _ _ (chipBounds_see cfg ln a d h)

theorem inv_iff (s : State) : Inv s ↔ LinesSafe s ∧ ChipBounds s.dev := Iff.rfl

/-- Every instruction keeps the invariant when no operation is in flight. -/
theorem inv_exec (i : Instr) (s t : State) (hs : s.seq = none) (h : Inv s) (hx : exec i s = .next t) : Inv t := by
  obtain ⟨hl, hd⟩ := (inv_iff s).1 h
  have hi : idleLines s.lines = true := by simpa [LinesSafe, hs] using hl
  rcases exec_next i s t hx with ⟨h1, h2, r, k, acts, lost, ha, rfl⟩ | ⟨v, dp, rfl, rfl⟩ | ⟨h1, h2, acts, ha, rfl⟩ |
    ⟨h1, h2, d, hd', hp, hc, rfl⟩ | ⟨h1, h2, d, hd', rfl⟩
  · rw [twEnd_eq]
    refine ⟨ha.2 _ hi, ?_⟩
    have := chipBounds_seeAll s.cfg s.lines acts s.dev hd
    simp only [endsWith]
    split_ifs
    · exact ⟨freePtr_le _, this.2⟩
    · exact this
  · exact ⟨hi, hd⟩
  · rw [emitAll_eq]
    exact ⟨ha.2 _ hi, chipBounds_seeAll s.cfg s.lines acts s.dev hd⟩
  · refine ⟨?_, hp hd.1, by rw [hc]; exact hd.2⟩
    simpa [LinesSafe, hs] using hi
  · refine ⟨?_, ?_⟩
    · simpa [LinesSafe, hs] using hi
    · show ChipBounds d
      rw [ChipBounds, hd'.1]; exact hd

/-- A move of the engine keeps the invariant. -/
theorem inv_engineStep (s : State) (h : Inv s) : Inv (engineStep s) := by
  obtain ⟨hl, hd⟩ := (inv_iff s).1 h
  rcases hs : s.seq with _ | f
  · rw [engineStep_idle hs]; exact h
  · have hp : planSafe s.lines f.todo = true := by simpa [LinesSafe, hs] using hl
    rcases ht : f.todo with _ | ⟨m, rest⟩
    · rw [engineStep_end hs ht]
      rw [ht] at hp
      refine ⟨?_, ?_⟩
      · have : (settle f s).lines = s.lines := by unfold settle; split <;> dsimp only <;> split_ifs <;> rfl
        show idleLines (settle f s).lines = true
        rw [this]; exact hp
      · show ChipBounds (settle f s).dev
        unfold settle
        split <;> dsimp only <;> split_ifs <;> first | exact hd | exact ⟨freePtr_le _, hd.2⟩
    · rw [ht] at hp
      cases m with
      | act a =>
        rw [engineStep_act hs ht]
        exact ⟨planSafe_act hp, chipBounds_see s.cfg s.lines a s.dev hd⟩
      | sample =>
        rw [engineStep_sample hs ht]
        simp only [planSafe, Bool.and_eq_true] at hp
        exact ⟨hp.2, chipBounds_see s.cfg s.lines _ s.dev hd⟩
      | ackEnd c =>
        rw [engineStep_ackEnd hs ht]
        simp only [planSafe, Bool.and_eq_true] at hp
        have := chipBounds_see s.cfg s.lines .dioOut s.dev hd
        split_ifs
        · exact ⟨hp.1, freePtr_le _, this.2⟩
        · exact ⟨hp.2, this⟩

end Sys2Proof.Machine
end

