-- ==== Sys2Proof/Laws/PerInstr.lean ====
section
/-! SUPPORT. Laws/PerInstr.lean: the family FitsRow: the code of a well-formed instruction has the width of its row of
spec/opcode_table.json and the row's bits under the row's mask (30_encoding.md R81, R85 to R92). -/

namespace Sys2Proof.Laws.FitsRow

/-- The code of the instruction fits its row of the opcode table. -/
def Statement (i : Instr) : Prop :=
  wellFormed i = true →
    (encode i).bits.1 = (tableRow i).nbits ∧ (encode i).bits.2 &&& (tableRow i).mask = (tableRow i).pattern

/-- The match and mask of a command word (30_encoding.md R81). -/
theorem hostWord_mask (op : BitVec 4) (f : Bool) (c a v : Byte) :
    (hostWord op f c a v).toNat &&& 0xFE000000 = (op.setWidth 32 <<< 28 : Word).toNat := by
  have h : hostWord op f c a v &&& 0xFE000000#32 = op.setWidth 32 <<< 28 := by
    apply BitVec.eq_of_getLsbD_eq; intro i hi
    interval_cases i <;> simp [hostWord]
  have := congrArg BitVec.toNat h
  rwa [BitVec.toNat_and] at this

/-- The match and mask of a shift-register word (30_encoding.md R91). -/
theorem srWord_mask (a v : Byte) : (srWordOf a v).toNat &&& 0xFF00 = (a.setWidth 16 <<< 8 : BitVec 16).toNat := by
  have h : srWordOf a v &&& 0xFF00#16 = a.setWidth 16 <<< 8 := by
    apply BitVec.eq_of_getLsbD_eq; intro i hi
    interval_cases i <;> simp [srWordOf]
  have := congrArg BitVec.toNat h
  rwa [BitVec.toNat_and] at this

theorem twInit : Statement .twInit := fun _ => ⟨rfl, hostWord_mask _ _ _ _ _⟩
theorem twDeinit : Statement .twDeinit := fun _ => ⟨rfl, hostWord_mask _ _ _ _ _⟩
theorem twConfig (b : Byte) (on : Bool) : Statement (.twConfig b on) := fun _ => ⟨rfl, hostWord_mask _ _ _ _ _⟩
theorem twSetdigit (p : Byte) (a : Nat) : Statement (.twSetdigit p a) := fun _ => ⟨rfl, hostWord_mask _ _ _ _ _⟩
theorem twSetdigits (a c : Nat) : Statement (.twSetdigits a c) := fun _ => ⟨rfl, hostWord_mask _ _ _ _ _⟩
theorem twSethex (v : Byte) (dp : Bool) (a : Nat) : Statement (.twSethex v dp a) :=
  fun _ => ⟨rfl, hostWord_mask _ _ _ _ _⟩
theorem segEncode (v : Byte) (dp : Bool) : Statement (.segEncode v dp) := fun _ => ⟨rfl, hostWord_mask _ _ _ _ _⟩
theorem srInit : Statement .srInit := fun _ => ⟨rfl, hostWord_mask _ _ _ _ _⟩
theorem srWritereg (r v : Byte) : Statement (.srWritereg r v) := fun _ => ⟨rfl, hostWord_mask _ _ _ _ _⟩
theorem srClear : Statement .srClear := fun _ => ⟨rfl, hostWord_mask _ _ _ _ _⟩
theorem srDispnum : Statement .srDispnum := fun _ => ⟨rfl, hostWord_mask _ _ _ _ _⟩
theorem cmdData : Statement .cmdData := fun _ => ⟨rfl, rfl⟩
theorem cmdAddr (a : Nat) : Statement (.cmdAddr a) := by
  intro h
  have h : a < 8 := by simpa [wellFormed] using h
  refine ⟨rfl, ?_⟩
  interval_cases a <;> rfl
theorem cmdDispctl (b : BitVec 3) (on : Bool) : Statement (.cmdDispctl b on) := by
  have key : ∀ (b : BitVec 3) (on : Bool), (cmdDispctlByte (b.setWidth 8) on).toNat &&& 0xF0 = 0x80 := by decide
  exact fun _ => ⟨rfl, key b on⟩
theorem data (p : Byte) : Statement (.data p) := fun _ => ⟨rfl, Nat.and_zero _⟩
theorem srNoop (v : Byte) : Statement (.srNoop v) := fun _ => ⟨rfl, srWord_mask _ _⟩
theorem srDigit0 (v : Byte) : Statement (.srDigit0 v) := fun _ => ⟨rfl, srWord_mask _ _⟩
theorem srDigit1 (v : Byte) : Statement (.srDigit1 v) := fun _ => ⟨rfl, srWord_mask _ _⟩
theorem srDigit2 (v : Byte) : Statement (.srDigit2 v) := fun _ => ⟨rfl, srWord_mask _ _⟩
theorem srDigit3 (v : Byte) : Statement (.srDigit3 v) := fun _ => ⟨rfl, srWord_mask _ _⟩
theorem srDecode (v : Byte) : Statement (.srDecode v) := fun _ => ⟨rfl, srWord_mask _ _⟩
theorem srIntensity (v : Byte) : Statement (.srIntensity v) := fun _ => ⟨rfl, srWord_mask _ _⟩
theorem srScanlimit (v : Byte) : Statement (.srScanlimit v) := fun _ => ⟨rfl, srWord_mask _ _⟩
theorem srPower (v : Byte) : Statement (.srPower v) := fun _ => ⟨rfl, srWord_mask _ _⟩
theorem srTest (v : Byte) : Statement (.srTest v) := fun _ => ⟨rfl, srWord_mask _ _⟩

end Sys2Proof.Laws.FitsRow
end

