-- ==== Sys2Proof/Tests/Slice0.lean ====
section
/-! SUPPORT. Tests/Slice0.lean: tests with results from the spec (95_test_vectors.md and the encodings of
30_encoding.md), and for each statement with hypotheses a state and operands that meet them. -/

namespace Sys2Proof.Tests

open Sys2Proof Sys2Proof.Machine

/-! ## An ill-formed term for each check of WellFormed -/

theorem test_wf_setdigit_addr : wellFormed (.twSetdigit 0 256) = false := by decide
theorem test_wf_setdigits_start : wellFormed (.twSetdigits 256 0) = false := by decide
theorem test_wf_setdigits_count : wellFormed (.twSetdigits 0 256) = false := by decide
theorem test_wf_sethex_addr : wellFormed (.twSethex 0 true 256) = false := by decide
theorem test_wf_cmdAddr : wellFormed (.cmdAddr 8) = false := by decide
theorem test_wf_boundaries : wellFormed (.twSetdigits 255 255) = true ∧ wellFormed (.cmdAddr 7) = true := by decide
theorem test_digitBase : digitBaseOk 0x01 = true ∧ digitBaseOk 0x06 = false ∧ digitBaseOk 0xFD = false := by decide

/-! ## Decoding: the words of 95_test_vectors.md 2.1 to 2.3 and the bit patterns of 30_encoding.md -/

theorem test_decode_twInit : decodeHost 0x10000000 = .ok .twInit ∧ decodeHost 0x11FFFFFF = .ok .twInit := by decide
theorem test_decode_twDeinit : decodeHost 0x20000000 = .ok .twDeinit := by decide
theorem test_decode_twConfig : decodeHost 0b0011_000_1_00000000_00000000_00000100 = .ok (.twConfig 4 true) := by decide
theorem test_decode_twSetdigit : decodeHost 0b0100_000_0_00000000_00000010_01011011 = .ok (.twSetdigit 0x5B 2) := by decide
theorem test_decode_twSetdigits : decodeHost 0b0101_000_0_00001010_00000011_00000000 = .ok (.twSetdigits 3 10) := by decide
theorem test_decode_twSethex : decodeHost 0b0110_000_1_00000000_00000101_01000001 = .ok (.twSethex 0x41 true 5) := by decide
theorem test_decode_segEncode : decodeHost 0b0111_000_1_00000000_00000000_01100110 = .ok (.segEncode 0x66 true) := by decide
theorem test_decode_srInit : decodeHost 0x80000000 = .ok .srInit := by decide
theorem test_decode_srWritereg : decodeHost 0b1001_000_0_00000000_00001011_00000011 = .ok (.srWritereg 0x0B 0x03) := by decide
theorem test_decode_srClear : decodeHost 0xA0000000 = .ok .srClear := by decide
theorem test_decode_srDispnum : decodeHost 0xB0000000 = .ok .srDispnum := by decide
theorem test_decode_reserved : decodeHost 0x00000000 = .error .reservedOpcode ∧
    decodeHost 0xC0000000 = .error .reservedOpcode ∧ decodeHost 0xF1234567 = .error .reservedOpcode ∧
    decodeHost 0x12000000 = .error .reservedBits ∧ decodeHost 0x3E000004 = .error .reservedBits := by decide
theorem test_decode_cmdData : decodeTw .first 0b01000000 = .ok .cmdData := by decide
theorem test_decode_cmdAddr : decodeTw .first 0b11000_101 = .ok (.cmdAddr 5) := by decide
theorem test_decode_cmdDispctl : decodeTw .first 0b1000_1_100 = .ok (.cmdDispctl 4 true) := by decide
theorem test_decode_data : decodeTw .afterAddr 0x40 = .ok (.data 0x40) := by decide
theorem test_decode_never_sent : decodeTw .first 0x41 = .error .neverSentByte ∧
    decodeTw .first 0x3F = .error .neverSentByte ∧ decodeTw .first 0xC8 = .error .neverSentByte ∧
    decodeTw .first 0x90 = .error .neverSentByte := by decide
theorem test_decode_srNoop : decodeSr 0x01 0x00AB = .ok (.srNoop 0xAB) := by decide
theorem test_decode_srDigits : decodeSr 0x01 0x0102 = .ok (.srDigit0 0x02) ∧ decodeSr 0x01 0x0204 = .ok (.srDigit1 0x04) ∧
    decodeSr 0x01 0x030A = .ok (.srDigit2 0x0A) ∧ decodeSr 0x01 0x040F = .ok (.srDigit3 0x0F) := by decide
theorem test_decode_srDecode : decodeSr 0x01 0x090F = .ok (.srDecode 0x0F) := by decide
theorem test_decode_srIntensity : decodeSr 0x01 0x0A08 = .ok (.srIntensity 0x08) := by decide
theorem test_decode_srScanlimit : decodeSr 0x01 0x0B03 = .ok (.srScanlimit 0x03) := by decide
theorem test_decode_srPower : decodeSr 0x01 0x0C01 = .ok (.srPower 0x01) := by decide
theorem test_decode_srTest : decodeSr 0x01 0x0F00 = .ok (.srTest 0x00) := by decide
theorem test_decode_unassigned : decodeSr 0x01 0x0500 = .error .unassignedAddress ∧
    decodeSr 0x01 0x0800 = .error .unassignedAddress ∧ decodeSr 0x01 0x0D00 = .error .unassignedAddress ∧
    decodeSr 0x01 0x0E00 = .error .unassignedAddress ∧ decodeSr 0x01 0x1000 = .error .unassignedAddress := by decide

/-! ## One step on a small state -/

/-- Reset with the default parameters, the six patterns of 95_test_vectors.md 2.3 in PBUF, ARG written, the next samples
answered `ls`, the platform inside its window and the shift-register port configured. -/
def ready (ls : List Level) (arg : Word := 0) : State :=
  { State.reset with
    arg := arg
    argWritten := true
    pbuf := #v[0x3F, 0x06, 0x5B, 0x4F, 0x66, 0x6D]
    pbufWritten := Vector.replicate 6 true
    answers := ls
    lines := { Lines.reset with srCfg := some 0 }
    dev := { Devices.reset with platformUp := true } }

/-- The next state seen through `f`, if there is one. -/
def seen {α : Type} (f : State → α) : Host.Outcome State Fault Refusal → Option α
  | .next t => some (f t)
  | .fault _ => none
  | .refused _ => none

/-- The data levels of a trace in wire order: SrDin (95_test_vectors.md T-SR1). -/
def srDins (as : List Action) : List Level := as.filterMap fun a => match a with
  | .srDin l => some l
  | _ => none

/-- T-P1, T-P4. -/
theorem test_start_stop :
    startActions = [.dioOut, .dio true, .clk true, .wait .tBit, .dio false, .wait .tBit] ∧
    stopActions = [.clk false, .wait .tBit, .dio false, .wait .tBit, .clk true, .wait .tBit, .dio true,
      .wait .tBit] := by decide

/-- T-P2, T-P3. -/
theorem test_bit_ack :
    bitActions true = [.clk false, .dio true, .wait .tBit, .clk true, .wait .tBit] ∧
    (ackPhase (ready [true])).2.trace =
      [.clk false, .dioIn, .wait .tBit, .clk true, .wait .tBit, .sample true, .clk false, .dioOut] := by decide

/-- T-P6: the first 16 and the last 17 of the 63 actions of `tw.config 4, 1`, and the lines after it. -/
theorem test_twConfig :
    seen (fun t => (t.trace.take 16, t.trace.drop 46, t.trace.length, t.rc)) (exec (.twConfig 4 true) (ready [false])) =
      some ([.dioOut, .dio true, .clk true, .wait .tBit, .dio false, .wait .tBit,
          .clk false, .dio false, .wait .tBit, .clk true, .wait .tBit,
          .clk false, .dio false, .wait .tBit, .clk true, .wait .tBit],
        [.clk false, .dioIn, .wait .tBit, .clk true, .wait .tBit, .sample false, .clk false, .dioOut,
          .clk false, .wait .tBit, .dio false, .wait .tBit, .clk true, .wait .tBit, .dio true, .wait .tBit,
          .wait .tBurst], 63, .ok) := by decide +kernel

/-- T-TW14: a nak does not stop TW_CONFIG; T-TW2: brightness 15 is sent as 7. -/
theorem test_twConfig_nak :
    seen (fun t => (t.trace, t.rc)) (exec (.twConfig 7 false) (ready [true])) =
      some (sentFrame [0x87] [true], .ok) ∧
    seen (fun t => t.trace) (exec (.twConfig 15 false) (ready [false])) = some (sentFrame [0x87] [false]) := by
  decide +kernel

/-- T-TW21. -/
theorem test_twInit_twDeinit :
    seen (fun t => (t.trace, t.rc)) (exec .twInit State.reset) = some ([.pInit], .ok) ∧
    seen (fun t => (t.trace, t.rc)) (exec .twDeinit State.reset) = some ([.pDeinit], .ok) := by decide

/-- T-TW15, T-TW16. -/
theorem test_twSetdigit :
    seen (fun t => (t.trace, t.rc)) (exec (.twSetdigit 0x5B 2) (ready [false, false, false])) =
      some (sentFrame [0x40] [false] ++ sentFrame [0xC2, 0x5B] [false, false], .ok) ∧
    seen (fun t => (t.trace, t.rc)) (exec (.twSetdigit 0x5B 6) (ready [])) = some ([], .invalidAddress) := by
  decide +kernel

/-- T-TW6: clamped to 2. -/
theorem test_twSetdigits_clamp :
    seen (fun t => (t.trace, t.rc)) (exec (.twSetdigits 4 5) (ready (List.replicate 4 false))) =
      some (sentFrame [0x40] [false] ++ sentFrame [0xC4, 0x3F, 0x06] [false, false, false], .ok) := by decide +kernel

/-- T-TW13: the nak of 0x06; the lines after it. -/
theorem test_twSetdigits_nak :
    seen (fun t => (t.trace, t.rc, t.lines.twClk, t.lines.twDioDir, t.lines.twDioOut))
        (exec (.twSetdigits 0 3) (ready [false, false, false, true])) =
      some (sentFrame [0x40] [false] ++ brokenFrame [0xC0, 0x3F, 0x06] [false, false, true], .ackFailure,
        false, .out, false) := by decide +kernel

/-- T-TW17, T-TW18. -/
theorem test_twSethex :
    seen (fun t => (t.trace, t.rc)) (exec (.twSethex 0x41 true 5) (ready [false, false, false])) =
      some (sentFrame [0x40] [false] ++ sentFrame [0xC5, 0xF7] [false, false], .ok) ∧
    seen (fun t => t.trace) (exec (.twSethex 0x30 true 0) (ready [false, false, false])) =
      some (sentFrame [0x40] [false] ++ sentFrame [0xC0, 0x00] [false, false]) := by decide +kernel

/-- T-TW20, T-SR6: the model faults. -/
theorem test_unwritten_operands :
    exec (.twSetdigits 2 2) { State.reset with pbufWritten := #v[true, false, false, false, false, false] } =
      .fault .pbufUnwritten ∧
    exec .srDispnum State.reset = .fault .argUnwritten := ⟨rfl, rfl⟩

/-- T-SEG1 to T-SEG18. -/
theorem test_encode :
    [(0x00, false), (0x00, true), (0x08, true), (0x09, false), (0x0A, false), (0x0F, true), (0x41, false), (0x61, true),
      (0x64, false), (0x10, true), (0x30, false), (0x39, true), (0x46, false), (0x47, false), (0x60, false),
      (0x66, true), (0x67, true), (0xFF, true)].map (fun x => segByte Config.default x.1 x.2) =
    [0x3F, 0xBF, 0xFF, 0x6F, 0x77, 0xF1, 0x77, 0xF7, 0x5E, 0x00, 0x00, 0x00, 0x71, 0x00, 0x00, 0xF1, 0x00, 0x00] := by
  decide

/-- T-SEG16 as a command. -/
theorem test_segEncode :
    seen (fun t => (t.encout, t.rc, t.trace)) (exec (.segEncode 0x66 true) State.reset) = some (0xF1, .ok, []) := by
  decide

/-- T-SR3. -/
theorem test_srInit : seen (fun t => t.trace) (exec .srInit State.reset) =
    some [.srCfg State.reset.cfg.srRate, .srClk false, .srLoad true] := rfl

/-- T-SR1. -/
theorem test_srWritereg :
    seen (fun t => (srDins t.trace, t.trace.length, t.trace.drop 45)) (exec (.srWritereg 0x0A 0x08) State.reset) =
      some ([false, false, false, false, true, false, true, false, false, false, false, false, true, false, false, false],
        50, [.srDin false, .srClk true, .srClk false, .srLoad false, .srLoad true]) := by decide +kernel

/-- T-SR4; P5: the chip's digit registers after it. -/
theorem test_srClear :
    seen (fun t => (t.trace, t.dev.sr.digits)) (exec .srClear (ready [])) =
      some (sentWords [(0x01, 0x0F), (0x02, 0x0F), (0x03, 0x0F), (0x04, 0x0F)], #v[0x0F, 0x0F, 0x0F, 0x0F]) := by
  decide +kernel

/-- T-SR5. -/
theorem test_display_codes :
    [0, 5, -5, -1, 10, -10, -42, 100, 1000].map (displayCodes Config.default) =
      [[0x00, 0x0F, 0x0F, 0x0F], [0x05, 0x0F, 0x0F, 0x0F], [0x05, 0x0A, 0x0F, 0x0F], [0x01, 0x0A, 0x0F, 0x0F],
        [0x00, 0x01, 0x0F, 0x0F], [0x00, 0x01, 0x0A, 0x0F], [0x02, 0x04, 0x0A, 0x0F], [0x00, 0x00, 0x01, 0x0F],
        [0x00, 0x00, 0x00, 0x01]] ∧
    [-123, -999, 1234, -1234, 9999, 12345, 2147483647, -2147483648].map (displayCodes Config.default) =
      [[0x03, 0x02, 0x01, 0x0A], [0x09, 0x09, 0x09, 0x0A], [0x04, 0x03, 0x02, 0x01], [0x04, 0x03, 0x02, 0x01],
        [0x09, 0x09, 0x09, 0x09], [0x05, 0x04, 0x03, 0x02], [0x07, 0x04, 0x06, 0x03], [0x08, 0x04, 0x06, 0x03]] := by
  decide +kernel

/-- P4, its last command: ARG = -42. -/
theorem test_srDispnum :
    seen (fun t => (t.trace, t.lines.srDin, t.dev.sr.digits)) (exec .srDispnum (ready [] 0xFFFFFFD6)) =
      some (sentWords [(0x01, 0x02), (0x02, 0x04), (0x03, 0x0A), (0x04, 0x0F)], true, #v[0x02, 0x04, 0x0A, 0x0F]) := by
  decide +kernel

/-- P1, its last command, through the wires: DREG[1..4] and PTR. -/
theorem test_chip_digits :
    seen (fun t => (t.dev.tw.dreg.getD 1 0, t.dev.tw.dreg.getD 4 0, t.dev.tw.ptr, t.dev.tw.autoInc))
        (exec (.twSetdigits 1 4) (ready (List.replicate 6 false))) = some (0x3F, 0x4F, 5, true) := by decide +kernel

/-- P1, `tw.config 7, 1` through the wires. -/
theorem test_chip_config :
    seen (fun t => (t.dev.tw.bri, t.dev.tw.on)) (exec (.twConfig 7 true) (ready [false])) = some (7, true) := by
  decide +kernel

/-- P4, `sr.writereg 0x0B, 0x03` through the wires. -/
theorem test_chip_register :
    seen (fun t => (t.dev.sr.scanLimit, t.dev.sr.shift)) (exec (.srWritereg 0x0B 0x03) (ready [])) =
      some (0x03, 0x0B03) := by decide +kernel

/-- The chip with AUTOINC = 1 and PTR at a digit. -/
def autoIncAt (a : Nat) : State :=
  onDevices (fun d => { d with tw := { d.tw with ptr := a, autoInc := true } }) State.reset

/-- 43_attached_devices.md R222 to R225. -/
theorem test_chip_bytes :
    seen (fun t => t.dev.tw.autoInc) (exec .cmdData State.reset) = some true ∧
    seen (fun t => t.dev.tw.ptr) (exec (.cmdAddr 5) State.reset) = some 5 ∧
    seen (fun t => (t.dev.tw.bri, t.dev.tw.on)) (exec (.cmdDispctl 4 true) State.reset) = some (4, true) ∧
    seen (fun t => (t.dev.tw.dreg.getD 0 0, t.dev.tw.ptr)) (exec (.data 0x5B) (autoIncAt 0)) = some (0x5B, 1) := by
  decide +kernel

/-- 43_attached_devices.md R231 to R234. -/
theorem test_chip_words :
    seen (fun t => t.dev.sr) (exec (.srNoop 0xAB) State.reset) = some State.reset.dev.sr ∧
    seen (fun t => t.dev.sr.digits) (exec (.srDigit0 1) State.reset) = some #v[1, 0, 0, 0] ∧
    seen (fun t => t.dev.sr.digits) (exec (.srDigit1 2) State.reset) = some #v[0, 2, 0, 0] ∧
    seen (fun t => t.dev.sr.digits) (exec (.srDigit2 3) State.reset) = some #v[0, 0, 3, 0] ∧
    seen (fun t => t.dev.sr.digits) (exec (.srDigit3 4) State.reset) = some #v[0, 0, 0, 4] ∧
    seen (fun t => t.dev.sr.decode) (exec (.srDecode 5) State.reset) = some 5 ∧
    seen (fun t => t.dev.sr.intensity) (exec (.srIntensity 6) State.reset) = some 6 ∧
    seen (fun t => t.dev.sr.scanLimit) (exec (.srScanlimit 7) State.reset) = some 7 ∧
    seen (fun t => t.dev.sr.power) (exec (.srPower 1) State.reset) = some 1 ∧
    seen (fun t => t.dev.sr.test) (exec (.srTest 1) State.reset) = some 1 := by decide +kernel

/-- 95_test_vectors.md T-ENC3: the word 0 written to CMD. -/
theorem test_command_rejected :
    seen (fun t => (t.rc, t.trace, statusWord t)) (step { State.reset with inputs := [.hostWrite 0 4 0] }) =
      some (.illegalCommand, [], 3) := by decide

/-- 95_test_vectors.md P1, line 5: the store of a pattern; bits 31:8 ignored (10_state.md R26). -/
theorem test_pbuf_write :
    seen (fun t => (readPbuf 0 t, pbufIsWritten 0 t)) (step { State.reset with inputs := [.hostWrite 0x10 4 0xFFFFFF3F] }) =
      some (0x3F, true) := by decide

/-- 70_reset_and_hazards.md R284: with an operation in flight a write is refused, STATUS reads BUSY. -/
def flying : State :=
  { ready [false] with
    cfg := { Config.default with grain := .action }
    rc := .ackFailure
    seq := some (inFlightOf 0x31000004 (.twConfig 4 true) State.reset) }

theorem test_busy :
    step { flying with inputs := [.hostWrite 4 4 0] } = .refused .accessWhileBusy ∧
    seen (fun t => t.hostData) (step { flying with inputs := [.hostRead 8 4] }) = some 0x102 := ⟨rfl, by decide⟩

/-! ## Witnesses: states and operands that meet the hypotheses of the statements -/

/-- `ready` with one input to come. -/
def withInput (e : Input) : State := { ready (List.replicate 8 false) with inputs := [e] }

/-- An operation in flight with one input to come. -/
def busyWith (i : Instr) (w : Word) (e : Input) : State :=
  { withInput e with seq := some (inFlightOf w i (withInput e)) }

theorem witness_StepRunsTheDecodedInstruction :
    (∃ (s : State) (rest : List Input) (w : Word) (i : Instr), s.inputs = .hostWrite 0x00 4 w :: rest ∧ s.seq = none ∧ s.cfg.grain = .operation ∧
      decodeHost w = .ok i) ∧
    (∃ (s : State) (rest : List Input) (w : Word) (i : Instr), s.inputs = .hostWrite 0x00 4 w :: rest ∧ s.seq = none ∧
      s.cfg.grain = .action ∧ decodeHost w = .ok i) ∧
    (∃ (s : State) (rest : List Input) (b : Byte) (i : Instr), s.inputs = .twByte b :: rest ∧ s.seq = none ∧ s.dev.tw.rx.active = true ∧
      decodeTw s.dev.tw.rx.pos b = .ok i) ∧
    (∃ (s : State) (rest : List Input) (w : BitVec 16) (i : Instr), s.inputs = .srWord w :: rest ∧ s.seq = none ∧
      decodeSr s.cfg.digitRegBase w = .ok i) :=
  ⟨⟨withInput (.hostWrite 0 4 0x10000000), [], 0x10000000, .twInit, rfl, rfl, rfl, by decide⟩,
    ⟨{ withInput (.hostWrite 0 4 0x10000000) with cfg := { Config.default with grain := .action } }, [], 0x10000000,
      .twInit, rfl, rfl, rfl, by decide⟩,
    ⟨State.reset.withFetchWord 8 0x8C, [], 0x8C, .cmdDispctl 4 true, rfl, rfl, rfl, by decide⟩,
    ⟨withInput (.srWord 0x0102), [], 0x0102, .srDigit0 2, rfl, rfl, by decide⟩⟩

theorem witness_IdleBlockWaits : State.reset.inputs = [] ∧ State.reset.seq = none := ⟨rfl, rfl⟩

theorem witness_HostReadsReturnTheRegisters : ∀ off ∈ [0x00, 0x04, 0x08, 0x0C, 0x10, 0x24, 0x28, 0x3C],
    (withInput (.hostRead off 4)).inputs = .hostRead off 4 :: [] ∧ (withInput (.hostRead off 4)).seq = none ∧
    off % 4 = 0 ∧ off < 0x40 := by decide

theorem witness_HostWritesStoreOnlyArgAndPbuf : ∀ off ∈ [0x04, 0x08, 0x0C, 0x10, 0x24, 0x28, 0x3C],
    (withInput (.hostWrite off 4 5)).inputs = .hostWrite off 4 5 :: [] ∧ (withInput (.hostWrite off 4 5)).seq = none ∧
    off % 4 = 0 ∧ 0 < off ∧ off < 0x40 := by decide

theorem witness_BusyHostMayOnlyReadStatus : ∀ off ∈ [0x00, 0x04, 0x3C],
    (busyWith .srClear 0xA0000000 (.hostRead off 4)).seq ≠ none ∧ off % 4 = 0 ∧ off < 0x40 ∧ off ≠ 0x08 ∧
    (busyWith .srClear 0xA0000000 (.hostRead off 4)).inputs = .hostRead off 4 :: [] ∧
    (busyWith .srClear 0xA0000000 (.hostRead 0x08 4)).inputs = .hostRead 0x08 4 :: [] ∧
    (busyWith .srClear 0xA0000000 (.hostWrite off 4 1)).inputs = .hostWrite off 4 1 :: [] := by
  intro off h
  refine ⟨Option.some_ne_none _, ?_, ?_, ?_, rfl, rfl, rfl⟩ <;> revert off <;> decide

theorem witness_MisalignedOrNarrowAccessIsRefused :
    (2 % 4 ≠ 0 ∨ 4 ≠ 4) ∧ (4 % 4 ≠ 0 ∨ 2 ≠ 4) ∧ (withInput (.hostRead 2 4)).inputs = .hostRead 2 4 :: [] ∧
    (withInput (.hostWrite 4 2 0)).inputs = .hostWrite 4 2 0 :: [] := by decide

theorem witness_HostWaitPollsUntilIdle :
    (withInput .hostWait).inputs = .hostWait :: [] ∧ (withInput .hostWait).seq = none ∧
    (busyWith .srClear 0xA0000000 .hostWait).inputs = .hostWait :: [] ∧
    (busyWith .srClear 0xA0000000 .hostWait).seq ≠ none := ⟨rfl, rfl, rfl, Option.some_ne_none _⟩

theorem witness_PlatformResetRestoresTheBlock : (withInput .platformReset).inputs = .platformReset :: [] := rfl

theorem witness_ReservedCommandWordsAreRejected :
    (∀ w : Word, (withInput (.hostWrite 0 4 w)).inputs = .hostWrite 0x00 4 w :: [] ∧
      (withInput (.hostWrite 0 4 w)).seq = none) ∧
    fieldRsv 0x12000000 ≠ 0 ∧ (fieldOp 0x0FFFFFFF).toNat = 0 ∧ 0xC ≤ (fieldOp 0xC0000000).toNat ∧
    fieldRsv 0x10000000 = 0 ∧ 1 ≤ (fieldOp 0x10000000).toNat ∧ fieldRsv 0xB1FFFFFF = 0 ∧
    (fieldOp 0xB1FFFFFF).toNat ≤ 0xB := ⟨fun _ => ⟨rfl, rfl⟩, by decide⟩

theorem witness_OpcodeMapDecodesEveryWord : ∀ op ∈ List.range 16, ∃ w m : Word, m = w &&& 0xFE000000 ∧
    m = BitVec.ofNat 32 (op * 2 ^ 28) := by
  intro op h
  refine ⟨BitVec.ofNat 32 (op * 2 ^ 28), BitVec.ofNat 32 (op * 2 ^ 28), ?_, rfl⟩
  revert op; decide

theorem witness_UnlistedFieldsAreIgnored : ∀ op ∈ [0x1, 0x2, 0x3, 0x4, 0x5, 0x6, 0x7, 0x8, 0x9, 0xA, 0xB],
    ∃ w w' : Word, w ≠ w' ∧ fieldRsv w = 0 ∧ fieldRsv w' = 0 ∧ fieldOp w = fieldOp w' ∧ (fieldOp w).toNat = op ∧
      (op ∈ [0x3, 0x4, 0x6, 0x7, 0x9] → fieldV w = fieldV w') ∧ (op ∈ [0x3, 0x6, 0x7] → fieldF w = fieldF w') ∧
      (op ∈ [0x4, 0x5, 0x6, 0x9] → fieldA w = fieldA w') ∧ (op = 0x5 → fieldC w = fieldC w') := by
  intro op h
  refine ⟨BitVec.ofNat 32 (op * 2 ^ 28),
    BitVec.ofNat 32 (op * 2 ^ 28 + if op = 5 then 0xFF else 0xFF0000), ?_⟩
  revert op; decide

theorem witness_DecodeOfEncodeIsTheInstruction : digitBaseOk 0x01 = true ∧ digitBaseOk 0xFC = true ∧
    wellFormed (.twSetdigits 255 255) = true ∧ wellFormed (.cmdAddr 7) = true ∧ wellFormed (.srDigit3 1) = true := by
  decide

theorem witness_DecodedInstructionsAreWellFormed : digitBaseOk 0x01 = true ∧
    decodeCode 0x01 (.host 0x5F) = .error .reservedOpcode ∧ decodeCode 0x01 (.host 0x50FFFFFF) = .ok (.twSetdigits 255 255) ∧
    decodeCode 0x01 (.tw .first 0xC7) = .ok (.cmdAddr 7) ∧ decodeCode 0x01 (.sr 0x0FFF) = .ok (.srTest 0xFF) := by decide

theorem witness_PseudoInstructionsExpand :
    ((-2147483648 : Int) ≤ -2147483648 ∧ (-2147483648 : Int) ≤ 2147483647) ∧
    (([] : List Nat).length ≤ 6 ∧ (List.replicate 6 (2 ^ 32 - 1)).length ≤ 6 ∧
      ∀ p ∈ List.replicate 6 (2 ^ 32 - 1), p < 2 ^ 32) ∧ 7 ≤ (List.replicate 7 0x3F).length := by decide

theorem witness_SegEncodeWritesOnlyEncout :
    (∀ v ∈ [(0x10 : Byte), 0x40, 0x47, 0x60, 0x67, 0xFF],
      0x10 ≤ v.toNat ∧ v.toNat ≤ 0x40 ∨ 0x47 ≤ v.toNat ∧ v.toNat ≤ 0x60 ∨ 0x67 ≤ v.toNat) ∧
    fieldRsv 0x71FFFF66 = 0 ∧ fieldOp 0x71FFFF66 = 0x7 := by decide

theorem witness_EncodeLooksUpTheTable :
    ((0 : Int) ≤ 0 ∧ (15 : Int) ≤ 15) ∧ ((0x41 : Int) ≤ 0x41 ∧ (0x46 : Int) ≤ 0x46) ∧
    ((0x61 : Int) ≤ 0x61 ∧ (0x66 : Int) ≤ 0x66) ∧
    ∀ v ∈ [(-1 : Int), 16, 0x40, 0x47, 0x60, 0x67, 1000],
      ¬ (0 ≤ v ∧ v ≤ 15) ∧ ¬ (0x41 ≤ v ∧ v ≤ 0x46) ∧ ¬ (0x61 ≤ v ∧ v ≤ 0x66) := by decide

theorem segTable_default : SegTableOk Config.default := by
  have h : ∀ j, j < 16 → ∀ k, k < 16 → segEntry Config.default j = segEntry Config.default k → j = k := by
    decide +kernel
  exact ⟨⟨by decide +kernel, fun j k hj hk => h j hj k hk⟩, by decide +kernel⟩

theorem witness_EncodeKeepsEntryAndDecimalPoint : SegTableDistinct Config.default ∧
    hexNibble ((0x66 : Byte).toNat : Int) = some 15 ∧ hexNibble ((0x67 : Byte).toNat : Int) = none :=
  ⟨segTable_default.1, by decide, by decide⟩

theorem witness_EncoderRomIsReadOnly : step State.reset = .next State.reset ∧ SegTableOk Config.default ∧
    hexNibble ((0x66 : Byte).toNat : Int) = some 15 := ⟨rfl, segTable_default, by decide⟩

theorem witness_EncodeIsCaseInsensitive : 0 < 6 ∧ 5 < 6 := by decide

theorem acked (k : Nat) (hk : k ≤ 8) : AllAck k (ready (List.replicate 8 false)) := by
  have h : ∀ i, i < 8 → oracleAt i (ready (List.replicate 8 false)) = false := by decide
  exact fun i hi => h i (by omega)

theorem allWritten (k : Nat) (hk : k ≤ 6) (ls : List Level) : PbufReady k (ready ls) := by
  have h : ∀ i, i < 6 → pbufIsWritten i State.reset = false ∧ (Vector.replicate 6 true).getD i false = true := by decide
  exact fun i hi => (h i (by omega)).2

theorem nak (j : Nat) (hj : j ≤ 7) : FirstNak j (ready (List.replicate j false ++ [true])) := by
  have h : ∀ j, j ≤ 7 → (∀ i, i < j → oracleAt i (ready (List.replicate j false ++ [true])) = false) ∧
      oracleAt j (ready (List.replicate j false ++ [true])) ≠ false := by decide +kernel
  exact h j hj

theorem witness_AcknowledgedDigitWritesSendBothFrames : ∀ a ∈ [0, 5], a < 6 ∧
    AllAck 3 (ready (List.replicate 8 false)) ∧ PbufReady (clampCount a 10) (ready (List.replicate 8 false)) ∧
    AllAck (clampCount a 10 + 2) (ready (List.replicate 8 false)) := by
  intro a h
  have hc : a < 6 ∧ clampCount a 10 ≤ 6 := by revert a; decide
  exact ⟨hc.1, acked 3 (by omega), allWritten _ hc.2 _, acked _ (by omega)⟩

theorem witness_SetdigitsClampsTheCount : AllAck 8 (ready (List.replicate 8 false)) ∧
    PbufReady 6 (ready (List.replicate 8 false)) ∧ 0 + 6 ≤ 6 ∧ 6 < 5 + 2 ∧ 6 ≤ 6 :=
  ⟨acked 8 (by omega), allWritten 6 (by omega) _, by omega, by omega, by omega⟩

theorem witness_FirstNakEndsADigitWrite : ∀ j, j ≤ 7 → 0 < 6 ∧ FirstNak j (ready (List.replicate j false ++ [true])) ∧
    j ≤ clampCount 0 6 + 1 ∧ PbufReady (clampCount 0 6) (ready (List.replicate j false ++ [true])) := by
  intro j hj
  have hc : clampCount 0 6 = 6 := by decide
  exact ⟨by omega, nak j hj, by omega, allWritten _ (by omega) _⟩

theorem witness_InvalidAddressComesBeforeAnyAction : 6 ≤ 6 ∧ 6 ≤ 255 := by decide

theorem witness_SrInitConfiguresThePort : State.reset.lines.srLoad = true := rfl

theorem witness_SrDispnumWritesFourPositions : (ready []).argWritten = true := rfl

theorem witness_DisplayCodesShowTheNumber :
    (3 < 4 ∧ 10 ^ 3 ≤ (-1234 : Int).natAbs) ∧
    ((-5 : Int) < 0 ∧ 1 ≤ 1 ∧ (-5 : Int).natAbs < 10 ^ 1) ∧
    ((-999 : Int) < 0 ∧ (-999 : Int).natAbs < 10 ^ 3 ∧ 10 ^ (3 - 1) ≤ (-999 : Int).natAbs) ∧
    ((-5 : Int) < 0 ∧ 2 ≤ 2 ∧ (-5 : Int).natAbs < 10 ^ (2 - 1)) ∧
    ((0 : Int) ≤ 0 ∧ 1 ≤ 1 ∧ (0 : Int).natAbs < 10 ^ 1) := by decide

theorem witness_ShiftRegisterOperationsNeverFail : (ready []).argWritten = true := rfl

theorem witness_TwoWireCommandsSetTheChip : 0 < 6 ∧ 5 < 6 := by decide

/-- The chip at its last digit with AUTOINC = 1. -/
theorem witness_DataByteWritesTheAddressedDigit :
    ∃ s : State, s.dev.tw.ptr = 5 ∧ s.dev.tw.ptr < 6 ∧ s.dev.tw.autoInc = true :=
  ⟨autoIncAt 5, rfl, by decide, rfl⟩

theorem witness_ShiftRegisterWordsWriteOneRegister (v : Byte) :
    (Instr.srTest v, SrReg.test) ∈ [(Instr.srNoop v, SrReg.noop), (.srDigit0 v, .digit 0), (.srDigit1 v, .digit 1),
      (.srDigit2 v, .digit 2), (.srDigit3 v, .digit 3), (.srDecode v, .decode), (.srIntensity v, .intensity),
      (.srScanlimit v, .scanLimit), (.srPower v, .power), (.srTest v, .test)] := by simp

theorem witness_AcknowledgedDigitWriteReachesTheDigits : ∀ a ∈ [0, 5], ∃ s t1 t2 t3 : State, a < 6 ∧
    s.dev.twWired s.cfg = true ∧ AllAck (clampCount a 6 + 2) s ∧ AllAck 3 s ∧ exec (.twSetdigits a 6) s = .next t1 ∧
    exec (.twSetdigit 0x3F a) s = .next t2 ∧ exec (.twSethex 0x41 true a) s = .next t3 := by
  intro a h
  have hc : a < 6 ∧ clampCount a 6 ≤ 6 := by revert a; decide
  have hf : pbufFault (clampCount a 6) (ready (List.replicate 8 false)) = false := by revert a; decide
  exact ⟨ready (List.replicate 8 false), _, _, _, hc.1, rfl, acked _ (by omega), acked _ (by omega),
    if_neg fun h => by rw [hf] at h; exact absurd h.2 (by decide), rfl, rfl⟩

theorem witness_AcknowledgedConfigReachesTheChip : ∃ s t : State, s.dev.twWired s.cfg = true ∧ AllAck 1 s ∧
    exec (.twConfig 7 true) s = .next t := ⟨ready (List.replicate 8 false), _, rfl, acked 1 (by omega), rfl⟩

theorem witness_SrWriteregReachesTheRegister : ∀ a ∈ [(0x00 : Byte), 0x01, 0x04, 0x0F], ∃ (r : SrReg) (s t : State),
    srWired s.cfg s.lines = true ∧ s.lines.srClk = false ∧ srRegAt s.cfg.digitRegBase a = some r ∧
    exec (.srWritereg a 3) s = .next t := by
  intro a h
  have hr : ∃ r, srRegAt 0x01 a = some r := by
    simp only [List.mem_cons, List.mem_nil_iff, or_false] at h
    rcases h with rfl | rfl | rfl | rfl
    exacts [⟨.noop, rfl⟩, ⟨.digit 0, rfl⟩, ⟨.digit 3, rfl⟩, ⟨.test, rfl⟩]
  obtain ⟨r, hr⟩ := hr
  exact ⟨r, ready [], _, rfl, rfl, hr, rfl⟩

theorem witness_SingleMovesMakeTheWholeOperation : decodeHost 0xA0000000 = .ok .srClear ∧
    (∃ t, exec .srClear State.reset = .next t) ∧ decodeHost 0xB0000000 = .ok .srDispnum ∧
    exec .srDispnum State.reset = .fault .argUnwritten := ⟨by decide, ⟨_, rfl⟩, by decide, rfl⟩

theorem witness_RcIsWrittenOnlyAtCompletion : operandFault .srClear State.reset = none ∧
    (∃ (s : State) (f : InFlight), s.seq = some f ∧ f.todo ≠ []) ∧
    (∃ (s : State) (f : InFlight), s.seq = some f ∧ f.todo = []) :=
  ⟨rfl, ⟨flying, _, rfl, by decide⟩, ⟨busyWith (.segEncode 0 false) 0x70000000 .engine, _, rfl, rfl⟩⟩

theorem witness_EveryOperationCompletes : ∃ (s : State) (f : InFlight), s.seq = some f ∧ f.todo.length + 1 ≤ 64 :=
  ⟨flying, _, rfl, by decide⟩

theorem witness_AnotherDriverDuringAnOperationIsRefused :
    (∃ (s : State) (f : InFlight) (b : Byte), s.seq = some f ∧ usesTwPort f.instr = true ∧
      betweenFrames s.cfg f = false ∧ s.inputs = .twByte b :: []) ∧
    (∃ (s : State) (f : InFlight) (w : BitVec 16), s.seq = some f ∧ usesSrPort f.instr = true ∧
      s.inputs = .srWord w :: []) :=
  ⟨⟨busyWith (.twConfig 4 true) 0x31000004 (.twByte 0), _, 0, rfl, rfl, rfl, rfl⟩,
    ⟨busyWith (.srWritereg 0 0) 0x90000000 (.srWord 0), _, 0, rfl, rfl, rfl⟩⟩

/-- For the statements about every instruction's next state: one of each kind has one. -/
theorem witness_InstructionsKeepTheHostOperands : ∃ t1 t2 t3 t4 t5 : State,
    exec (.twConfig 4 true) State.reset = .next t1 ∧ exec (.segEncode 1 true) State.reset = .next t2 ∧
    exec .srClear State.reset = .next t3 ∧ exec (.data 1) State.reset = .next t4 ∧
    exec (.srPower 1) State.reset = .next t5 := ⟨_, _, _, _, _, rfl, rfl, rfl, rfl, rfl⟩

theorem witness_EachPortLeavesTheOtherAlone :
    (usesTwPort .twInit = true ∧ ∃ t, exec .twInit State.reset = .next t) ∧
    (usesTwPort .srClear = false ∧ usesSrPort .srClear = true ∧ ∃ t, exec .srClear State.reset = .next t) ∧
    (usesTwPort (.data 1) = false ∧ usesSrPort (.data 1) = false ∧ ∃ t, exec (.data 1) State.reset = .next t) ∧
    (∃ b pos, decodeTw pos b = .ok (.data 1)) ∧ (∃ w, decodeSr State.reset.cfg.digitRegBase w = .ok (.srPower 1)) :=
  ⟨⟨rfl, _, rfl⟩, ⟨rfl, rfl, _, rfl⟩, ⟨rfl, rfl, _, rfl⟩, ⟨1, .afterAddr, by decide⟩, ⟨0x0C01, by decide⟩⟩

theorem witness_TraceOnlyGrows : step State.reset = .next State.reset := rfl

theorem witness_EveryStepKeepsTheInvariant : (Inv State.reset ∧ step State.reset = .next State.reset) ∧
    (Inv flying ∧ ∃ t, step flying = .next t) :=
  ⟨⟨⟨rfl, by decide⟩, rfl⟩, ⟨⟨show planSafe flying.lines _ = true by decide +kernel, by decide⟩, _, rfl⟩⟩

theorem witness_ActionAndWaitCounts :
    0 < 6 ∧ AllAck 3 (ready (List.replicate 8 false)) ∧ PbufReady (clampCount 0 6) (ready (List.replicate 8 false)) ∧
    AllAck (clampCount 0 6 + 2) (ready (List.replicate 8 false)) ∧ 6 ≤ 6 ∧
    (∀ j, j ≤ 7 → FirstNak j (ready (List.replicate j false ++ [true])) ∧ j ≤ clampCount 0 6 + 1 ∧
      PbufReady (clampCount 0 6) (ready (List.replicate j false ++ [true]))) ∧
    (ready []).argWritten = true ∧ decodeHost 0 = .error .reservedOpcode ∧
    ([0x40] : List Byte).length = [false].length := by
  have hc : clampCount 0 6 = 6 := by decide
  exact ⟨by omega, acked 3 (by omega), allWritten _ (by omega) _, acked _ (by omega), by omega,
    fun j hj => ⟨nak j hj, by omega, allWritten _ (by omega) _⟩, rfl, by decide, rfl⟩

end Sys2Proof.Tests
end

section
/-! PROOF. Host accesses that are refused: the access check and the next input, each said once. -/

namespace Sys2Proof.Machine

/-- With an input waiting, one step takes that input off the list. -/
theorem step_of_inputs {s : State} {e : Input} {rest : List Input} (h : s.inputs = e :: rest) :
    step s = takeInput e { s with inputs := rest } := by
  simp only [step, nextMove, h]

/-- The check answers `badAccess` on exactly the accesses of 20_memory.md R59: it comes before the window and BUSY. -/
theorem accessStop_eq_badAccess_iff (off width : Nat) (statusRead : Bool) (s : State) :
    accessStop off width statusRead s = some (.inr .badAccess) ↔ off % 4 ≠ 0 ∨ width ≠ 4 := by
  unfold accessStop
  split_ifs with hbad
  · exact iff_of_true rfl hbad.symm
  all_goals exact iff_of_false (by simp) (mt Or.symm hbad)

theorem hostWrite_of_refusal {off width : Nat} {s : State} {r : Refusal} (v : Word)
    (h : accessStop off width false s = some (.inr r)) : hostWrite off width v s = .refused r := by
  simp only [hostWrite, h]

theorem hostRead_of_refusal {off width : Nat} {s : State} {r : Refusal}
    (h : accessStop off width (off == 0x08) s = some (.inr r)) : hostRead off width s = .refused r := by
  simp only [hostRead, h]

/-- Settles O7: the check refuses the access before any register is read or written, and the host read or write that
is the next input passes the refusal on. -/
theorem misalignedOrNarrowAccessIsRefused : Obligations.MisalignedOrNarrowAccessIsRefused := by
  intro s rest off width v hbad hinput
  rcases hinput with hread | hwrite
  · rw [step_of_inputs hread]
    exact hostRead_of_refusal ((accessStop_eq_badAccess_iff ..).2 hbad)
  · rw [step_of_inputs hwrite]
    exact hostWrite_of_refusal v ((accessStop_eq_badAccess_iff ..).2 hbad)

end Sys2Proof.Machine
end

section
/-! PROOF. The host command decoder: the match and mask of an opcode row, and one equation for each row. -/

namespace Sys2Proof

/-- The word is in the row of 30_encoding.md R81 with this OP: the reserved bits are 0 and OP is the row's. -/
def OpcodeRow (op : Nat) (w : Word) : Prop := fieldRsv w = 0 ∧ (fieldOp w).toNat = op

/-! ## The fields and the row mask as numbers -/

theorem fieldA_toNat (w : Word) : (fieldA w).toNat = w.toNat / 2 ^ 8 % 2 ^ 8 := by
  simp [fieldA, Nat.shiftRight_eq_div_pow]

theorem fieldC_toNat (w : Word) : (fieldC w).toNat = w.toNat / 2 ^ 16 % 2 ^ 8 := by
  simp [fieldC, Nat.shiftRight_eq_div_pow]

theorem fieldOp_toNat (w : Word) : (fieldOp w).toNat = w.toNat / 2 ^ 28 % 2 ^ 4 := by
  simp [fieldOp, Nat.shiftRight_eq_div_pow]

theorem fieldRsv_eq_zero_iff (w : Word) : fieldRsv w = 0 ↔ w.toNat / 2 ^ 25 % 2 ^ 3 = 0 := by
  simp [fieldRsv, ← BitVec.toNat_inj, Nat.shiftRight_eq_div_pow]

/-- The mask of R81 clears the bits below RSV. -/
theorem and_rowMask (w : Word) : w &&& (0xFE000000 : Word) = w >>> 25 <<< 25 := by
  apply BitVec.eq_of_getLsbD_eq
  intro i hi
  interval_cases i <;> simp

theorem and_rowMask_toNat (w : Word) : (w &&& 0xFE000000).toNat = w.toNat / 2 ^ 25 * 2 ^ 25 := by
  rw [and_rowMask, BitVec.toNat_shiftLeft, BitVec.toNat_ushiftRight, Nat.shiftRight_eq_div_pow,
    Nat.shiftLeft_eq, Nat.mod_eq_of_lt]
  have := w.isLt
  omega

/-- A word matches `OP << 28` under the mask exactly when it is in the row with that OP. -/
theorem and_rowMask_eq_iff (w : Word) {op : Nat} (hop : op < 16) :
    w &&& 0xFE000000 = BitVec.ofNat 32 (op * 2 ^ 28) ↔ OpcodeRow op w := by
  have hw := w.isLt
  rw [OpcodeRow, fieldRsv_eq_zero_iff, fieldOp_toNat, ← BitVec.toNat_inj, and_rowMask_toNat, BitVec.toNat_ofNat]
  omega

/-! ## The decoder, row by row -/

section
variable {w : Word}

theorem decodeHost_reservedBits (h : fieldRsv w ≠ 0) : decodeHost w = .error .reservedBits := if_pos h

theorem decodeHost_twInit (h : OpcodeRow 0x1 w) : decodeHost w = .ok .twInit := by
  simp [decodeHost, h.1, h.2]

theorem decodeHost_twDeinit (h : OpcodeRow 0x2 w) : decodeHost w = .ok .twDeinit := by
  simp [decodeHost, h.1, h.2]

theorem decodeHost_twConfig (h : OpcodeRow 0x3 w) : decodeHost w = .ok (.twConfig (fieldV w) (fieldF w)) := by
  simp [decodeHost, h.1, h.2]

theorem decodeHost_twSetdigit (h : OpcodeRow 0x4 w) :
    decodeHost w = .ok (.twSetdigit (fieldV w) (fieldA w).toNat) := by
  simp [decodeHost, h.1, h.2]

theorem decodeHost_twSetdigits (h : OpcodeRow 0x5 w) :
    decodeHost w = .ok (.twSetdigits (fieldA w).toNat (fieldC w).toNat) := by
  simp [decodeHost, h.1, h.2]

theorem decodeHost_twSethex (h : OpcodeRow 0x6 w) :
    decodeHost w = .ok (.twSethex (fieldV w) (fieldF w) (fieldA w).toNat) := by
  simp [decodeHost, h.1, h.2]

theorem decodeHost_segEncode (h : OpcodeRow 0x7 w) : decodeHost w = .ok (.segEncode (fieldV w) (fieldF w)) := by
  simp [decodeHost, h.1, h.2]

theorem decodeHost_srInit (h : OpcodeRow 0x8 w) : decodeHost w = .ok .srInit := by
  simp [decodeHost, h.1, h.2]

theorem decodeHost_srWritereg (h : OpcodeRow 0x9 w) : decodeHost w = .ok (.srWritereg (fieldA w) (fieldV w)) := by
  simp [decodeHost, h.1, h.2]

theorem decodeHost_srClear (h : OpcodeRow 0xA w) : decodeHost w = .ok .srClear := by
  simp [decodeHost, h.1, h.2]

theorem decodeHost_srDispnum (h : OpcodeRow 0xB w) : decodeHost w = .ok .srDispnum := by
  simp [decodeHost, h.1, h.2]

/-- The rows that R83 reserves. -/
theorem decodeHost_reservedOpcode {op : Nat} (h : OpcodeRow op w) (hop : op = 0 ∨ 0xC ≤ op) :
    decodeHost w = .error .reservedOpcode := by
  obtain ⟨hrsv, rfl⟩ := h
  rw [decodeHost, if_neg (not_not.2 hrsv)]
  split
  case h_12 => rfl
  all_goals omega

end

/-- Settles O11: a masked word that is `OP << 28` is in that row, whose equation says what it decodes to; a word that
matches no row has reserved bits or a reserved OP. -/
theorem opcodeMapDecodesEveryWord : Obligations.OpcodeMapDecodesEveryWord := by
  rintro w m rfl
  have row {op : Nat} (hop : op < 16) : w &&& 0xFE000000 = BitVec.ofNat 32 (op * 2 ^ 28) → OpcodeRow op w :=
    (and_rowMask_eq_iff w hop).1
  refine ⟨fun h => decodeHost_twInit (row (by decide) h), fun h => decodeHost_twDeinit (row (by decide) h),
    fun h => decodeHost_twConfig (row (by decide) h), fun h => ?_, fun h => ?_, fun h => ?_,
    fun h => decodeHost_segEncode (row (by decide) h), fun h => decodeHost_srInit (row (by decide) h),
    fun h => decodeHost_srWritereg (row (by decide) h), fun h => decodeHost_srClear (row (by decide) h),
    fun h => decodeHost_srDispnum (row (by decide) h), fun hnone => ?_⟩
  · rw [← fieldA_toNat]; exact decodeHost_twSetdigit (row (by decide) h)
  · rw [← fieldA_toNat, ← fieldC_toNat]; exact decodeHost_twSetdigits (row (by decide) h)
  · rw [← fieldA_toNat]; exact decodeHost_twSethex (row (by decide) h)
  · by_cases hrsv : fieldRsv w = 0
    · have hrow : OpcodeRow (fieldOp w).toNat w := ⟨hrsv, rfl⟩
      refine ⟨_, decodeHost_reservedOpcode hrow ?_⟩
      rw [(and_rowMask_eq_iff w (fieldOp w).isLt).2 hrow] at hnone
      -- Only the values of OP are left to go through: those of no row are the reserved ones.
      generalize fieldOp w = op at hnone
      revert op
      decide
    · exact ⟨_, decodeHost_reservedBits hrsv⟩

/-- Settles O12: both words are in one row, and the row's equation reads only the fields that R81 lists. -/
theorem unlistedFieldsAreIgnored : Obligations.UnlistedFieldsAreIgnored := by
  intro w w' hrsv hrsv' hop
  have rows {op : Nat} (h : (fieldOp w).toNat = op) : OpcodeRow op w ∧ OpcodeRow op w' :=
    ⟨⟨hrsv, h⟩, hrsv', hop ▸ h⟩
  simp only [List.mem_cons, List.not_mem_nil, or_false]
  refine ⟨?_, ?_, ?_, ?_, ?_⟩
  · rintro (h | h | h | h | h) <;> obtain ⟨hw, hw'⟩ := rows h
    · rw [decodeHost_twInit hw, decodeHost_twInit hw']
    · rw [decodeHost_twDeinit hw, decodeHost_twDeinit hw']
    · rw [decodeHost_srInit hw, decodeHost_srInit hw']
    · rw [decodeHost_srClear hw, decodeHost_srClear hw']
    · rw [decodeHost_srDispnum hw, decodeHost_srDispnum hw']
  · rintro (h | h) hV hF <;> obtain ⟨hw, hw'⟩ := rows h
    · rw [decodeHost_twConfig hw, decodeHost_twConfig hw', hV, hF]
    · rw [decodeHost_segEncode hw, decodeHost_segEncode hw', hV, hF]
  · rintro (h | h) hV hA <;> obtain ⟨hw, hw'⟩ := rows h
    · rw [decodeHost_twSetdigit hw, decodeHost_twSetdigit hw', hV, hA]
    · rw [decodeHost_srWritereg hw, decodeHost_srWritereg hw', hV, hA]
  · intro h hA hC
    obtain ⟨hw, hw'⟩ := rows h
    rw [decodeHost_twSetdigits hw, decodeHost_twSetdigits hw', hA, hC]
  · intro h hV hF hA
    obtain ⟨hw, hw'⟩ := rows h
    rw [decodeHost_twSethex hw, decodeHost_twSethex hw', hV, hF, hA]

end Sys2Proof
end

section
/-! PROOF. The bus primitives of the two-wire engine: START, STOP and TX_BYTE, action by action. -/

namespace Sys2Proof.Machine

@[simp] theorem emitAll_trace (as : List Action) (s : State) : (emitAll as s).trace = s.trace ++ as := by
  rw [emitAll_eq]

@[simp] theorem emitAll_lines (as : List Action) (s : State) : (emitAll as s).lines = s.lines.driveAll as := by
  rw [emitAll_eq]

/-- Settles O22: emitting a list appends it to the trace, and the two lists are those of R112 and R116. -/
theorem startAndStopActions : Obligations.StartAndStopActions :=
  fun s => ⟨emitAll_trace startActions s, emitAll_trace stopActions s⟩

/-- A list made of blocks of one length, read at the place of its i-th block. -/
theorem take_drop_flatMap {α β : Type} {f : α → List β} {k : Nat} (hf : ∀ x, (f x).length = k) (l : List α)
    (i : Nat) (hi : i < l.length) : ((l.flatMap f).drop (k * i)).take k = f l[i] := by
  induction l generalizing i with
  | nil => exact absurd hi (Nat.not_lt_zero i)
  | cons x xs ih =>
    cases i with
    | zero => simp [hf]
    | succ i =>
      have hskip : k * (i + 1) = (f x).length + k * i := by rw [hf, Nat.mul_succ, Nat.add_comm]
      rw [List.flatMap_cons, hskip, List.drop_length_add_append, List.getElem_cons_succ]
      exact ih i (Nat.lt_of_succ_lt_succ hi)

/-- The i-th block of a byte's actions is BIT of its bit i (R115, 20_memory.md R55). -/
theorem byteActions_block (x : Byte) {i : Nat} (hi : i < 8) :
    ((byteActions x).drop (5 * i)).take 5 = bitActions (x.getLsbD i) := by
  rw [byteActions, take_drop_flatMap (k := 5) (fun _ => rfl) _ i (by simpa using hi), List.getElem_range]

/-- Settles O23: TX_BYTE is one emission, of the byte's bits and the acknowledgment phase; the bits are eight blocks of
five actions. -/
theorem txByteSendsBitZeroFirst : Obligations.TxByteSendsBitZeroFirst := by
  intro x s
  have hlines : (txByte x s).2.lines = linesAfterNak x s.lines := by
    rw [txByte_eq, emitAll_lines, driveAll_sentByte, afterSamples_lines]
  refine ⟨byteActions x, oracleAt 0 s, by rw [txByte_eq], rfl, ?_, rfl, fun i hi => byteActions_block x hi,
    congrArg Lines.twDioOut hlines, congrArg Lines.twDioDir hlines⟩
  simp [txByte_eq, sentByte, ackOpen, ackClose]

end Sys2Proof.Machine
end

section
/-! PROOF. The digit writes of the two-wire engine: what WRITE_DIGITS leaves when every byte is acknowledged, and when
one is not (40_two_wire_engine.md R124, R128, R129). -/

namespace Sys2Proof.Machine

/-! ## The count and the operands -/

theorem clampCount_one {a : Nat} (ha : a < 6) : clampCount a 1 = 1 := by
  simp only [clampCount, twDigits]; omega

theorem clampCount_of_invalidAddress {a : Nat} (c : Nat) (ha : 6 ≤ a) : clampCount a c = 0 := by
  simp only [clampCount, twDigits]; omega

theorem clampCount_le (a c : Nat) : clampCount a c ≤ 6 := by
  simp only [clampCount, twDigits]; omega

theorem pbufFault_eq_false_iff (n : Nat) (s : State) : pbufFault n s = false ↔ PbufReady n s := by
  simp [pbufFault, PbufReady]

theorem PbufReady.mono {m n : Nat} {s : State} (h : PbufReady n s) (hmn : m ≤ n) : PbufReady m s :=
  fun i hi => h i (Nat.lt_of_lt_of_le hi hmn)

theorem AllAck.mono {m n : Nat} {s : State} (h : AllAck n s) (hmn : m ≤ n) : AllAck m s :=
  fun i hi => h i (Nat.lt_of_lt_of_le hi hmn)

/-- TW_SETDIGITS is a digit write once the entries that it reads have been written; for a bad address it reads none. -/
theorem exec_twSetdigits {a c : Nat} {s : State} (h : PbufReady (clampCount a c) s) :
    exec (.twSetdigits a c) s = .next (writeDigits (fun i => readPbuf i s) a c s) :=
  if_neg fun hfault => Bool.false_ne_true (((pbufFault_eq_false_iff _ s).2 h).symm.trans hfault.2)

/-! ## What a digit write leaves -/

theorem writeDigits_invalidAddress (pat : Nat → Byte) {a : Nat} (c : Nat) (s : State) (ha : 6 ≤ a) :
    writeDigits pat a c s = raise .invalidAddress s := if_pos ha

theorem finish_eq_twEnd (k : Nat) (acts : List Action) (s : State) :
    finish (emitAll acts (afterSamples k s)) = twEnd .ok k acts false s := rfl

theorem raise_abandonFrame_eq_twEnd (r : Result) (k : Nat) (acts : List Action) (s : State) :
    raise r (abandonFrame (emitAll acts (afterSamples k s))) = twEnd r k acts true s := rfl

/-- An operation made of two-wire actions leaves the lines where the actions drive them, and everything outside the
block but the two-wire chip as it was. -/
theorem twEnd_leaves (r : Result) (k : Nat) {acts : List Action} (lost : Bool) {ln : Lines} {s : State}
    (h : acts.all Action.isTw = true) (hln : s.lines.driveAll acts = ln) :
    ∃ d, OnlyTwChip s.dev d ∧ twEnd r k acts lost s = endsWith r k acts ln d s := by
  refine ⟨_, ?_, hln ▸ twEnd_eq r k acts lost s⟩
  have hseen := seeAll_onlyTw s.cfg s.lines acts s.dev h
  split
  · exact hseen.trans (twUnspecified_onlyTw _)
  · exact hseen

/-- The levels up to and with the first nak. -/
theorem levelsFrom_of_firstNak {i n : Nat} {s : State} (h : FirstNak (i + n) s) :
    levelsFrom i (n + 1) s = List.replicate n s.cfg.ackLevel ++ [!s.cfg.ackLevel] := by
  obtain ⟨hack, hnak⟩ := h
  have hlast : oracleAt (i + n) s = !s.cfg.ackLevel := Bool.eq_not_of_ne hnak
  rw [← levelsFrom_of_ack i n s fun k _ hk => hack k hk, ← hlast]
  simp [levelsFrom, List.range_succ]

/-- WRITE_DIGITS when every byte is acknowledged (R124). -/
theorem writeDigits_writesDigits (pat : Nat → Byte) {a c : Nat} {s : State} (ha : a < 6)
    (h : AllAck (clampCount a c + 2) s) : WritesDigits pat a c s (writeDigits pat a c s) := by
  have hmode : levelsFrom 0 1 s = [s.cfg.ackLevel] := levelsFrom_of_ack 0 1 s fun k _ hk => h k (by omega)
  have hdigits : levelsFrom 1 (clampCount a c + 1) s = List.replicate (clampCount a c + 1) s.cfg.ackLevel :=
    levelsFrom_of_ack 1 _ s fun k _ hk => h k (by omega)
  rw [writeDigits_ok pat a c s ha h, hmode, hdigits, finish_eq_twEnd]
  refine twEnd_leaves _ _ _ (by simp [isTw_sentFrame]) ?_
  rw [driveAll_append, driveAll_sentFrame _ _ (by simp), driveAll_sentFrame _ _ rfl]
  rfl

/-- WRITE_DIGITS whose CMD_DATA is not acknowledged (R118). -/
theorem writeDigits_breaksAt_zero (pat : Nat → Byte) {a c : Nat} {s : State} (ha : a < 6) (h : FirstNak 0 s) :
    BreaksAt 0 pat a c s (writeDigits pat a c s) := by
  have hmode : levelsFrom 0 1 s = [!s.cfg.ackLevel] := levelsFrom_of_firstNak h
  rw [writeDigits_nak_first pat a c s ha h, hmode, raise_abandonFrame_eq_twEnd]
  exact twEnd_leaves _ _ _ (isTw_brokenFrame _ _) (driveAll_brokenFrame _ _ rfl cmdDataByte rfl _)

/-- WRITE_DIGITS whose first nak is at byte `j + 1` of the digit frame, counted from 1 (R118). -/
theorem writeDigits_breaksAt_succ (pat : Nat → Byte) {j a c : Nat} {s : State} (ha : a < 6) (h : FirstNak (j + 1) s)
    (hj : j < clampCount a c + 1) : BreaksAt (j + 1) pat a c s (writeDigits pat a c s) := by
  have hmode : levelsFrom 0 1 s = [s.cfg.ackLevel] := levelsFrom_of_ack 0 1 s fun k _ hk => h.1 k (by omega)
  have hbytes : j < (digitFrameBytes pat a (clampCount a c)).length := by simpa using hj
  have hlast : ((digitFrameBytes pat a (clampCount a c)).take (j + 1)).getLast? =
      some ((digitFrameBytes pat a (clampCount a c)).getD j 0) := by
    simp [List.getLast?_take, List.getElem?_eq_getElem hbytes]
  rw [writeDigits_nak j pat a c s ha h hj, hmode, levelsFrom_of_firstNak (by rwa [Nat.add_comm]),
    raise_abandonFrame_eq_twEnd]
  refine twEnd_leaves _ _ _ (by simp [isTw_sentFrame, isTw_brokenFrame]) ?_
  rw [driveAll_append, driveAll_brokenFrame _ _ (by simpa using hj) _ hlast, driveAll_sentFrame _ _ rfl]
  rfl

/-- WRITE_DIGITS ends at its first nak, wherever it is (R129). -/
theorem writeDigits_breaksAt (pat : Nat → Byte) {j a c : Nat} {s : State} (ha : a < 6) (h : FirstNak j s)
    (hj : j ≤ clampCount a c + 1) : BreaksAt j pat a c s (writeDigits pat a c s) := by
  cases j with
  | zero => exact writeDigits_breaksAt_zero pat ha h
  | succ j => exact writeDigits_breaksAt_succ pat ha h hj

/-! ## The obligations -/

/-- Settles O27: the digit write that TW_SETDIGITS is sends the clamped count of bytes after the address byte, and a bad
address ends it before any action. -/
theorem setdigitsClampsTheCount : Obligations.SetdigitsClampsTheCount := by
  intro a c s
  refine ⟨fun ha hack hready => ?_, fun ha => ?_⟩
  · have hle := clampCount_le a c
    obtain ⟨d, -, hend⟩ := writeDigits_writesDigits (c := c) (fun i => readPbuf i s) ha (hack.mono (by omega))
    refine ⟨_, digitFrameBytes (fun i => readPbuf i s) a (clampCount a c), clampCount a c + 1,
      exec_twSetdigits (hready.mono hle), ?_, length_digitFrameBytes .., ?_, ?_, rfl⟩
    · rw [hend, List.append_assoc]; rfl
    · simp only [clampCount, twDigits]; omega
    · simp only [clampCount, twDigits]; omega
  · have hready : PbufReady (clampCount a c) s := by
      rw [clampCount_of_invalidAddress c ha]
      exact fun i hi => absurd hi (Nat.not_lt_zero i)
    refine ⟨_, exec_twSetdigits hready, ?_⟩
    rw [writeDigits_invalidAddress _ c s ha]
    exact ⟨rfl, rfl⟩

/-- Settles O28: the three digit writes are WRITE_DIGITS of their patterns, which ends at its first nak; TW_CONFIG sends
an unchecked frame, which completes. -/
theorem firstNakEndsADigitWrite : Obligations.FirstNakEndsADigitWrite := by
  intro j a c p v dp s ha hnak
  have hone : clampCount a 1 + 1 = 2 := by rw [clampCount_one ha]
  refine ⟨fun hj => ⟨_, rfl, writeDigits_breaksAt _ ha hnak (hj.trans_eq hone.symm)⟩,
    fun hj => ⟨_, rfl, writeDigits_breaksAt _ ha hnak (hj.trans_eq hone.symm)⟩,
    fun hj hready => ⟨_, exec_twSetdigits hready, writeDigits_breaksAt _ ha hnak hj⟩, _, rfl, rfl, ?_⟩
  rw [frame_ok false [cmdDispctlByte v dp] s (by simp)]
  exact emitAll_trace _ _

end Sys2Proof.Machine
end

section
/-! PROOF. The segment encoder: which nibble a value stands for, the pattern of a nibble, and SEG_ENCODE
(41_segment_encoder.md R161 to R164). -/

namespace Sys2Proof.Machine

/-! ## The nibble of a value -/

/-- A nibble has at most three spellings: itself and, from 10 on, its upper- and lower-case letter (R161, R164). -/
theorem hexNibble_eq_some_iff {v : Int} {k : Nat} : hexNibble v = some k ↔
    v = k ∧ k ≤ 15 ∨ 10 ≤ k ∧ k ≤ 15 ∧ (v = 0x41 + (k - 10) ∨ v = 0x61 + (k - 10)) := by
  unfold hexNibble
  split_ifs <;> simp only [Option.some.injEq, false_iff] <;> omega

/-- The unrecognised values: no digit value, no upper-case and no lower-case letter (R161). -/
theorem hexNibble_eq_none_iff {v : Int} : hexNibble v = none ↔
    ¬ (0 ≤ v ∧ v ≤ 15) ∧ ¬ (0x41 ≤ v ∧ v ≤ 0x46) ∧ ¬ (0x61 ≤ v ∧ v ≤ 0x66) := by
  unfold hexNibble
  split_ifs with hdigit hupper hlower
  · exact iff_of_false nofun fun h => h.1 hdigit
  · exact iff_of_false nofun fun h => h.2.1 hupper
  · exact iff_of_false nofun fun h => h.2.2 hlower
  · exact iff_of_true rfl ⟨hdigit, hupper, hlower⟩

theorem hexNibble_lt {v : Int} {k : Nat} (h : hexNibble v = some k) : k < 16 := by
  have := hexNibble_eq_some_iff.1 h
  omega

theorem hexNibble_of_digit {v : Int} (h0 : 0 ≤ v) (h15 : v ≤ 15) : hexNibble v = some v.toNat :=
  hexNibble_eq_some_iff.2 (.inl (by omega))

theorem hexNibble_of_upper {v : Int} (hA : 0x41 ≤ v) (hF : v ≤ 0x46) : hexNibble v = hexNibble (v - 0x41 + 10) := by
  rw [hexNibble_of_digit (v := v - 0x41 + 10) (by omega) (by omega)]
  exact hexNibble_eq_some_iff.2 (.inr (by omega))

theorem hexNibble_of_lower {v : Int} (ha : 0x61 ≤ v) (hf : v ≤ 0x66) : hexNibble v = hexNibble (v - 0x61 + 10) := by
  rw [hexNibble_of_digit (v := v - 0x61 + 10) (by omega) (by omega)]
  exact hexNibble_eq_some_iff.2 (.inr (by omega))

/-- The three bytes with a nibble from 10 on (R164). -/
theorem hexNibble_toNat_eq_letter_iff {j : Nat} (hj : j < 6) (v : Byte) :
    hexNibble (v.toNat : Int) = some (10 + j) ↔ v.toNat = 10 + j ∨ v.toNat = 0x41 + j ∨ v.toNat = 0x61 + j := by
  rw [hexNibble_eq_some_iff]
  omega

/-! ## The pattern of a nibble -/

theorem segPattern_of_some {v : Int} {k : Nat} (cfg : Config) (dp : Bool) (h : hexNibble v = some k) :
    segPattern cfg v dp = segEntry cfg k ||| (if dp then 0x80 else 0) := by
  simp only [segPattern, h]

theorem segPattern_of_none {v : Int} (cfg : Config) (dp : Bool) (h : hexNibble v = none) :
    segPattern cfg v dp = 0 := by
  simp only [segPattern, h]

/-- ENCODE reads nothing of its value but the nibble. -/
theorem segPattern_congr {v v' : Int} (cfg : Config) (dp : Bool) (h : hexNibble v = hexNibble v') :
    segPattern cfg v dp = segPattern cfg v' dp := by
  simp only [segPattern, h]

/-- A byte with bit 7 clear is what is left of it when the decimal point is put in and bit 7 is masked out. -/
theorem or_decimalPoint_and_mask {e : Byte} (dp : Bool) (h : e.getLsbD 7 = false) :
    (e ||| (if dp then 0x80 else 0)) &&& 0x7F = e := by
  have hbit : e[7] = false := h
  apply BitVec.eq_of_getLsbD_eq
  intro i hi
  cases dp <;> interval_cases i <;> simp [hbit]

theorem or_decimalPoint_getLsbD_seven {e : Byte} (dp : Bool) (h : e.getLsbD 7 = false) :
    (e ||| (if dp then 0x80 else 0)).getLsbD 7 = dp := by
  cases dp with
  | false => simpa using h
  | true => simp

/-! ## The obligations -/

/-- Settles O20: the entry has bit 7 clear (R160 (a)), so the decimal point and the entry part again, and no other
nibble has the entry (R160 (b)). -/
theorem encodeKeepsEntryAndDecimalPoint : Obligations.EncodeKeepsEntryAndDecimalPoint := by
  rintro cfg v dp ⟨hbit7, hdistinct⟩
  refine ⟨fun k hk => ?_, fun hnone => ?_⟩
  · have hlt := hexNibble_lt hk
    have hentry : segByte cfg v dp &&& 0x7F = segEntry cfg k := by
      rw [segByte, segPattern_of_some cfg dp hk, or_decimalPoint_and_mask dp (hbit7 k hlt)]
    refine ⟨hlt, hentry, ?_, fun j hj hjk => hdistinct j k hj hlt (hjk.symm.trans hentry)⟩
    rw [segByte, segPattern_of_some cfg dp hk, or_decimalPoint_getLsbD_seven dp (hbit7 k hlt)]
  · have hzero : segByte cfg v dp = 0 := segPattern_of_none cfg dp hnone
    exact ⟨hzero, by rw [hzero]; rfl⟩

theorem exec_segEncode (v : Byte) (dp : Bool) (s : State) :
    exec (.segEncode v dp) s =
      .next { s with encout := segPattern s.cfg (v.toNat : Int) dp, rc := .ok, seq := none } := rfl

/-- Settles O18: the operation is the write of ENCOUT and its completion, the three ranges are the unrecognised bytes,
and the row of OP = 0x7 reads V and F only. -/
theorem segEncodeWritesOnlyEncout : Obligations.SegEncodeWritesOnlyEncout := by
  refine ⟨fun v dp s => ⟨exec_segEncode v dp s, fun hrange => ?_⟩, fun w hrsv hop => ?_, ?_, ?_⟩
  · exact segPattern_of_none _ _ (hexNibble_eq_none_iff.2 (by omega))
  · exact decodeHost_segEncode ⟨hrsv, by rw [hop]; rfl⟩
  · exact decodeHost_segEncode ⟨by decide, by decide⟩
  · exact segPattern_of_some (k := 15) _ _ (hexNibble_eq_some_iff.2 (by omega))

/-- Settles O19: the case of the value is the case of its nibble. -/
theorem encodeLooksUpTheTable : Obligations.EncodeLooksUpTheTable := by
  refine ⟨fun _ _ _ => rfl, fun cfg v dp => ⟨fun h0 h15 => ?_, fun hA hF => ?_, fun ha hf => ?_, fun hd hu hl => ?_⟩⟩
  · exact segPattern_of_some cfg dp (hexNibble_of_digit h0 h15)
  · exact segPattern_congr cfg dp (hexNibble_of_upper hA hF)
  · exact segPattern_congr cfg dp (hexNibble_of_lower ha hf)
  · exact segPattern_of_none cfg dp (hexNibble_eq_none_iff.2 ⟨hd, hu, hl⟩)

/-- Settles O21: the three bytes have the same nibble, and only they have it. -/
theorem encodeIsCaseInsensitive : Obligations.EncodeIsCaseInsensitive := by
  intro cfg j dp hj
  have nibble {n : Nat} (hn : n = 10 + j ∨ n = 0x41 + j ∨ n = 0x61 + j) :
      hexNibble ((BitVec.ofNat 8 n).toNat : Int) = some (10 + j) := by
    rw [hexNibble_toNat_eq_letter_iff hj, BitVec.toNat_ofNat]
    omega
  have hvalue := nibble (.inl rfl)
  exact ⟨segPattern_congr cfg dp ((nibble (.inr (.inl rfl))).trans hvalue.symm),
    segPattern_congr cfg dp ((nibble (.inr (.inr rfl))).trans hvalue.symm), hexNibble_toNat_eq_letter_iff hj⟩

end Sys2Proof.Machine
end

section
/-! PROOF. The shift-register engine: the bits of SR_XFER, the display codes, and the completion of every operation
(42_shift_register_engine.md R181 to R187). -/

namespace Sys2Proof.Machine

/-! ## The bits of SR_XFER -/

theorem srWordOf_getLsbD_of_lt (a v : Byte) {i : Nat} (hi : i < 8) : (srWordOf a v).getLsbD i = v.getLsbD i := by
  simp [srWordOf, hi, show i < 16 by omega]

theorem srWordOf_getLsbD_add_eight (a v : Byte) {i : Nat} (hi : i < 8) :
    (srWordOf a v).getLsbD (i + 8) = a.getLsbD i := by
  simp [srWordOf, show i + 8 < 16 by omega]

/-- The actions of SR_XFER before its latch pulse. -/
def srWordBits (a v : Byte) : List Action :=
  (List.range 16).reverse.flatMap fun i => srBitActions ((srWordOf a v).getLsbD i)

theorem srXferActions_eq (a v : Byte) : srXferActions a v = srWordBits a v ++ [.srLoad false, .srLoad true] := rfl

/-- The i-th block of a word's actions sends its bit 15 - i (R181). -/
theorem srWordBits_block (a v : Byte) {i : Nat} (hi : i < 16) :
    ((srWordBits a v).drop (3 * i)).take 3 = srBitActions ((srWordOf a v).getLsbD (15 - i)) := by
  rw [srWordBits, take_drop_flatMap (k := 3) (fun _ => rfl) _ i (by simpa using hi), List.getElem_reverse,
    List.getElem_range, List.length_range]

theorem srWordBits_block_addr (a v : Byte) {i : Nat} (hi : i < 8) :
    ((srWordBits a v).drop (3 * i)).take 3 = srBitActions (a.getLsbD (7 - i)) := by
  rw [srWordBits_block a v (by omega), show 15 - i = 7 - i + 8 by omega,
    srWordOf_getLsbD_add_eight a v (by omega)]

theorem srWordBits_block_value (a v : Byte) {i : Nat} (hi : i < 8) :
    ((srWordBits a v).drop (3 * (i + 8))).take 3 = srBitActions (v.getLsbD (7 - i)) := by
  rw [srWordBits_block a v (by omega), show 15 - (i + 8) = 7 - i by omega, srWordOf_getLsbD_of_lt a v (by omega)]

/-! ## Every operation is one emission, then its completion -/

theorem exec_srInit (s : State) : exec .srInit s = .next (finish (emitAll (srInitActions s.cfg) s)) := rfl

/-- SR_CLEAR as one emission (R184). -/
theorem exec_srClear (s : State) : exec .srClear s = .next (finish (emitAll
    (sentWords ((List.range 4).map fun p => (s.cfg.digitRegBase + BitVec.ofNat 8 p, s.cfg.blankCode))) s)) := by
  rw [exec, execSrClear, srWriteFrom_eq, blankCodes_eq, srWriteActions_four]

/-- SR_DISPNUM with ARG written as one emission (R186). -/
theorem exec_srDispnum {s : State} (harg : s.argWritten = true) :
    exec .srDispnum s = .next (finish (emitAll (sentWords ((List.range 4).map fun p =>
      (s.cfg.digitRegBase + BitVec.ofNat 8 p, displayCode s.cfg s.arg.toInt p))) s)) := by
  rw [exec, execSrDispnum, if_neg (by simp [harg]), displayCodes, srWriteFrom_eq, srWriteActions_four, argValue]

/-- Actions of the shift-register port that leave the clock low and the latch high touch nothing but the trace, the
lines and the chip. -/
theorem shiftsOut_finish_emitAll {acts : List Action} {din : Level} {s : State} (hsr : acts.all Action.isSr = true)
    (hlines : s.lines.driveAll acts = { s.lines with srDin := din, srClk := false, srLoad := true }) :
    ShiftsOut acts din s (finish (emitAll acts s)) := by
  refine ⟨s.dev.seeAll s.cfg s.lines acts, seeAll_onlySr _ _ _ _ hsr, ?_⟩
  rw [emitAll_eq, hlines]
  rfl

/-- An operation that is one emission ends Ok, after as many actions as it emits. -/
theorem completes_of_emitAll {i : Instr} {acts : List Action} {n : Nat} {s : State}
    (h : exec i s = .next (finish (emitAll acts s))) (hn : acts.length = n) :
    ∃ t, exec i s = .next t ∧ t.rc = .ok ∧ t.trace.length = s.trace.length + n :=
  ⟨_, h, rfl, by rw [finish_trace, emitAll_trace, List.length_append, hn]⟩

theorem length_srXferActions (a v : Byte) : (srXferActions a v).length = 50 := rfl

theorem length_sentWords (ws : List (Byte × Byte)) : (sentWords ws).length = 50 * ws.length := by
  induction ws with
  | nil => rfl
  | cons w ws ih =>
    rw [sentWords_cons, List.length_append, length_srXferActions, ih, List.length_cons]
    omega

/-- One word for each of the four positions is 200 actions, whatever the words are. -/
theorem length_sentWords_four (f : Nat → Byte × Byte) : (sentWords ((List.range 4).map f)).length = 200 := by
  rw [length_sentWords, List.length_map, List.length_range]

/-! ## The display codes -/

/-- The model's special case for 0 is what the decimal notation has. -/
theorem decimalLength_eq (m : Nat) : decimalLength m = (Nat.toDigits 10 m).length := by
  rw [decimalLength, ite_eq_right_iff]
  rintro rfl
  rfl

/-- The positions that a magnitude reaches: position 0, and position p from 10 ^ p on. -/
theorem lt_decimalLength_iff {m p : Nat} : p < decimalLength m ↔ p = 0 ∨ 10 ^ p ≤ m := by
  rw [decimalLength_eq]
  rcases Nat.eq_zero_or_pos p with rfl | hp
  · exact iff_of_true Nat.length_toDigits_pos (.inl rfl)
  · rw [← Nat.not_le, Nat.length_toDigits_le_iff (by decide) hp, Nat.not_lt, or_iff_right hp.ne']

theorem decimalLength_le_iff {m p : Nat} (hp : 1 ≤ p) : decimalLength m ≤ p ↔ m < 10 ^ p := by
  rw [← Nat.not_lt, lt_decimalLength_iff, or_iff_right (Nat.ne_of_gt hp), Nat.not_le]

section
variable (cfg : Config) {n : Int} {p : Nat}

theorem displayCode_of_lt (h : p < decimalLength n.natAbs) :
    displayCode cfg n p = BitVec.ofNat 8 (n.natAbs / 10 ^ p % 10) := if_pos h

theorem displayCode_of_eq (hn : n < 0) (h : p = decimalLength n.natAbs) : displayCode cfg n p = cfg.minusCode := by
  rw [displayCode, if_neg h.not_lt, if_pos ⟨hn, h⟩]

theorem displayCode_of_gt (h : decimalLength n.natAbs < p) : displayCode cfg n p = cfg.blankCode := by
  rw [displayCode, if_neg h.not_gt, if_neg fun hminus => h.ne' hminus.2]

theorem displayCode_of_nonneg (hn : 0 ≤ n) (h : decimalLength n.natAbs ≤ p) :
    displayCode cfg n p = cfg.blankCode := by
  rw [displayCode, if_neg h.not_gt, if_neg fun hminus => hn.not_gt hminus.1]

end

/-! ## The obligations -/

/-- Settles O31: SR_XFER is sixteen blocks of three actions and the latch pulse, all of them of its own port. -/
theorem srWriteregShiftsSixteenBits : Obligations.SrWriteregShiftsSixteenBits := by
  intro r v s
  have hend : ShiftsOut (srXferActions r v) (v.getLsbD 0) s (finish (emitAll (srXferActions r v) s)) :=
    shiftsOut_finish_emitAll (isSr_srXfer r v) (driveAll_srXfer r v s.lines)
  exact ⟨srWordBits r v, srXferActions_eq r v, rfl, fun _ hi => srWordBits_block_addr r v hi,
    fun _ hi => srWordBits_block_value r v hi, emitAll_trace _ s, _, exec_srWritereg r v s, hend⟩

/-- Settles O35: which code a position holds depends on where it stands against the decimal length of |n|, and the
powers of ten say where that is. -/
theorem displayCodesShowTheNumber : Obligations.DisplayCodesShowTheNumber := by
  intro cfg n p _
  refine ⟨fun hreached => ?_, fun hneg hp hlt hprev => ?_, fun hneg hp hlt => ?_, fun hnonneg hp hlt => ?_⟩
  · rw [displayCode_of_lt cfg (lt_decimalLength_iff.2 hreached), BitVec.toNat_ofNat]
    omega
  · have hle := (decimalLength_le_iff hp).2 hlt
    have hprevReached : p - 1 < decimalLength n.natAbs := lt_decimalLength_iff.2 (hprev.imp_left (by omega))
    exact displayCode_of_eq cfg hneg (by omega)
  · have hle := (decimalLength_le_iff (by omega)).2 hlt
    exact displayCode_of_gt cfg (by omega)
  · exact displayCode_of_nonneg cfg hnonneg ((decimalLength_le_iff hp).2 hlt)

/-- Settles O36: each operation is one emission, of a list whose length no operand changes, and ends Ok. -/
theorem shiftRegisterOperationsNeverFail : Obligations.ShiftRegisterOperationsNeverFail := fun r v s =>
  ⟨completes_of_emitAll (exec_srInit s) rfl, completes_of_emitAll (exec_srWritereg r v s) (length_srXferActions r v),
    completes_of_emitAll (exec_srClear s) (length_sentWords_four _),
    fun harg => completes_of_emitAll (exec_srDispnum harg) (length_sentWords_four _)⟩

end Sys2Proof.Machine
end

section
/-! PROOF. The result codes of a rejected command word and of a bad digit address (60_exceptions.md R252, R254). -/

namespace Sys2Proof.Machine

/-! ## Which words are commands -/

/-- A word with reserved bits, or in a row that R83 reserves, is no command. -/
theorem decodeHost_of_reserved {w : Word} (h : fieldRsv w ≠ 0 ∨ (fieldOp w).toNat = 0 ∨ 0xC ≤ (fieldOp w).toNat) :
    ∃ e, decodeHost w = .error e := by
  by_cases hrsv : fieldRsv w = 0
  · exact ⟨_, decodeHost_reservedOpcode ⟨hrsv, rfl⟩ (h.resolve_left (not_not.2 hrsv))⟩
  · exact ⟨_, decodeHost_reservedBits hrsv⟩

/-- Each of the eleven other rows is a command. -/
theorem decodeHost_of_opcodeRow {op : Nat} {w : Word} (h : OpcodeRow op w) (hlow : 1 ≤ op) (hhigh : op ≤ 0xB) :
    ∃ i, decodeHost w = .ok i := by
  interval_cases op
  exacts [⟨_, decodeHost_twInit h⟩, ⟨_, decodeHost_twDeinit h⟩, ⟨_, decodeHost_twConfig h⟩,
    ⟨_, decodeHost_twSetdigit h⟩, ⟨_, decodeHost_twSetdigits h⟩, ⟨_, decodeHost_twSethex h⟩,
    ⟨_, decodeHost_segEncode h⟩, ⟨_, decodeHost_srInit h⟩, ⟨_, decodeHost_srWritereg h⟩,
    ⟨_, decodeHost_srClear h⟩, ⟨_, decodeHost_srDispnum h⟩]

/-! ## A write to CMD of an idle block -/

section
variable {s : State} (hidle : s.seq = none)
include hidle

theorem statusWord_of_idle : statusWord s = s.rc.code.setWidth 32 := by
  simp [statusWord, busy, hidle]

/-- With no operation to end, an exceptional completion is the write of RC alone. -/
theorem raise_of_idle (r : Result) : raise r s = { s with rc := r } := by
  rw [raise, complete, ← hidle]

theorem hostWrite_cmd_of_idle (w : Word) : hostWrite 0x00 4 w s = command w s := by
  simp [hostWrite, accessStop, busy, hidle]

theorem command_of_error {w : Word} {e : DecodeError} (h : decodeHost w = .error e) :
    command w s = .next { s with rc := .illegalCommand } := by
  rw [← raise_of_idle hidle]
  simp only [command, h]

end

/-- Settles O10: the write passes the access check of an idle block and its word decodes to an error, which is the
write of RC alone; the remaining words are those of the eleven rows. -/
theorem reservedCommandWordsAreRejected : Obligations.ReservedCommandWordsAreRejected := by
  intro s rest w hinput hidle
  refine ⟨fun hreserved => ⟨?_, statusWord_of_idle hidle⟩, fun hrsv => decodeHost_of_opcodeRow ⟨hrsv, rfl⟩⟩
  obtain ⟨e, he⟩ := decodeHost_of_reserved hreserved
  have hidle' : ({ s with inputs := rest } : State).seq = none := hidle
  calc step s
      = hostWrite 0x00 4 w { s with inputs := rest } := step_of_inputs hinput
    _ = command w { s with inputs := rest } := hostWrite_cmd_of_idle hidle' w
    _ = .next { s with inputs := rest, rc := .illegalCommand } := command_of_error hidle' he

/-! ## A digit address beyond the display -/

/-- A bad address leaves no count, so no PBUF entry is read and none can fault (60_exceptions.md R255). -/
theorem pbufReady_of_invalidAddress {a : Nat} (c : Nat) (s : State) (ha : 6 ≤ a) :
    PbufReady (clampCount a c) s := by
  rw [clampCount_of_invalidAddress c ha]
  exact fun i hi => absurd hi (Nat.not_lt_zero i)

/-- Settles O29: each of the three is WRITE_DIGITS of its patterns, whose address check comes first. -/
theorem invalidAddressComesBeforeAnyAction : Obligations.InvalidAddressComesBeforeAnyAction := by
  intro a c p v dp s ha
  have hend (pat : Nat → Byte) (n : Nat) :
      writeDigits pat a n s = { s with rc := .invalidAddress, seq := none } := writeDigits_invalidAddress pat n s ha
  exact ⟨congrArg _ (hend _ 1), congrArg _ (hend _ 1),
    (exec_twSetdigits (pbufReady_of_invalidAddress c s ha)).trans (congrArg _ (hend _ c))⟩

end Sys2Proof.Machine
end

section
/-! PROOF. The action and wait counts of every operation and outcome (70_reset_and_hazards.md R294): what an operation
leaves says which actions it emitted, and those have their tally. -/

namespace Sys2Proof.Machine

/-! ## From a tally to an operation's counts -/

theorem emits_endsWith (r : Result) (k : Nat) {acts : List Action} (ln : Lines) (d : Devices) (s : State) {n b u : Nat}
    (h : Tally acts n b u) : Emits (.next (endsWith r k acts ln d s)) s n b u := ⟨_, acts, rfl, rfl, h⟩

theorem emits_finish_emitAll {acts : List Action} (s : State) {n b u : Nat} (h : Tally acts n b u) :
    Emits (.next (finish (emitAll acts s))) s n b u := ⟨_, acts, rfl, emitAll_trace acts s, h⟩

theorem emits_nothing {s t : State} (h : t.trace = s.trace) : Emits (.next t) s 0 0 0 :=
  ⟨t, [], rfl, by rw [h, List.append_nil], rfl, rfl, rfl⟩

theorem tally_sentWords (ws : List (Byte × Byte)) : Tally (sentWords ws) (50 * ws.length) 0 0 := by
  induction ws with
  | nil => exact ⟨rfl, rfl, rfl⟩
  | cons w ws ih =>
    rw [sentWords_cons]
    exact ((tally_srXfer w.1 w.2).append ih).cast (by rw [List.length_cons]; ring) rfl rfl

/-- TW_CONFIG does not check its acknowledgment, so its frame always completes. -/
theorem exec_twConfig (v : Byte) (on : Bool) (s : State) : exec (.twConfig v on) s =
    .next (finish (emitAll (sentFrame [cmdDispctlByte v on] (levelsFrom 0 1 s)) (afterSamples 1 s))) := by
  rw [exec, execTwConfig, frame_ok false [cmdDispctlByte v on] s (by simp)]
  rfl

/-! ## The digit writes -/

theorem WritesDigits.emits {pat : Nat → Byte} {a c : Nat} {s t : State} (h : WritesDigits pat a c s t) :
    Emits (.next t) s (126 + 48 * clampCount a c) (48 + 18 * clampCount a c) 2 := by
  obtain ⟨d, -, rfl⟩ := h
  have htally := (tally_sentFrame [0x40] [s.cfg.ackLevel] rfl).append
    (tally_sentFrame ((0xC0 ||| BitVec.ofNat 8 a) :: (List.range (clampCount a c)).map pat)
      (List.replicate (clampCount a c + 1) s.cfg.ackLevel) (by simp))
  exact emits_endsWith _ _ _ _ _ (htally.cast (by simp; ring) (by simp; ring) rfl)

theorem BreaksAt.emits_of_zero {pat : Nat → Byte} {a c : Nat} {s t : State} (h : BreaksAt 0 pat a c s t) :
    Emits (.next t) s 54 20 0 := by
  obtain ⟨d, -, rfl⟩ := h
  exact emits_endsWith _ _ _ _ _ (tally_brokenFrame [0x40] _ rfl)

theorem BreaksAt.emits_of_pos {pat : Nat → Byte} {j a c : Nat} {s t : State} (h : BreaksAt j pat a c s t)
    (hpos : 1 ≤ j) (hj : j ≤ clampCount a c + 1) : Emits (.next t) s (69 + 48 * j) (26 + 18 * j) 1 := by
  obtain ⟨d, -, h⟩ := h
  rw [if_neg (by omega)] at h
  subst h
  have hlen : (((0xC0 ||| BitVec.ofNat 8 a) :: (List.range (clampCount a c)).map pat).take j).length = j := by
    simpa using hj
  have htally := (tally_sentFrame [0x40] [s.cfg.ackLevel] rfl).append
    (tally_brokenFrame (((0xC0 ||| BitVec.ofNat 8 a) :: (List.range (clampCount a c)).map pat).take j)
      (List.replicate (j - 1) s.cfg.ackLevel ++ [!s.cfg.ackLevel]) (by simp; omega))
  rw [hlen] at htally
  exact emits_endsWith _ _ _ _ _ (htally.cast (by simp; ring) (by simp; ring) rfl)

section
variable {pat : Nat → Byte} {j a c : Nat} {s : State}

theorem emits_writeDigits_invalidAddress (ha : 6 ≤ a) : Emits (.next (writeDigits pat a c s)) s 0 0 0 :=
  emits_nothing (by rw [writeDigits_invalidAddress pat c s ha, raise_trace])

theorem emits_writeDigits_firstNak_zero (ha : a < 6) (h : FirstNak 0 s) :
    Emits (.next (writeDigits pat a c s)) s 54 20 0 :=
  (writeDigits_breaksAt pat ha h (Nat.zero_le _)).emits_of_zero

theorem emits_writeDigits_firstNak (ha : a < 6) (hpos : 1 ≤ j) (h : FirstNak j s) (hj : j ≤ clampCount a c + 1) :
    Emits (.next (writeDigits pat a c s)) s (69 + 48 * j) (26 + 18 * j) 1 :=
  (writeDigits_breaksAt pat ha h hj).emits_of_pos hpos hj

/-- One digit, as TW_SETDIGIT and TW_SETHEX write it. -/
theorem emits_writeDigits_one (ha : a < 6) (h : AllAck 3 s) : Emits (.next (writeDigits pat a 1 s)) s 174 66 2 := by
  have hone := clampCount_one ha
  have hemits := (writeDigits_writesDigits (c := 1) pat ha (by rwa [hone])).emits
  rwa [hone] at hemits

end

/-- Settles O53: each operation and outcome emits the frames or words of its row, and a reserved word or a bad address
nothing; TW_SETDIGIT and TW_SETHEX are a digit write of one pattern. -/
theorem actionAndWaitCounts : Obligations.ActionAndWaitCounts := by
  intro a c j r v on s
  refine ⟨⟨?twInit, ?twDeinit⟩, ?twConfig, ?oneDigit, ?setdigits, ?invalidAddress, ?modeNak, ?digitNak, ?segEncode,
    ?srInit, ?srWritereg, ?srClear, ?srDispnum, ?reservedWord, rfl, fun _ => rfl, fun _ => rfl, rfl, ?txByte, ?frame⟩
  case twInit => exact emits_finish_emitAll (acts := [.pInit]) s ⟨rfl, rfl, rfl⟩
  case twDeinit => exact emits_finish_emitAll (acts := [.pDeinit]) s ⟨rfl, rfl, rfl⟩
  case twConfig =>
    rw [exec_twConfig]
    exact emits_emitAll .ok 1 _ s _ _ _ (tally_sentFrame [_] _ rfl)
  case oneDigit => exact fun ha hack => ⟨emits_writeDigits_one ha hack, emits_writeDigits_one ha hack⟩
  case setdigits =>
    intro ha hready hack
    rw [exec_twSetdigits hready]
    exact (writeDigits_writesDigits _ ha hack).emits
  case invalidAddress =>
    intro ha
    refine ⟨emits_writeDigits_invalidAddress ha, emits_writeDigits_invalidAddress ha, ?_⟩
    rw [exec_twSetdigits (pbufReady_of_invalidAddress c s ha)]
    exact emits_writeDigits_invalidAddress ha
  case modeNak =>
    intro ha hnak
    refine ⟨emits_writeDigits_firstNak_zero ha hnak, emits_writeDigits_firstNak_zero ha hnak, fun hready => ?_⟩
    rw [exec_twSetdigits hready]
    exact emits_writeDigits_firstNak_zero ha hnak
  case digitNak =>
    intro ha hpos hnak
    refine ⟨fun hj => ?_, fun hj hready => ?_⟩
    · have hone : j ≤ clampCount a 1 + 1 := by rwa [clampCount_one ha]
      exact ⟨emits_writeDigits_firstNak ha hpos hnak hone, emits_writeDigits_firstNak ha hpos hnak hone⟩
    · rw [exec_twSetdigits hready]
      exact emits_writeDigits_firstNak ha hpos hnak hj
  case segEncode => exact emits_nothing rfl
  case srInit => exact emits_finish_emitAll s ⟨rfl, rfl, rfl⟩
  case srWritereg => exact emits_finish_emitAll s (tally_srXfer r v)
  case srClear =>
    rw [exec_srClear]
    exact emits_finish_emitAll s (tally_sentWords _)
  case srDispnum =>
    intro harg
    rw [exec_srDispnum harg]
    exact emits_finish_emitAll s (tally_sentWords _)
  case reservedWord =>
    intro w e he
    simp only [command, he]
    exact emits_nothing rfl
  case txByte =>
    intro x l
    obtain ⟨-, hbit, -⟩ := tally_sentByte x l
    exact hbit
  case frame =>
    intro xs ls hlen
    obtain ⟨-, hbit, -⟩ := tally_sentFrame xs ls hlen
    exact hbit

end Sys2Proof.Machine
end

section
/-! PROOF. The host while an operation is in flight (70_reset_and_hazards.md R284): the access check with BUSY = 1. -/

namespace Sys2Proof.Machine

section
variable {s : State} (hbusy : s.seq ≠ none)
include hbusy

theorem busy_of_seq_ne_none : busy s = true := Option.isSome_iff_ne_none.2 hbusy

theorem statusWord_of_busy : statusWord s = 0x100#32 ||| s.rc.code.setWidth 32 := by
  rw [statusWord, busy_of_seq_ne_none hbusy]
  rfl

/-- An aligned access inside the window stops at BUSY. -/
theorem accessStop_of_busy {off : Nat} (haligned : off % 4 = 0) (hwindow : off < 0x40) :
    accessStop off 4 false s = some (.inr .accessWhileBusy) := by
  rw [accessStop, if_neg (by omega), if_neg (by omega), if_pos ⟨busy_of_seq_ne_none hbusy, rfl⟩]

theorem hostRead_status_of_busy :
    hostRead 0x08 4 s = .next { s with hostData := 0x100#32 ||| s.rc.code.setWidth 32 } := by
  rw [← statusWord_of_busy hbusy]
  simp [hostRead, accessStop, readReg]

end

/-- Settles O6: the check stops every access at BUSY but a read of STATUS, whose value is BUSY and the code in RC. -/
theorem busyHostMayOnlyReadStatus : Obligations.BusyHostMayOnlyReadStatus := by
  intro s rest off hbusy haligned hwindow
  have hbusy' : ({ s with inputs := rest } : State).seq ≠ none := hbusy
  have hstop := accessStop_of_busy hbusy' haligned hwindow
  refine ⟨fun hinput => ?_, fun hinput hstatus => ?_, fun v hinput => ?_⟩ <;> rw [step_of_inputs hinput]
  · exact hostRead_status_of_busy hbusy'
  · exact hostRead_of_refusal (by rw [beq_false_of_ne hstatus, hstop])
  · exact hostWrite_of_refusal v hstop

end Sys2Proof.Machine
end

section
/-! PROOF. The encoding both ways: the decoder of each unit gives back what the encoder put in, and what a decoder
accepts is well formed (30_encoding.md R80 to R93). -/

namespace Sys2Proof

/-! ## Decoding an encoded instruction -/

/-- A command word is in the row of the OP it was built with (R80, R81). -/
theorem opcodeRow_hostWord (op : BitVec 4) (f : Bool) (c a v : Byte) : OpcodeRow op.toNat (hostWord op f c a v) :=
  ⟨fieldRsv_hostWord op f c a v, by rw [fieldOp_hostWord]⟩

/-- An operand that fits its field is what the field holds. -/
theorem toNat_ofNat_of_fits {a : Nat} (ha : a < 256) : (BitVec.ofNat 8 a).toNat = a := by
  rw [BitVec.toNat_ofNat, Nat.mod_eq_of_lt ha]

/-- CMD_DISPCTL as it stands in the frame (R87). -/
theorem decode_cmdDispctlByte (b : BitVec 3) (on : Bool) :
    decodeTw .first (cmdDispctlByte (b.setWidth 8) on) = .ok (.cmdDispctl b on) := by
  revert b on
  decide

section
variable {base : Byte} (hbase : digitBaseOk base = true)
include hbase

/-- A word at a register's address is that register's write (R91, R92). -/
theorem decodeSr_srWordOf (r : SrReg) (v : Byte) : decodeSr base (srWordOf (r.addr base) v) = .ok (r.instr v) := by
  simp only [decodeSr, srAddr_srWordOf, srValue_srWordOf, srRegAt_addr base r hbase]

theorem decodeCode_encode {i : Instr} (hi : wellFormed i = true) : decodeCode base (encode i base) = .ok i := by
  cases i with
  | twInit => exact decodeHost_twInit (opcodeRow_hostWord 0x1 ..)
  | twDeinit => exact decodeHost_twDeinit (opcodeRow_hostWord 0x2 ..)
  | twConfig b on =>
    refine (decodeHost_twConfig (opcodeRow_hostWord 0x3 ..)).trans ?_
    rw [fieldV_hostWord, fieldF_hostWord]
  | twSetdigit p a =>
    have ha : a < 256 := by simpa [wellFormed] using hi
    refine (decodeHost_twSetdigit (opcodeRow_hostWord 0x4 ..)).trans ?_
    rw [fieldV_hostWord, fieldA_hostWord, toNat_ofNat_of_fits ha]
  | twSetdigits a c =>
    obtain ⟨ha, hc⟩ : a < 256 ∧ c < 256 := by simpa [wellFormed] using hi
    refine (decodeHost_twSetdigits (opcodeRow_hostWord 0x5 ..)).trans ?_
    rw [fieldA_hostWord, fieldC_hostWord, toNat_ofNat_of_fits ha, toNat_ofNat_of_fits hc]
  | twSethex v dp a =>
    have ha : a < 256 := by simpa [wellFormed] using hi
    refine (decodeHost_twSethex (opcodeRow_hostWord 0x6 ..)).trans ?_
    rw [fieldV_hostWord, fieldF_hostWord, fieldA_hostWord, toNat_ofNat_of_fits ha]
  | segEncode v dp =>
    refine (decodeHost_segEncode (opcodeRow_hostWord 0x7 ..)).trans ?_
    rw [fieldV_hostWord, fieldF_hostWord]
  | srInit => exact decodeHost_srInit (opcodeRow_hostWord 0x8 ..)
  | srWritereg r v =>
    refine (decodeHost_srWritereg (opcodeRow_hostWord 0x9 ..)).trans ?_
    rw [fieldA_hostWord, fieldV_hostWord]
  | srClear => exact decodeHost_srClear (opcodeRow_hostWord 0xA ..)
  | srDispnum => exact decodeHost_srDispnum (opcodeRow_hostWord 0xB ..)
  | cmdData => rfl
  | cmdAddr a => exact Machine.decode_cmdAddrByte a (by simpa [wellFormed] using hi)
  | cmdDispctl b on => exact decode_cmdDispctlByte b on
  | data p => rfl
  | srNoop v => exact decodeSr_srWordOf hbase .noop v
  | srDigit0 v => exact decodeSr_srWordOf hbase (.digit 0) v
  | srDigit1 v => exact decodeSr_srWordOf hbase (.digit 1) v
  | srDigit2 v => exact decodeSr_srWordOf hbase (.digit 2) v
  | srDigit3 v => exact decodeSr_srWordOf hbase (.digit 3) v
  | srDecode v => exact decodeSr_srWordOf hbase .decode v
  | srIntensity v => exact decodeSr_srWordOf hbase .intensity v
  | srScanlimit v => exact decodeSr_srWordOf hbase .scanLimit v
  | srPower v => exact decodeSr_srWordOf hbase .power v
  | srTest v => exact decodeSr_srWordOf hbase .test v

end

/-! ## What a decoder accepts -/

/-- The host commands are the operations of the two ports and SEG_ENCODE, with operands that fit (R81). -/
theorem decodeHost_ok {w : Word} {i : Instr} (h : decodeHost w = .ok i) : wellFormed i = true ∧
    (Machine.usesTwPort i = true ∨ Machine.usesSrPort i = true ∨ ∃ v dp, i = .segEncode v dp) := by
  have hA : decide ((fieldA w).toNat < 256) = true := decide_eq_true (fieldA w).isLt
  have hC : decide ((fieldC w).toNat < 256) = true := decide_eq_true (fieldC w).isLt
  unfold decodeHost at h
  split_ifs at h
  split at h
  case h_12 => cases h
  all_goals obtain rfl := Except.ok.inj h
  exacts [⟨rfl, .inl rfl⟩, ⟨rfl, .inl rfl⟩, ⟨rfl, .inl rfl⟩, ⟨hA, .inl rfl⟩,
    ⟨Bool.and_eq_true_iff.2 ⟨hA, hC⟩, .inl rfl⟩, ⟨hA, .inl rfl⟩, ⟨rfl, .inr (.inr ⟨_, _, rfl⟩)⟩, ⟨rfl, .inr (.inl rfl)⟩,
    ⟨rfl, .inr (.inl rfl)⟩, ⟨rfl, .inr (.inl rfl)⟩, ⟨rfl, .inr (.inl rfl)⟩]

theorem wellFormed_of_decodeTw {pos : TwPos} {b : Byte} {i : Instr} (h : decodeTw pos b = .ok i) :
    wellFormed i = true := by
  cases pos with
  | first =>
    unfold decodeTw decodeTwCommand at h
    dsimp only at h
    split_ifs at h <;> obtain rfl := Except.ok.inj h
    · rfl
    · exact decide_eq_true (BitVec.isLt _)
    · rfl
  | afterAddr =>
    obtain rfl := Except.ok.inj h
    rfl
  | afterOther => cases h

theorem wellFormed_srInstr (r : SrReg) (v : Byte) : wellFormed (r.instr v) = true := by
  cases r with
  | digit p => fin_cases p <;> rfl
  | _ => rfl

theorem wellFormed_of_decodeCode {base : Byte} {c : Code} {i : Instr} (h : decodeCode base c = .ok i) :
    wellFormed i = true := by
  cases c with
  | host w => exact (decodeHost_ok h).1
  | tw pos b => exact wellFormed_of_decodeTw h
  | sr w =>
    obtain ⟨r, v, rfl⟩ := Machine.exec_of_decodeSr h
    exact wellFormed_srInstr r v

/-! ## The obligations -/

/-- Settles O14: each row's encoding has the row's OP and fields, each bus byte its bits, and each bus word the address
of its register, which finds that register back at a clear DIGIT_REG_BASE. -/
theorem decodeOfEncodeIsTheInstruction : Obligations.DecodeOfEncodeIsTheInstruction :=
  fun _ _ hbase hi => decodeCode_encode hbase hi

/-- Settles O15: what is accepted is well formed, so the round trip of O14 applies to it. -/
theorem decodedInstructionsAreWellFormed : Obligations.DecodedInstructionsAreWellFormed := by
  intro base c i hbase hc
  have hi := wellFormed_of_decodeCode hc
  exact ⟨hi, (decodeCode_encode hbase hi).trans hc.symm⟩

/-- Settles O13: each word is decoded by evaluation. -/
theorem sampleWordsDecode : Obligations.SampleWordsDecode := by
  unfold Obligations.SampleWordsDecode
  decide

end Sys2Proof
end

section
/-! PROOF. The frame of an instruction: what it leaves of the host's operands, and of the port that it does not use
(10_state.md R25, R32, R35). -/

namespace Sys2Proof.Machine

/-- Settles O47: each kind of next state that an instruction has is written out from the state before, and only the one
of SEG_ENCODE has another ENCOUT. -/
theorem instructionsKeepTheHostOperands : Obligations.InstructionsKeepTheHostOperands := by
  intro i s t h
  rcases exec_next i s t h with ⟨-, -, r, k, acts, lost, -, rfl⟩ | ⟨v, dp, rfl, rfl⟩ | ⟨-, -, acts, -, rfl⟩ |
    ⟨-, -, d, -, -, -, rfl⟩ | ⟨-, -, d, -, rfl⟩
  · rw [twEnd_eq]
    exact ⟨rfl, rfl, rfl, rfl, rfl, rfl, rfl, fun _ => rfl⟩
  · exact ⟨rfl, rfl, rfl, rfl, rfl, rfl, rfl, fun hother => absurd rfl (hother v dp)⟩
  · rw [emitAll_eq]
    exact ⟨rfl, rfl, rfl, rfl, rfl, rfl, rfl, fun _ => rfl⟩
  · exact ⟨rfl, rfl, rfl, rfl, rfl, rfl, rfl, fun _ => rfl⟩
  · exact ⟨rfl, rfl, rfl, rfl, rfl, rfl, rfl, fun _ => rfl⟩

/-- No instruction writes a parameter. -/
theorem cfg_exec {i : Instr} {s t : State} (h : exec i s = .next t) : t.cfg = s.cfg := by
  obtain ⟨hcfg, -⟩ := instructionsKeepTheHostOperands i s t h
  exact hcfg

/-! ## The kinds of instructions by their port -/

section
variable {i : Instr} {s t : State} (h : exec i s = .next t)
include h

theorem exec_of_usesTwPort (hi : usesTwPort i = true) :
    ∃ r k acts lost, TwActions acts ∧ t = twEnd r k acts lost s := by
  rcases exec_next i s t h with ⟨-, -, hend⟩ | ⟨v, dp, rfl, -⟩ | ⟨-, hnot, -⟩ | ⟨hnot, -⟩ | ⟨hnot, -⟩
  · exact hend
  · cases hi
  all_goals exact absurd (hnot.symm.trans hi) Bool.false_ne_true

theorem exec_of_usesSrPort (hi : usesSrPort i = true) : ∃ acts, SrActions acts ∧ t = finish (emitAll acts s) := by
  rcases exec_next i s t h with ⟨-, hnot, -⟩ | ⟨v, dp, rfl, -⟩ | ⟨-, -, hend⟩ | ⟨-, hnot, -⟩ | ⟨-, hnot, -⟩
  · exact absurd (hnot.symm.trans hi) Bool.false_ne_true
  · cases hi
  · exact hend
  all_goals exact absurd (hnot.symm.trans hi) Bool.false_ne_true

/-- An instruction of neither port is SEG_ENCODE or a byte or word of a chip: it writes registers or chips only. -/
theorem exec_of_usesNoPort (htw : usesTwPort i = false) (hsr : usesSrPort i = false) :
    t = { s with encout := t.encout, rc := t.rc, seq := t.seq, dev := t.dev } ∧
      t.dev.platformUp = s.dev.platformUp := by
  rcases exec_next i s t h with ⟨hyes, -⟩ | ⟨v, dp, -, rfl⟩ | ⟨hyes, -⟩ | ⟨-, -, d, ⟨-, hup⟩, -, -, rfl⟩ |
    ⟨-, -, d, ⟨-, hup⟩, rfl⟩
  · exact absurd (htw.symm.trans hyes) Bool.false_ne_true
  · exact ⟨rfl, rfl⟩
  · exact absurd (hsr.symm.trans hyes) Bool.false_ne_true
  all_goals exact ⟨rfl, hup⟩

/-! ## What the other port keeps -/

theorem exec_keeps_srPort (hi : usesTwPort i = true) : t.lines.srClk = s.lines.srClk ∧
    t.lines.srDin = s.lines.srDin ∧ t.lines.srLoad = s.lines.srLoad ∧ t.lines.srCfg = s.lines.srCfg ∧
    t.dev.sr = s.dev.sr := by
  obtain ⟨r, k, acts, lost, ⟨hnotSr, -⟩, rfl⟩ := exec_of_usesTwPort h hi
  obtain ⟨hclk, hdin, hload, hcfg⟩ := driveAll_notSr acts s.lines hnotSr
  have hchip := seeAll_notSr s.cfg acts s.lines s.dev hnotSr
  rw [twEnd_eq]
  refine ⟨hclk, hdin, hload, hcfg, ?_⟩
  cases lost <;> exact hchip

theorem exec_keeps_twPort (hi : usesTwPort i = false) : t.lines.twClk = s.lines.twClk ∧
    t.lines.twDioOut = s.lines.twDioOut ∧ t.lines.twDioDir = s.lines.twDioDir ∧ t.answers = s.answers ∧
    t.asked = s.asked ∧ t.dev.platformUp = s.dev.platformUp := by
  cases hsr : usesSrPort i with
  | false =>
    obtain ⟨heq, hup⟩ := exec_of_usesNoPort h hi hsr
    rw [heq]
    exact ⟨rfl, rfl, rfl, rfl, rfl, hup⟩
  | true =>
    obtain ⟨acts, ⟨hacts, -⟩, rfl⟩ := exec_of_usesSrPort h hsr
    obtain ⟨hclk, hout, hdir⟩ := driveAll_isSr acts s.lines hacts
    obtain ⟨-, hup⟩ := seeAll_onlySr s.cfg s.lines acts s.dev hacts
    rw [emitAll_eq]
    exact ⟨hclk, hout, hdir, rfl, rfl, hup⟩

theorem exec_keeps_twChip (hi : usesSrPort i = true) : t.dev.tw = s.dev.tw := by
  obtain ⟨acts, ⟨hacts, -⟩, rfl⟩ := exec_of_usesSrPort h hi
  obtain ⟨hchip, -⟩ := seeAll_onlySr s.cfg s.lines acts s.dev hacts
  rw [emitAll_eq]
  exact hchip

end

/-- Settles O48: a two-wire operation emits no action of the other port, a shift-register operation only its own, and
every other instruction emits none; a byte or word of a chip is a change of that chip. -/
theorem eachPortLeavesTheOtherAlone : Obligations.EachPortLeavesTheOtherAlone := by
  intro i s t h
  refine ⟨exec_keeps_srPort h, exec_keeps_twPort h, exec_keeps_twChip h, fun htw hsr => ?_, ?_, ?_⟩
  · rw [(exec_of_usesNoPort h htw hsr).1]
    exact ⟨rfl, rfl⟩
  · rintro ⟨b, pos, hdecode⟩
    obtain ⟨g, honly, -, -, hexec⟩ := exec_of_decodeTw hdecode
    obtain rfl := Host.Outcome.next.inj ((hexec s).symm.trans h)
    exact ⟨rfl, (honly s.dev).1⟩
  · rintro ⟨w, hdecode⟩
    obtain ⟨r, v, rfl⟩ := exec_of_decodeSr hdecode
    obtain rfl := Host.Outcome.next.inj ((exec_srReg r v s).symm.trans h)
    exact ⟨rfl, rfl⟩

end Sys2Proof.Machine
end

section
/-! PROOF. Everything a step can do, said once, and what every step keeps: the trace, the parameters, the invariant of
the lines (10_state.md R33, R36). -/

namespace Sys2Proof.Machine

/-! ## Everything an input can do -/

/-- The next states of an input other than a platform reset, by what produces them. The move of the engine may come from
the host's `wait`, which reads STATUS and stays to come. -/
inductive InputResult (s : State) : State → Prop
  | read (v : Word) : InputResult s { s with hostData := v }
  | engine (ins : List Input) (v : Word) : InputResult s (engineStep { s with inputs := ins, hostData := v })
  | stored (off : Nat) (v : Word) : InputResult s (writeReg off v s)
  | rejected (hidle : s.seq = none) : InputResult s (raise .illegalCommand s)
  | executed (i : Instr) (t : State) (hidle : s.seq = none) (hexec : exec i s = .next t) : InputResult s t
  | accepted (w : Word) (i : Instr) (hidle : s.seq = none) : InputResult s (s.flying (inFlightOf w i s))
  | chips (d : Devices) (hbounds : ChipBounds s.dev → ChipBounds d) : InputResult s { s with dev := d }
  | parted (f : InFlight) (hflying : s.seq = some f) :
      InputResult s { s with dev := s.dev.twUnspecified, seq := some { f with disturbed := true } }

section
variable {s t : State}

theorem hostWrite_result {off width : Nat} {v : Word} (h : hostWrite off width v s = .next t) : InputResult s t := by
  obtain ⟨hidle, hcommand | rfl⟩ := hostWrite_next off width v s t h
  · rcases command_next v s t hcommand with rfl | ⟨i, -, hexec⟩ | ⟨i, -, rfl⟩
    · exact .rejected hidle
    · exact .executed i t hidle hexec
    · exact .accepted v i hidle
  · exact .stored off v

theorem hostRead_result {off width : Nat} (h : hostRead off width s = .next t) : InputResult s t := by
  obtain rfl := hostRead_next off width s t h
  exact .read _

theorem hostWait_result (h : hostWait s = .next t) : InputResult s t := by
  obtain rfl | rfl := hostWait_next s t h
  · exact .read _
  · exact .engine _ _

/-- A move of another driver that changes the devices alone while the port is free. -/
theorem foreignTw_result {free : State → Host.Outcome State Fault Refusal} {d : Devices}
    (h : foreignTw free s = .next t) (hfree : free s = .next { s with dev := d })
    (hbounds : ChipBounds s.dev → ChipBounds d) : InputResult s t := by
  rcases foreignTw_cases free s t h with hnext | ⟨f, hflying, rfl⟩
  · obtain rfl := Host.Outcome.next.inj (hfree.symm.trans hnext)
    exact .chips d hbounds
  · exact .parted f hflying

theorem twByte_result {b : Byte} (h : foreignTw (busByte b) s = .next t) : InputResult s t := by
  obtain ⟨d, -, hptr, hcount, hfree⟩ := busByte_eq b s
  exact foreignTw_result h hfree fun ⟨hp, hc⟩ => ⟨hptr hp, hcount.trans_le hc⟩

theorem srWord_result {w : BitVec 16} (h : foreignSr w s = .next t) : InputResult s t := by
  obtain ⟨d, ⟨htw, -⟩, hword⟩ := busWord_eq w s
  obtain rfl := Host.Outcome.next.inj (hword.symm.trans (foreignSr_next w s t h))
  exact .chips d fun hb => by rwa [ChipBounds, htw]

theorem takeInput_result {e : Input} (h : takeInput e s = .next t) :
    InputResult s t ∨ e = .platformReset ∧ t = platformReset s := by
  cases e with
  | hostWrite off width v => exact .inl (hostWrite_result h)
  | hostRead off width => exact .inl (hostRead_result h)
  | hostWait => exact .inl (hostWait_result h)
  | engine =>
    obtain rfl := Host.Outcome.next.inj h
    exact .inl (.engine s.inputs s.hostData)
  | twStart =>
    rw [takeInput] at h
    exact .inl (foreignTw_result h (d := s.dev.frameStart) rfl fun hb => ⟨hb.1, Nat.zero_le _⟩)
  | twByte b => exact .inl (twByte_result h)
  | twStop =>
    rw [takeInput] at h
    exact .inl (foreignTw_result h (d := s.dev.frameStop) rfl id)
  | srWord w => exact .inl (srWord_result h)
  | platformReset => exact .inr ⟨rfl, (Host.Outcome.next.inj h).symm⟩

/-- Everything a step can do: with an input waiting what that input does, and with none a move of the engine. -/
theorem step_result (h : step s = .next t) :
    (∃ ins, InputResult { s with inputs := ins } t) ∨
      ∃ rest, s.inputs = .platformReset :: rest ∧ t = platformReset { s with inputs := rest } := by
  cases hinputs : s.inputs with
  | nil =>
    simp only [step, nextMove, hinputs] at h
    obtain rfl := Host.Outcome.next.inj h
    exact .inl ⟨s.inputs, .engine s.inputs s.hostData⟩
  | cons e rest =>
    rw [step_of_inputs hinputs] at h
    rcases takeInput_result h with hresult | ⟨rfl, rfl⟩
    · exact .inl ⟨rest, hresult⟩
    · exact .inr ⟨rest, rfl, rfl⟩

end

/-! ## The trace -/

theorem writeReg_trace (off : Nat) (v : Word) (s : State) : (writeReg off v s).trace = s.trace := by rw [writeReg_eq]

theorem InputResult.trace {s t : State} (h : InputResult s t) : ∃ acts, t.trace = s.trace ++ acts := by
  cases h with
  | engine ins v => exact trace_engineStep { s with inputs := ins, hostData := v }
  | executed i t hidle hexec => exact trace_exec i s t hexec
  | stored off v => exact ⟨[], by rw [writeReg_trace, List.append_nil]⟩
  | _ => exact ⟨[], (List.append_nil _).symm⟩

/-- Settles O49: no input but a platform reset takes anything from the trace. -/
theorem traceOnlyGrows : Obligations.TraceOnlyGrows := by
  intro s t h
  rcases step_result h with ⟨ins, hresult⟩ | ⟨rest, hreset, rfl⟩
  · exact .inl hresult.trace
  · exact .inr ⟨rest, hreset, rfl⟩

/-! ## The parameters -/

theorem writeReg_cfg (off : Nat) (v : Word) (s : State) : (writeReg off v s).cfg = s.cfg := by rw [writeReg_eq]

theorem settle_cfg (f : InFlight) (s : State) : (settle f s).cfg = s.cfg := by
  unfold settle
  split <;> dsimp only <;> split_ifs <;> rfl

theorem engineStep_cfg (s : State) : (engineStep s).cfg = s.cfg := by
  rcases hseq : s.seq with _ | f
  · rw [engineStep_idle hseq]
  · rcases htodo : f.todo with _ | ⟨m, rest⟩
    · rw [engineStep_end hseq htodo, complete_cfg, settle_cfg]
    · cases m with
      | act a => rw [engineStep_act hseq htodo]; rfl
      | sample => rw [engineStep_sample hseq htodo]; rfl
      | ackEnd check => rw [engineStep_ackEnd hseq htodo]; split_ifs <;> rfl

theorem InputResult.cfg {s t : State} (h : InputResult s t) : t.cfg = s.cfg := by
  cases h with
  | engine ins v => exact engineStep_cfg _
  | executed i t hidle hexec => exact cfg_exec hexec
  | stored off v => exact writeReg_cfg off v s
  | _ => rfl

/-- No step writes a parameter (00_scope.md R5). -/
theorem step_cfg {s t : State} (h : step s = .next t) : t.cfg = s.cfg := by
  rcases step_result h with ⟨ins, hresult⟩ | ⟨rest, -, rfl⟩
  · exact hresult.cfg
  · rfl

/-- The default entries have bit 7 clear, are pairwise distinct, and are the standard glyphs (R160). -/
theorem segTableOk_default : SegTableOk Config.default := by
  have hdistinct : ∀ j < 16, ∀ k < 16, segEntry Config.default j = segEntry Config.default k → j = k := by decide
  exact ⟨⟨by decide, fun j k hj hk => hdistinct j hj k hk⟩, by decide⟩

/-- Settles O54: no step writes a parameter, the default table is checked entry by entry, and a recognised value's
pattern without its decimal point is its nibble's entry (O20), which R160 (c) makes a standard glyph. -/
theorem encoderRomIsReadOnly : Obligations.EncoderRomIsReadOnly := by
  refine ⟨fun s t h => by rw [step_cfg h], by decide, segTableOk_default, fun cfg v dp k hok hk => ?_⟩
  obtain ⟨hdistinct, hglyph⟩ := hok
  obtain ⟨hsome, -⟩ := encodeKeepsEntryAndDecimalPoint cfg v dp hdistinct
  obtain ⟨hlt, hentry, -⟩ := hsome k hk
  rw [hentry]
  exact hglyph k hlt

/-! ## The invariant of the lines -/

/-- A change that touches neither the sequencer nor the lines keeps the invariant when it keeps the chip's bounds. -/
theorem Inv.congr {s t : State} (h : Inv s) (hseq : t.seq = s.seq) (hlines : t.lines = s.lines)
    (hbounds : ChipBounds s.dev → ChipBounds t.dev) : Inv t := by
  obtain ⟨hsafe, hdev⟩ := (inv_iff s).1 h
  refine (inv_iff t).2 ⟨?_, hbounds hdev⟩
  rwa [LinesSafe, hseq, hlines]

theorem idleLines_of_inv {s : State} (h : Inv s) (hidle : s.seq = none) : idleLines s.lines = true := by
  obtain ⟨hsafe, -⟩ := (inv_iff s).1 h
  rwa [LinesSafe, hidle] at hsafe

/-- An accepted operation starts from idle lines, from which its action list is safe. -/
theorem inv_accepted {s : State} (h : Inv s) (w : Word) (i : Instr) (hidle : s.seq = none) :
    Inv (s.flying (inFlightOf w i s)) :=
  ⟨planSafe_plan s.cfg _ s.arg i s.lines (idleLines_of_inv h hidle), h.2⟩

/-- Another driver's move between the two frames of a digit write leaves the rest of the action list as it was. -/
theorem inv_parted {s : State} (h : Inv s) {f : InFlight} (hflying : s.seq = some f) :
    Inv { s with dev := s.dev.twUnspecified, seq := some { f with disturbed := true } } := by
  obtain ⟨hsafe, -, hcount⟩ := h
  rw [LinesSafe, hflying] at hsafe
  exact ⟨hsafe, freePtr_le _, hcount⟩

theorem InputResult.inv {s t : State} (hresult : InputResult s t) (h : Inv s) : Inv t := by
  cases hresult with
  | read v => exact h
  | engine ins v => exact inv_engineStep _ h
  | stored off v => exact h.congr (by rw [writeReg_eq]) (by rw [writeReg_eq]) (by rw [writeReg_eq]; exact id)
  | rejected hidle => exact h.congr hidle.symm rfl id
  | executed i t hidle hexec => exact inv_exec i s t hidle h hexec
  | accepted w i hidle => exact inv_accepted h w i hidle
  | chips d hbounds => exact h.congr rfl rfl hbounds
  | parted f hflying => exact inv_parted h hflying

/-- Settles O51: the reset levels are the idle ones, and PTR and the bit count are 0. -/
theorem invariantHoldsAtReset : Obligations.InvariantHoldsAtReset := by
  unfold Obligations.InvariantHoldsAtReset Inv
  exact ⟨rfl, by decide, by decide⟩

/-- A platform reset leaves the lines of reset, PTR a bounded free value and the bit count as it was. -/
theorem inv_platformReset {s : State} (h : Inv s) : Inv (platformReset s) := by
  obtain ⟨hsafe, -⟩ := invariantHoldsAtReset
  obtain ⟨-, -, hcount⟩ := h
  exact ⟨hsafe, freePtr_le _, hcount⟩

/-- Settles O52: a step is an input's move or a platform reset (`step_result`), and each keeps the invariant. -/
theorem everyStepKeepsTheInvariant : Obligations.EveryStepKeepsTheInvariant := by
  intro s t h hstep
  rcases step_result hstep with ⟨ins, hresult⟩ | ⟨rest, -, rfl⟩
  · exact hresult.inv h
  · exact inv_platformReset h

end Sys2Proof.Machine
end

section
/-! PROOF. What a step reports does not depend on the lines or on the attached devices (10_state.md R35, R36 (e);
43_attached_devices.md R220): each agent's move from two states that differ in those alone. -/

namespace Sys2Proof.Machine

section
variable (s : State) (ln : Lines) (d : Devices)

theorem report_accept (w : Word) (i : Instr) :
    viewNext report (accept w i (s.withOutside ln d)) = viewNext report (accept w i s) := by
  have hfault : operandFault i (s.withOutside ln d) = operandFault i s := by cases i <;> rfl
  have hflight : inFlightOf w i (s.withOutside ln d) = inFlightOf w i s := by cases i <;> rfl
  simp only [accept, hfault, hflight]
  cases operandFault i s <;> rfl

theorem report_command (w : Word) :
    viewNext report (command w (s.withOutside ln d)) = viewNext report (command w s) := by
  have hcfg : (s.withOutside ln d).cfg = s.cfg := rfl
  unfold command
  cases decodeHost w with
  | error e => rfl
  | ok i =>
    rw [hcfg]
    cases s.cfg.grain with
    | operation => exact report_exec i s ln d
    | action => exact report_accept s ln d w i

theorem report_writeReg (off : Nat) (v : Word) :
    report (writeReg off v (s.withOutside ln d)) = report (writeReg off v s) := by
  unfold writeReg
  split_ifs
  · rfl
  · cases pbufIndex off <;> rfl

theorem report_hostWrite (off width : Nat) (v : Word) :
    viewNext report (hostWrite off width v (s.withOutside ln d)) = viewNext report (hostWrite off width v s) := by
  have hstop : accessStop off width false (s.withOutside ln d) = accessStop off width false s := rfl
  unfold hostWrite
  rw [hstop]
  cases accessStop off width false s with
  | some stop => cases stop <;> rfl
  | none =>
    dsimp only
    split_ifs
    · exact report_command s ln d v
    · exact congrArg Host.Outcome.next (report_writeReg s ln d off v)

theorem report_hostRead (off width : Nat) :
    viewNext report (hostRead off width (s.withOutside ln d)) = viewNext report (hostRead off width s) := by
  have hstop : accessStop off width (off == 0x08) (s.withOutside ln d) = accessStop off width (off == 0x08) s := rfl
  unfold hostRead
  rw [hstop]
  cases accessStop off width (off == 0x08) s with
  | some stop => cases stop <;> rfl
  | none => rfl

theorem report_hostWait :
    viewNext report (hostWait (s.withOutside ln d)) = viewNext report (hostWait s) := by
  have hbusy : busy (s.withOutside ln d) = busy s := rfl
  unfold hostWait
  rw [hbusy]
  cases busy s with
  | false => rfl
  | true =>
    exact congrArg Host.Outcome.next (report_engineStep
      { s with hostData := statusWord s, inputs := .hostWait :: s.inputs } ln d)

/-- A move of another driver reports the same when it changes the devices alone while the port is free: whether it may
be made is the sequencer's to say. -/
theorem report_foreignTw {free : State → Host.Outcome State Fault Refusal}
    (hfree : ∀ u : State, ∃ e, free u = .next { u with dev := e }) :
    viewNext report (foreignTw free (s.withOutside ln d)) = viewNext report (foreignTw free s) := by
  have hseq : (s.withOutside ln d).seq = s.seq := rfl
  have hcfg : (s.withOutside ln d).cfg = s.cfg := rfl
  have hsame : viewNext report (free (s.withOutside ln d)) = viewNext report (free s) := by
    obtain ⟨e, he⟩ := hfree (s.withOutside ln d)
    obtain ⟨e', he'⟩ := hfree s
    rw [he, he']
    rfl
  unfold foreignTw
  rw [hseq, hcfg]
  cases s.seq with
  | none => exact hsame
  | some f =>
    dsimp only
    split_ifs
    · exact hsame
    · rfl
    · rfl

theorem report_busWord (w : BitVec 16) :
    viewNext report (busWord w (s.withOutside ln d)) = viewNext report (busWord w s) := by
  obtain ⟨e, -, he⟩ := busWord_eq w (s.withOutside ln d)
  obtain ⟨e', -, he'⟩ := busWord_eq w s
  rw [he, he']
  rfl

theorem report_foreignSr (w : BitVec 16) :
    viewNext report (foreignSr w (s.withOutside ln d)) = viewNext report (foreignSr w s) := by
  have hseq : (s.withOutside ln d).seq = s.seq := rfl
  unfold foreignSr
  rw [hseq]
  cases s.seq with
  | none => exact report_busWord s ln d w
  | some f =>
    dsimp only
    split_ifs
    · exact report_busWord s ln d w
    · rfl

theorem report_takeInput (e : Input) :
    viewNext report (takeInput e (s.withOutside ln d)) = viewNext report (takeInput e s) := by
  cases e with
  | hostWrite off width v => exact report_hostWrite s ln d off width v
  | hostRead off width => exact report_hostRead s ln d off width
  | hostWait => exact report_hostWait s ln d
  | engine => exact congrArg Host.Outcome.next (report_engineStep s ln d)
  | twStart => exact report_foreignTw s ln d fun u => ⟨u.dev.frameStart, rfl⟩
  | twByte b =>
    refine report_foreignTw s ln d fun u => ?_
    obtain ⟨e, -, -, -, he⟩ := busByte_eq b u
    exact ⟨e, he⟩
  | twStop => exact report_foreignTw s ln d fun u => ⟨u.dev.frameStop, rfl⟩
  | srWord w => exact report_foreignSr s ln d w
  | platformReset => rfl

end

/-- Settles O50: the next input is the same in both states, and no agent's move reads a line or a device for what it
reports. -/
theorem reportsDependOnNoLineOrChip : Obligations.ReportsDependOnNoLineOrChip := by
  intro s ln d
  have hinputs : (s.withOutside ln d).inputs = s.inputs := rfl
  show viewNext report (nextMove (s.withOutside ln d)) = viewNext report (nextMove s)
  unfold nextMove
  rw [hinputs]
  cases s.inputs with
  | nil => exact congrArg Host.Outcome.next (report_engineStep s ln d)
  | cons e rest => exact report_takeInput { s with inputs := rest } ln d e

end Sys2Proof.Machine
end

section
/-! PROOF. The operations of the two-wire engine from every state: the lifecycle hooks, TW_CONFIG, the acknowledged
digit writes, and the faults of unwritten operands (40_two_wire_engine.md R121 to R127). -/

namespace Sys2Proof.Machine

/-- Settles O24: each is the emission of its hook action and the completion. -/
theorem lifecycleHooksEmitOneAction : Obligations.LifecycleHooksEmitOneAction := fun _ => ⟨rfl, rfl⟩

/-- Settles O25: the frame is unchecked, so it completes with the one sample that it takes. -/
theorem twConfigSendsOneFrameWhateverTheSample : Obligations.TwConfigSendsOneFrameWhateverTheSample := by
  intro b on s
  have hsample : levelsFrom 0 1 s = [oracleAt 0 s] := rfl
  obtain ⟨d, honly, hend⟩ := twEnd_leaves .ok 1 false (s := s)
    (isTw_sentFrame [cmdDispctlByte b on] [oracleAt 0 s]) (driveAll_sentFrame _ _ rfl s.lines)
  exact ⟨d, honly, by rw [exec_twConfig, hsample, finish_eq_twEnd, hend]; rfl⟩

/-- TW_SETDIGIT and TW_SETHEX are a digit write of one pattern. -/
theorem writeDigits_one_writesDigits (pat : Nat → Byte) {a : Nat} {s : State} (ha : a < 6) (h : AllAck 3 s) :
    WritesDigits pat a 1 s (writeDigits pat a 1 s) :=
  writeDigits_writesDigits pat ha (by rwa [clampCount_one ha])

/-- Settles O26: each of the three is WRITE_DIGITS of its patterns. -/
theorem acknowledgedDigitWritesSendBothFrames : Obligations.AcknowledgedDigitWritesSendBothFrames :=
  fun _ _ _ _ _ _ ha => ⟨fun hack => ⟨_, rfl, writeDigits_one_writesDigits _ ha hack⟩,
    fun hack => ⟨_, rfl, writeDigits_one_writesDigits _ ha hack⟩,
    fun hready hack => ⟨_, exec_twSetdigits hready, writeDigits_writesDigits _ ha hack⟩⟩

/-! ## Unwritten operands -/

theorem pbufFault_iff (n : Nat) (s : State) : pbufFault n s = true ↔ ∃ i, i < n ∧ pbufIsWritten i s = false := by
  simp [pbufFault]

/-- TW_SETDIGITS faults or completes. -/
theorem exec_twSetdigits_eq (a c : Nat) (s : State) : exec (.twSetdigits a c) s =
    if a < 6 ∧ ∃ i, i < clampCount a c ∧ pbufIsWritten i s = false then .fault .pbufUnwritten
    else .next (writeDigits (fun i => readPbuf i s) a c s) := by
  simp only [← pbufFault_iff]
  rfl

theorem exec_srDispnum_of_unwritten {s : State} (harg : s.argWritten = false) :
    exec .srDispnum s = .fault .argUnwritten := if_pos harg

/-- Settles O30: TW_SETDIGITS is a digit write unless it would read an unwritten entry, and SR_DISPNUM an emission once
ARG is written. -/
theorem unwrittenOperandsFault : Obligations.UnwrittenOperandsFault := by
  intro a c s
  have hdigits : (exec (.twSetdigits a c) s = .fault .pbufUnwritten ↔
      a < 6 ∧ ∃ i, i < min c (6 - a) ∧ pbufIsWritten i s = false) ∧ ∀ r, exec (.twSetdigits a c) s ≠ .refused r := by
    rw [exec_twSetdigits_eq]
    split_ifs with hfault
    · exact ⟨iff_of_true rfl hfault, nofun⟩
    · exact ⟨iff_of_false nofun hfault, nofun⟩
  have hnumber : (exec .srDispnum s = .fault .argUnwritten ↔ s.argWritten = false) ∧
      ∀ r, exec .srDispnum s ≠ .refused r := by
    cases harg : s.argWritten with
    | false =>
      rw [exec_srDispnum_of_unwritten harg]
      exact ⟨iff_of_true rfl rfl, nofun⟩
    | true =>
      rw [exec_srDispnum harg]
      exact ⟨iff_of_false nofun nofun, nofun⟩
  exact ⟨hdigits.1, hnumber.1, hdigits.2, hnumber.2⟩

end Sys2Proof.Machine
end

section
/-! PROOF. The operations of the two-wire engine as its chip takes them, through the wires
(43_attached_devices.md R221 to R225). -/

namespace Sys2Proof.Machine

/-- Two-wire actions reach the chip inside the platform's window. -/
theorem emitAll_dev_of_wired {acts : List Action} {s : State} (hwired : s.dev.twWired s.cfg = true)
    (htw : acts.all Action.isTw = true) :
    (emitAll acts s).dev = s.dev.twSeesAll s.cfg s.lines acts := by
  rw [emitAll_eq]
  exact seeAll_eq_twSeesAll _ _ _ _ hwired htw

theorem takeCmdAddr_of_lt {a : Nat} (ha : a < 6) (d : Devices) :
    d.takeCmdAddr a = ({ d with tw := { d.tw with ptr := a } } : Devices).expect .afterAddr := by
  rw [Devices.takeCmdAddr, if_pos (show a < twDigits from ha)]

/-- CMD_DATA as the first byte of a frame sets AUTOINC and changes no other register (R222). -/
theorem frameStart_afterByte_cmdData (d : Devices) : ∃ rx,
    d.frameStart.afterByte cmdDataByte = ({ d with tw := { d.tw with autoInc := true } } : Devices).setRx rx :=
  ⟨_, rfl⟩

/-- CMD_ADDR as the first byte of a frame sets PTR, and the bytes that follow are data (R223). -/
theorem frameStart_afterByte_cmdAddr {a : Nat} (ha : a < 6) (d : Devices) : ∃ rx, rx.pos = .afterAddr ∧
    d.frameStart.afterByte (cmdAddrByte a) = ({ d with tw := { d.tw with ptr := a } } : Devices).setRx rx := by
  have hdecode : decodeTw d.frameStart.tw.rx.pos (cmdAddrByte a) = .ok (.cmdAddr a) :=
    decode_cmdAddrByte a (by omega)
  refine ⟨{ active := true, count := 0, shift := cmdAddrByte a, pos := .afterAddr }, rfl, ?_⟩
  simp only [Devices.afterByte, Devices.takeByte, setRx_rx, hdecode, takeCmdAddr_of_lt ha]
  rfl

/-- CMD_DISPCTL as the first byte of a frame sets BRI and ON (R225). -/
theorem frameStart_afterByte_cmdDispctl (b : Byte) (on : Bool) (d : Devices) : ∃ rx,
    d.frameStart.afterByte (cmdDispctlByte b on) =
      ({ d with tw := { d.tw with bri := b.setWidth 3, on := on } } : Devices).setRx rx := by
  have hmask : cmdDispctlByte b on = cmdDispctlByte ((b.setWidth 3).setWidth 8) on := by
    unfold cmdDispctlByte
    congr 2
    apply BitVec.eq_of_getLsbD_eq
    intro i hi
    interval_cases i <;> simp
  have hdecode : decodeTw d.frameStart.tw.rx.pos (cmdDispctlByte b on) = .ok (.cmdDispctl (b.setWidth 3) on) := by
    rw [hmask]
    exact decode_cmdDispctlByte _ on
  refine ⟨{ active := true, count := 0, shift := cmdDispctlByte b on, pos := .afterOther }, ?_⟩
  simp only [Devices.afterByte, Devices.takeByte, setRx_rx, hdecode]
  rfl

/-- `ShowsDigits` for the two-wire chip alone: `c` before the digit write, `e` after it. -/
def ChipShows (pat : Nat → Byte) (a n : Nat) (c e : TwChip) : Prop :=
  (∀ i, i < n → e.dreg.getD (a + i) 0 = pat i) ∧ (∀ k, k < a ∨ a + n ≤ k → e.dreg.getD k 0 = c.dreg.getD k 0) ∧
    e.autoInc = true ∧ e.ptr = a + n ∧ e.bri = c.bri ∧ e.on = c.on

theorem showsDigits_iff (pat : Nat → Byte) (a n : Nat) (s t : State) :
    ShowsDigits pat a n s t ↔ ChipShows pat a n s.dev.tw t.dev.tw := Iff.rfl

section
variable (pat : Nat → Byte) {a n : Nat} (ha : a < 6) (hn : a + n ≤ 6)
include ha hn

/-- The bytes of a digit frame from the first on: PTR is set, and the patterns land in the digits from there (R223,
R224). -/
theorem frameStart_digitFrame (d : Devices) (hinc : d.tw.autoInc = true) :
    ChipShows pat a n d.tw ((digitFrameBytes pat a n).foldl (fun e x => e.afterByte x) d.frameStart).tw := by
  obtain ⟨rx, hpos, haddr⟩ := frameStart_afterByte_cmdAddr ha d
  obtain ⟨e, he, hpat, hother, -, hrest⟩ :=
    foldl_afterByte_data pat n (({ d with tw := { d.tw with ptr := a } } : Devices).setRx rx) hpos hinc hn
  rw [digitFrameBytes, List.foldl_cons, haddr, he]
  exact ⟨hpat, hother, hrest⟩

/-- The mode frame sets AUTOINC, and the digit frame writes the patterns. -/
theorem twSeesAll_digitWrite (cfg : Config) (ln : Lines) (d : Devices) :
    ChipShows pat a n d.tw (d.twSeesAll cfg ln (sentFrame [cmdDataByte] (List.replicate 1 cfg.ackLevel) ++
      sentFrame (digitFrameBytes pat a n) (List.replicate (digitFrameBytes pat a n).length cfg.ackLevel))).tw := by
  obtain ⟨rx, hmode⟩ := twSeesAll_sentFrame cfg [cmdDataByte] ln d
  obtain ⟨rx', hinc⟩ := frameStart_afterByte_cmdData d
  rw [List.length_singleton, List.foldl_cons, List.foldl_nil, hinc, setRx_setRx] at hmode
  obtain ⟨rx'', hdigits⟩ := twSeesAll_sentFrame cfg (digitFrameBytes pat a n)
    (ln.driveAll (sentFrame [cmdDataByte] (List.replicate 1 cfg.ackLevel)))
    (({ d with tw := { d.tw with autoInc := true } } : Devices).setRx rx)
  rw [twSeesAll_append, hmode, hdigits]
  exact frameStart_digitFrame pat ha hn (({ d with tw := { d.tw with autoInc := true } } : Devices).setRx rx) rfl

end

/-- An acknowledged digit write, as the chip takes it: the mode frame, then the digit frame. -/
theorem writeDigits_showsDigits (pat : Nat → Byte) {a c : Nat} {s : State} (ha : a < 6)
    (hwired : s.dev.twWired s.cfg = true) (h : AllAck (clampCount a c + 2) s) :
    ShowsDigits pat a (clampCount a c) s (writeDigits pat a c s) := by
  have hmode : levelsFrom 0 1 s = List.replicate 1 s.cfg.ackLevel :=
    levelsFrom_of_ack 0 1 s fun k _ hk => h k (by omega)
  have hdigits : levelsFrom 1 (clampCount a c + 1) s =
      List.replicate (digitFrameBytes pat a (clampCount a c)).length s.cfg.ackLevel := by
    rw [length_digitFrameBytes]
    exact levelsFrom_of_ack 1 _ s fun k _ hk => h k (by omega)
  have hfits : a + clampCount a c ≤ 6 := by simp only [clampCount, twDigits]; omega
  rw [showsDigits_iff, writeDigits_ok pat a c s ha h, hmode, hdigits, finish_dev,
    emitAll_dev_of_wired (s := afterSamples _ s) hwired (by simp [isTw_sentFrame])]
  exact twSeesAll_digitWrite pat ha hfits s.cfg s.lines s.dev

/-- TW_SETDIGIT and TW_SETHEX write one digit. -/
theorem writeDigits_one_showsDigits (pat : Nat → Byte) {a : Nat} {s : State} (ha : a < 6)
    (hwired : s.dev.twWired s.cfg = true) (h : AllAck 3 s) : ShowsDigits pat a 1 s (writeDigits pat a 1 s) := by
  have hone := clampCount_one ha
  have hshows := writeDigits_showsDigits (c := 1) pat ha hwired (by rwa [hone])
  rwa [hone] at hshows

/-- A TW_SETDIGITS that completes is a digit write. -/
theorem writeDigits_of_exec_twSetdigits {a c : Nat} {s t : State} (h : exec (.twSetdigits a c) s = .next t) :
    t = writeDigits (fun i => readPbuf i s) a c s := by
  rw [exec_twSetdigits_eq] at h
  split_ifs at h
  exact (Host.Outcome.next.inj h).symm

/-- Settles O40: each of the three is WRITE_DIGITS of its patterns, whose acknowledged bytes the chip takes in order. -/
theorem acknowledgedDigitWriteReachesTheDigits : Obligations.AcknowledgedDigitWriteReachesTheDigits := by
  intro a c p v dp s t ha hwired
  refine ⟨fun hack hexec => ?_, fun hack hexec => ?_, fun hack hexec => ?_⟩
  · rw [writeDigits_of_exec_twSetdigits hexec]
    exact writeDigits_showsDigits _ ha hwired hack
  · obtain rfl := Host.Outcome.next.inj hexec
    exact writeDigits_one_showsDigits _ ha hwired hack
  · obtain rfl := Host.Outcome.next.inj hexec
    exact writeDigits_one_showsDigits _ ha hwired hack

/-- Settles O41: the one byte of the frame is CMD_DISPCTL in command position. -/
theorem acknowledgedConfigReachesTheChip : Obligations.AcknowledgedConfigReachesTheChip := by
  intro b on s t hwired hack hexec
  have hsample : levelsFrom 0 1 s = List.replicate 1 s.cfg.ackLevel := levelsFrom_of_ack 0 1 s fun k _ hk => hack k hk
  rw [exec_twConfig, hsample] at hexec
  obtain rfl := Host.Outcome.next.inj hexec
  obtain ⟨rx, hframe⟩ := twSeesAll_sentFrame s.cfg [cmdDispctlByte b on] s.lines s.dev
  obtain ⟨rx', hbyte⟩ := frameStart_afterByte_cmdDispctl b on s.dev
  rw [List.length_singleton, List.foldl_cons, List.foldl_nil, hbyte] at hframe
  rw [finish_dev, emitAll_dev_of_wired (s := afterSamples 1 s) hwired (isTw_sentFrame _ _),
    afterSamples_dev, afterSamples_cfg, afterSamples_lines, hframe]
  exact ⟨rfl, rfl, rfl, rfl, rfl⟩

end Sys2Proof.Machine
end

section
/-! PROOF. The operations of the shift-register engine from every state, and the register that its word reaches through
the wires (42_shift_register_engine.md R182 to R186, 43_attached_devices.md R230 to R234). -/

namespace Sys2Proof.Machine

/-- With the latch high before, the actions of SR_INIT make no edge that the chip takes (R230). -/
theorem seeAll_srInit_of_latchHigh (cfg : Config) {ln : Lines} (d : Devices) (hhigh : ln.srLoad = true) :
    d.seeAll cfg ln (srInitActions cfg) = d := by
  simp [srInitActions, Devices.see, Devices.srSees, srWired, Lines.drive, hhigh]

/-- Settles O32: SR_INIT is one emission, of actions of its own port. -/
theorem srInitConfiguresThePort : Obligations.SrInitConfiguresThePort := by
  intro s
  refine ⟨s.dev.seeAll s.cfg s.lines (srInitActions s.cfg), seeAll_onlySr _ _ _ _ rfl,
    seeAll_srInit_of_latchHigh s.cfg s.dev, ?_⟩
  rw [exec_srInit, emitAll_eq]
  rfl

/-- After the words of the four positions: SR_DIN holds bit 0 of the last one's value. -/
theorem driveAll_sentWords_four (f : Nat → Byte × Byte) (ln : Lines) :
    ln.driveAll (sentWords ((List.range 4).map f)) =
      { ln with srDin := (f 3).2.getLsbD 0, srClk := false, srLoad := true } := by
  rw [List.range_succ, List.map_append]
  exact driveAll_sentWords _ (f 3) ln

/-- An operation that writes the four positions. -/
theorem shiftsOut_sentWords_four (f : Nat → Byte × Byte) (s : State) :
    ShiftsOut (sentWords ((List.range 4).map f)) ((f 3).2.getLsbD 0) s
      (finish (emitAll (sentWords ((List.range 4).map f)) s)) :=
  shiftsOut_finish_emitAll (isSr_sentWords _) (driveAll_sentWords_four f s.lines)

/-- Settles O33: SR_CLEAR is one emission, of the four words with the blank code. -/
theorem srClearBlanksFourPositions : Obligations.SrClearBlanksFourPositions :=
  fun s => ⟨_, exec_srClear s, shiftsOut_sentWords_four _ s⟩

/-- Settles O34: with ARG written SR_DISPNUM is one emission, of the four words with its display codes. -/
theorem srDispnumWritesFourPositions : Obligations.SrDispnumWritesFourPositions :=
  fun s harg => ⟨_, exec_srDispnum harg, shiftsOut_sentWords_four _ s⟩

/-- Settles O42: the word is in SHIFT when the latch rises, and is committed to the register that its address names. -/
theorem srWriteregReachesTheRegister : Obligations.SrWriteregReachesTheRegister := by
  intro a v r s t hwired hclk hreg hexec
  have hlatch : (s.dev.setSrShift (srWordOf a v)).srLatch s.cfg.digitRegBase =
      (s.dev.setSrShift (srWordOf a v)).srWrite r v := by
    simp only [Devices.srLatch, setSrShift_shift, srAddr_srWordOf, srValue_srWordOf, hreg]
  have hchip : t.dev.sr = ({ s.dev.sr with shift := srWordOf a v } : SrChip).write r v := by
    rw [← Host.Outcome.next.inj ((exec_srWritereg a v s).symm.trans hexec), emitAll_eq]
    exact congrArg Devices.sr ((seeAll_srXfer s.cfg s.lines a v s.dev hwired hclk).trans hlatch)
  obtain ⟨hshift, hnamed, hothers⟩ := srWrite_read r v { s.dev.sr with shift := srWordOf a v }
  rw [hchip, hshift]
  exact ⟨srAddr_srWordOf a v, srValue_srWordOf a v, hnamed, fun q hq => (hothers q hq).trans (by cases q <;> rfl)⟩

end Sys2Proof.Machine
end

section
/-! PROOF. The bytes and words of the attached chips as instructions (43_attached_devices.md R222 to R234). -/

namespace Sys2Proof.Machine

/-- What changes the two-wire chip alone changes its registers and the count of the draws. -/
theorem OnlyTwChip.eq_with {d e : Devices} (h : OnlyTwChip d e) : e = { d with tw := e.tw, draws := e.draws } := by
  obtain ⟨hsr, hup⟩ := h
  rw [← hsr, ← hup]

theorem takeCmdAddr_onlyTw (a : Nat) (d : Devices) : OnlyTwChip d (d.takeCmdAddr a) := by
  unfold Devices.takeCmdAddr
  split_ifs <;> exact ⟨rfl, rfl⟩

theorem takeData_onlyTw (p : Byte) (d : Devices) : OnlyTwChip d (d.takeData p) := by
  unfold Devices.takeData
  split_ifs <;> exact ⟨rfl, rfl⟩

/-- A data byte with AUTOINC = 1 inside the digits (R224). -/
theorem takeData_of_autoInc (p : Byte) {d : Devices} (hptr : d.tw.ptr < 6) (hinc : d.tw.autoInc = true) :
    d.takeData p = ({ d with tw := { d.tw with
      dreg := d.tw.dreg.setIfInBounds d.tw.ptr p, ptr := d.tw.ptr + 1 } } : Devices).expect .afterAddr := by
  rw [Devices.takeData, if_neg (by simp [twDigits, hptr, hinc])]

/-- Settles O37: each command is its chip function, which writes its own registers and the receiver. -/
theorem twoWireCommandsSetTheChip : Obligations.TwoWireCommandsSetTheChip := by
  intro a b on s
  refine ⟨⟨_, rfl⟩, fun ha => ⟨{ s.dev.tw.rx with pos := .afterAddr }, rfl, ?_⟩,
    ⟨(s.dev.takeCmdAddr a).tw, (s.dev.takeCmdAddr a).draws, ?_⟩, ⟨_, rfl⟩⟩
  · exact congrArg (fun d => Host.Outcome.next { s with dev := d }) (takeCmdAddr_of_lt ha s.dev)
  · exact congrArg (fun d => Host.Outcome.next { s with dev := d }) (takeCmdAddr_onlyTw a s.dev).eq_with

/-- Settles O38: with AUTOINC = 1 the byte is one register write and PTR moves on; in every case the chip alone changes,
PTR stays bounded and data is expected. -/
theorem dataByteWritesTheAddressedDigit : Obligations.DataByteWritesTheAddressedDigit := by
  intro p s
  refine ⟨fun hptr hinc => ⟨_, rfl, ?_⟩, (s.dev.takeData p).tw, (s.dev.takeData p).draws, ?_,
    takeData_ptr p s.dev, rfl⟩
  · simp only [onDevices, takeData_of_autoInc p hptr hinc]
    refine ⟨rfl, ?_, fun i hi => ?_, rfl⟩
    · exact (getD_setIfInBounds ..).trans (if_pos ⟨rfl, hptr⟩)
    · exact (getD_setIfInBounds ..).trans (if_neg fun hsame => hi hsame.1)
  · exact congrArg (fun d => Host.Outcome.next { s with dev := d }) (takeData_onlyTw p s.dev).eq_with

/-- Settles O39: each of the ten words is the instruction of its register, whose write leaves the others. -/
theorem shiftRegisterWordsWriteOneRegister : Obligations.ShiftRegisterWordsWriteOneRegister := by
  intro v s i r hpair
  have hinstr : i = r.instr v := by
    simp only [List.mem_cons, Prod.mk.injEq, List.not_mem_nil, or_false] at hpair
    rcases hpair with ⟨rfl, rfl⟩ | ⟨rfl, rfl⟩ | ⟨rfl, rfl⟩ | ⟨rfl, rfl⟩ | ⟨rfl, rfl⟩ | ⟨rfl, rfl⟩ | ⟨rfl, rfl⟩ |
      ⟨rfl, rfl⟩ | ⟨rfl, rfl⟩ | ⟨rfl, rfl⟩ <;> rfl
  subst hinstr
  exact ⟨s.dev.sr.write r v, exec_srReg r v s, srWrite_read r v s.dev.sr⟩

end Sys2Proof.Machine
end

section
/-! PROOF. The sequencer: each move of the engine shortens the action list, and from acceptance the moves end in the
state that the operation as one step gives (10_state.md R22, R24, R29). -/

namespace Sys2Proof.Machine

/-! ## Acceptance and one move -/

theorem accept_of_noFault {i : Instr} {s : State} (w : Word) (h : operandFault i s = none) :
    accept w i s = .next (s.flying (inFlightOf w i s)) := by
  simp only [accept, h]
  rfl

theorem accept_of_fault {i : Instr} {s : State} {f : Fault} (w : Word) (h : operandFault i s = some f) :
    accept w i s = .fault f := by
  simp only [accept, h]

/-- A move before the end of the action list emits one action, shortens the list and leaves RC. -/
theorem engineStep_of_todo {s : State} {f : InFlight} (hflying : s.seq = some f) (htodo : f.todo ≠ []) :
    ∃ g a, (engineStep s).seq = some g ∧ g.todo.length < f.todo.length ∧ (engineStep s).rc = s.rc ∧
      (engineStep s).trace = s.trace ++ [a] := by
  obtain ⟨m, rest, hlist⟩ := List.exists_cons_of_ne_nil htodo
  have hshorter : rest.length < f.todo.length := by simp [hlist]
  cases m with
  | act a =>
    rw [engineStep_act hflying hlist]
    exact ⟨_, a, rfl, hshorter, rfl, rfl⟩
  | sample =>
    rw [engineStep_sample hflying hlist]
    exact ⟨_, .sample (nextLevel s), rfl, hshorter, rfl, rfl⟩
  | ackEnd check =>
    rw [engineStep_ackEnd hflying hlist]
    split_ifs
    · exact ⟨_, .dioOut, rfl, Nat.zero_lt_of_lt hshorter, rfl, rfl⟩
    · exact ⟨_, .dioOut, rfl, hshorter, rfl, rfl⟩

/-- Settles O44: acceptance writes the sequencer alone, a move before the end emits one action, and the move at the end
is the completion. -/
theorem rcIsWrittenOnlyAtCompletion : Obligations.RcIsWrittenOnlyAtCompletion := by
  refine ⟨fun w i s hnoFault => ⟨_, accept_of_noFault w hnoFault, rfl, rfl, rfl, rfl⟩, fun s f hflying =>
    ⟨fun htodo => ?_, fun hend => ?_⟩⟩
  · obtain ⟨g, a, hseq, -, hrc, htrace⟩ := engineStep_of_todo hflying htodo
    exact ⟨busy_of_seq_ne_none (by simp [hseq]), hrc, a, htrace⟩
  · rw [engineStep_end hflying hend]
    exact ⟨rfl, rfl, settle_frames f s⟩

/-- Settles O45, by induction on the number of moves: each shortens the list, and the one at its end leaves the block
idle. -/
theorem everyOperationCompletes : Obligations.EveryOperationCompletes := by
  intro s f n hflying hn
  induction n generalizing s f with
  | zero => exact absurd hn (Nat.not_succ_le_zero _)
  | succ n ih =>
    rw [engineSteps]
    by_cases htodo : f.todo = []
    · have hidle : (engineStep s).seq = none := by rw [engineStep_end hflying htodo, complete_seq]
      rw [engineSteps_idle n _ hidle, busy, hidle, Option.isSome_none]
    · obtain ⟨g, a, hseq, hshorter, -⟩ := engineStep_of_todo hflying htodo
      exact ih (engineStep s) g hseq (by omega)

/-! ## The operation move by move -/

/-- The two granularities agree on an instruction: both fault, or the single moves from acceptance end where the one
step does. -/
def GrainsAgree (w : Word) (i : Instr) (s : State) : Prop :=
  (∃ f, exec i s = .fault f ∧ accept w i s = .fault f) ∨
    ∃ s1 t, exec i s = .next t ∧ accept w i s = .next s1 ∧
      engineSteps (t.trace.length - s.trace.length + 1) s1 = t

section
variable {w : Word} {i : Instr} {s s1 t : State} {g : InFlight}

/-- The moves run the action list to its end, and the completion gives what the one step gives. -/
theorem grainsAgree_of_moves (hnoFault : operandFault i s = none)
    (hmoves : Moves (s.flying (inFlightOf w i s)) (s1.flying g)) (hend : g.todo = [])
    (hexec : exec i s = .next (complete g.result (settle g (s1.flying g)))) : GrainsAgree w i s :=
  .inr ⟨_, _, hexec, accept_of_noFault w hnoFault, steps_of_moves s s1 _ g hmoves hend⟩

/-- The same for an operation other than SEG_ENCODE, whose completion writes RC alone. -/
theorem grainsAgree_of_run (hnoFault : operandFault i s = none) (hseg : ∀ v dp, i ≠ .segEncode v dp)
    (hrun : ∃ s1 g, Moves (s.flying (inFlightOf w i s)) (s1.flying g) ∧ g.todo = [] ∧
      g.instr = (inFlightOf w i s).instr ∧ g.disturbed = (inFlightOf w i s).disturbed ∧ complete g.result s1 = t)
    (hexec : exec i s = .next t) : GrainsAgree w i s := by
  obtain ⟨s1, g, hmoves, hend, hinstr, hdisturbed, rfl⟩ := hrun
  refine grainsAgree_of_moves hnoFault hmoves hend ?_
  rw [hexec, flying_complete s1 g hdisturbed fun v dp => hinstr ▸ hseg v dp]

/-- An operation that is one list of actions. -/
theorem grainsAgree_of_emitAll {acts : List Action} (hnoFault : operandFault i s = none)
    (hseg : ∀ v dp, i ≠ .segEncode v dp)
    (hplan : plan s.cfg (copiedPatterns i s) s.arg i = (acts.map .act, .ok))
    (hexec : exec i s = .next (finish (emitAll acts s))) : GrainsAgree w i s := by
  obtain ⟨g, hmoves, hend, hinstr, hdisturbed, hresult⟩ :=
    moves_plain acts (inFlightOf w i s) s (congrArg Prod.fst hplan)
  refine grainsAgree_of_run hnoFault hseg ⟨_, g, hmoves, hend, hinstr, hdisturbed, ?_⟩ hexec
  rw [hresult, show (inFlightOf w i s).result = .ok from congrArg Prod.snd hplan, finish]

/-- A digit write. -/
theorem grainsAgree_of_writeDigits {pat : Nat → Byte} {a c : Nat} (hnoFault : operandFault i s = none)
    (hseg : ∀ v dp, i ≠ .segEncode v dp)
    (hplan : plan s.cfg (copiedPatterns i s) s.arg i = writeDigitsPlan pat a c)
    (hexec : exec i s = .next (writeDigits pat a c s)) : GrainsAgree w i s :=
  grainsAgree_of_run hnoFault hseg (moves_writeDigits pat a c (inFlightOf w i s) s (congrArg Prod.fst hplan)
    (congrArg Prod.snd hplan)) hexec

end

/-- TW_CONFIG is one unchecked frame. -/
theorem grainsAgree_twConfig (w : Word) (b : Byte) (on : Bool) (s : State) : GrainsAgree w (.twConfig b on) s := by
  obtain ⟨l, hmoves⟩ := moves_frame false [cmdDispctlByte b on] [] (inFlightOf w (.twConfig b on) s) s
  rw [List.append_nil, frame_ok false _ s (by simp)] at hmoves
  exact grainsAgree_of_run rfl nofun ⟨_, _, hmoves, rfl, rfl, rfl, rfl⟩ (exec_twConfig b on s)

/-- TW_SETDIGITS faults at its acceptance as in one step, and else sends the patterns that it copied then. -/
theorem grainsAgree_twSetdigits (w : Word) (a c : Nat) (s : State) : GrainsAgree w (.twSetdigits a c) s := by
  by_cases hfault : a < twDigits ∧ pbufFault (clampCount a c) s = true
  · exact .inl ⟨.pbufUnwritten, if_pos hfault, accept_of_fault w (if_pos hfault)⟩
  · refine grainsAgree_of_writeDigits (pat := fun i => readPbuf i s) (if_neg hfault) nofun ?_ (if_neg hfault)
    exact writeDigitsPlan_congr _ _ a c fun i hi => patternOf_copied s.cfg a c s i hi

theorem grainsAgree_srDispnum (w : Word) (s : State) : GrainsAgree w .srDispnum s := by
  by_cases harg : s.argWritten = false
  · exact .inl ⟨.argUnwritten, if_pos harg, accept_of_fault w (if_pos harg)⟩
  · refine grainsAgree_of_emitAll (acts := srWriteActions s.cfg 0 (displayCodes s.cfg s.arg.toInt)) (if_neg harg) nofun
      rfl ((if_neg harg).trans ?_)
    rw [srWriteFrom_eq, argValue]

/-- Every command's moves agree with its one step. -/
theorem grainsAgree {w : Word} {i : Instr} (s : State) (hdecode : decodeHost w = .ok i) : GrainsAgree w i s := by
  obtain ⟨-, hcommand⟩ := decodeHost_ok hdecode
  cases i with
  | twInit => exact grainsAgree_of_emitAll (acts := [.pInit]) rfl nofun rfl rfl
  | twDeinit => exact grainsAgree_of_emitAll (acts := [.pDeinit]) rfl nofun rfl rfl
  | twConfig b on => exact grainsAgree_twConfig w b on s
  | twSetdigit p a => exact grainsAgree_of_writeDigits (pat := fun _ => p) rfl nofun rfl rfl
  | twSetdigits a c => exact grainsAgree_twSetdigits w a c s
  | twSethex v dp a => exact grainsAgree_of_writeDigits (pat := fun _ => segByte s.cfg v dp) rfl nofun rfl rfl
  | segEncode v dp => exact grainsAgree_of_moves (s1 := s) rfl (.refl _) rfl rfl
  | srInit => exact grainsAgree_of_emitAll rfl nofun rfl (exec_srInit s)
  | srWritereg r v => exact grainsAgree_of_emitAll rfl nofun rfl (exec_srWritereg r v s)
  | srClear =>
    refine grainsAgree_of_emitAll (acts := srWriteActions s.cfg 0 (blankCodes s.cfg)) rfl nofun rfl ?_
    rw [exec, execSrClear, srWriteFrom_eq]
  | srDispnum => exact grainsAgree_srDispnum w s
  | _ => rcases hcommand with htw | hsr | ⟨v, dp, hseg⟩ <;> contradiction

/-- Settles O43: whether an operand faults is checked at acceptance as in the one step, and from acceptance the moves
are one for each action that the one step emits and one for its completion. -/
theorem singleMovesMakeTheWholeOperation : Obligations.SingleMovesMakeTheWholeOperation := by
  intro w i s hdecode
  rcases grainsAgree s hdecode with ⟨f, hexec, haccept⟩ | ⟨s1, t, hexec, haccept, hmoves⟩ <;> rw [hexec, haccept]
  · exact ⟨fun _ => nofun, fun _ => Iff.rfl, fun _ => nofun⟩
  · refine ⟨fun t' ht => ?_, fun _ => iff_of_false nofun nofun, nofun⟩
    obtain rfl := Host.Outcome.next.inj ht
    exact ⟨s1, rfl, hmoves⟩

end Sys2Proof.Machine
end

section
/-! PROOF. The step at the level of the inputs: reset, the idle block, the host window, and the other drivers
(10_state.md R22 to R27, 20_memory.md R50, 70_reset_and_hazards.md R280, R285). -/

namespace Sys2Proof.Machine

/-! ## Reset -/

/-- After reset no PBUF entry has been written (70_reset_and_hazards.md R280). -/
theorem pbufIsWritten_replicate (i : Nat) : (Vector.replicate 6 false).getD i false = false := by
  by_cases hi : i < 6 <;> simp [Vector.getD, Array.getD_eq_getD_getElem?, hi]

/-- Settles O1: the reset state is written out, and each value is read from it. -/
theorem resetLeavesTheSpecsValues : Obligations.ResetLeavesTheSpecsValues :=
  ⟨rfl, rfl, rfl, rfl, pbufIsWritten_replicate, rfl, rfl⟩

/-- Settles O9: the block's fields after a platform reset are those of the reset state. -/
theorem platformResetRestoresTheBlock : Obligations.PlatformResetRestoresTheBlock :=
  fun _ _ hinput => ⟨_, step_of_inputs hinput, rfl, statusWord_of_idle rfl, rfl, rfl, pbufIsWritten_replicate, rfl, rfl,
    rfl, rfl⟩

/-- Settles O3: with no input the step is the engine's own, and the engine is idle. -/
theorem idleBlockWaits : Obligations.IdleBlockWaits := by
  intro s hinputs hidle
  simp only [step, nextMove, hinputs, engineStep_idle hidle]

/-! ## The registers by their offset -/

theorem pbufIndex_of_entry {i : Nat} (hi : i < 6) : pbufIndex (0x10 + 4 * i) = some i := by
  rw [pbufIndex, if_pos (by omega)]
  congr 1
  omega

theorem pbufIndex_of_unmapped {off : Nat} (hoff : off < 0x10 ∨ 0x28 ≤ off) : pbufIndex off = none :=
  if_neg (by omega)

theorem readReg_pbuf {i : Nat} (hi : i < 6) (s : State) : readReg (0x10 + 4 * i) s = (readPbuf i s).setWidth 32 := by
  rw [readReg, if_neg (by omega), if_neg (by omega), if_neg (by omega), pbufIndex_of_entry hi]

theorem readReg_unmapped {off : Nat} (hoff : 0x28 ≤ off) (s : State) : readReg off s = 0 := by
  rw [readReg, if_neg (by omega), if_neg (by omega), if_neg (by omega), pbufIndex_of_unmapped (.inr hoff)]

theorem writeReg_pbuf {i : Nat} (hi : i < 6) (v : Word) (s : State) : writeReg (0x10 + 4 * i) v s =
    { s with pbuf := s.pbuf.setIfInBounds i (v.extractLsb' 0 8)
             pbufWritten := s.pbufWritten.setIfInBounds i true } := by
  rw [writeReg, if_neg (by omega), pbufIndex_of_entry hi]

/-- STATUS, ENCOUT and the unmapped offsets ignore a write. -/
theorem writeReg_ignored {off : Nat} (hoff : off = 0x08 ∨ off = 0x0C ∨ 0x28 ≤ off) (v : Word) (s : State) :
    writeReg off v s = s := by
  rw [writeReg, if_neg (by omega), pbufIndex_of_unmapped (by omega)]

/-! ## Host accesses to an idle block -/

section
variable {s : State} (hidle : s.seq = none)
include hidle

theorem accessStop_of_idle {off : Nat} (statusRead : Bool) (haligned : off % 4 = 0) (hwindow : off < 0x40) :
    accessStop off 4 statusRead s = none := by
  rw [accessStop, if_neg (by omega), if_neg (by omega), if_neg (by simp [busy, hidle])]

theorem hostRead_of_idle {off : Nat} (haligned : off % 4 = 0) (hwindow : off < 0x40) :
    hostRead off 4 s = .next { s with hostData := readReg off s } := by
  simp only [hostRead, accessStop_of_idle hidle _ haligned hwindow]

theorem hostWrite_of_idle {off : Nat} (v : Word) (haligned : off % 4 = 0) (hpos : 0 < off) (hwindow : off < 0x40) :
    hostWrite off 4 v s = .next (writeReg off v s) := by
  simp only [hostWrite, accessStop_of_idle hidle _ haligned hwindow, if_neg hpos.ne']

theorem hostWait_of_idle : hostWait s = .next { s with hostData := s.rc.code.setWidth 32 } := by
  rw [← statusWord_of_idle hidle]
  simp [hostWait, busy, hidle]

end

theorem hostWait_of_busy {s : State} (hbusy : s.seq ≠ none) : hostWait s = .next (engineStep
    { s with hostData := 0x100#32 ||| s.rc.code.setWidth 32, inputs := .hostWait :: s.inputs }) := by
  rw [← statusWord_of_busy hbusy]
  exact if_pos (busy_of_seq_ne_none hbusy)

/-- Settles O4: the access passes the check, and each offset reads as its register. -/
theorem hostReadsReturnTheRegisters : Obligations.HostReadsReturnTheRegisters := by
  intro s rest off hinput hidle haligned hwindow
  refine ⟨readReg off s, ?_, ?cmd, ?arg, ?status, ?encout, ?pbuf, fun hoff => readReg_unmapped hoff s⟩
  · rw [step_of_inputs hinput]
    exact hostRead_of_idle (s := { s with inputs := rest }) hidle haligned hwindow
  case cmd | arg | encout => rintro rfl; rfl
  case status => rintro rfl; exact statusWord_of_idle hidle
  case pbuf => rintro i hi rfl; exact readReg_pbuf hi s

/-- A PBUF entry after a host write of one entry. -/
theorem readPbuf_writeReg_pbuf {i : Nat} (hi : i < 6) (v : Word) (s : State) (j : Nat) :
    readPbuf j (writeReg (0x10 + 4 * i) v s) = if j = i then v.setWidth 8 else readPbuf j s := by
  rw [writeReg_pbuf hi, readPbuf, getD_setIfInBounds, ← BitVec.setWidth_eq_extractLsb' (by decide)]
  simp [hi, readPbuf]

theorem pbufIsWritten_writeReg_pbuf {i : Nat} (hi : i < 6) (v : Word) (s : State) (j : Nat) :
    pbufIsWritten j (writeReg (0x10 + 4 * i) v s) = if j = i then true else pbufIsWritten j s := by
  rw [writeReg_pbuf hi, pbufIsWritten, getD_setIfInBounds]
  simp [hi, pbufIsWritten]

/-- Settles O5: the access passes the check, and the write stores in the register of its offset, or in none. -/
theorem hostWritesStoreOnlyArgAndPbuf : Obligations.HostWritesStoreOnlyArgAndPbuf := by
  intro s rest off v hinput hidle haligned hpos hwindow
  have hstep : step s = .next (writeReg off v { s with inputs := rest }) := by
    rw [step_of_inputs hinput]
    exact hostWrite_of_idle (s := { s with inputs := rest }) hidle v haligned hpos hwindow
  rw [hstep]
  refine ⟨?_, ?_, fun hoff => by rw [writeReg_ignored hoff]⟩
  · rintro rfl
    rfl
  · rintro i hi rfl
    refine ⟨_, rfl, by rw [writeReg_pbuf hi], ?_, ?_, fun j hj => ⟨?_, ?_⟩⟩
    · rw [readPbuf_writeReg_pbuf hi, if_pos rfl]
    · rw [pbufIsWritten_writeReg_pbuf hi, if_pos rfl]
    · rw [readPbuf_writeReg_pbuf hi, if_neg hj]
      rfl
    · rw [pbufIsWritten_writeReg_pbuf hi, if_neg hj]
      rfl

/-- Settles O8: one read of STATUS ends the wait of an idle block; that of a busy one gives the engine its move. -/
theorem hostWaitPollsUntilIdle : Obligations.HostWaitPollsUntilIdle := by
  intro s rest hinput
  rw [step_of_inputs hinput]
  refine ⟨fun hidle => hostWait_of_idle (s := { s with inputs := rest }) hidle, fun hbusy => ?_⟩
  refine (hostWait_of_busy (s := { s with inputs := rest }) hbusy).trans ?_
  rw [← hinput]

/-! ## The next instruction -/

theorem command_of_operation {w : Word} {i : Instr} {s : State} (hgrain : s.cfg.grain = .operation)
    (hdecode : decodeHost w = .ok i) : command w s = exec i s := by
  simp only [command, hdecode, hgrain]

theorem command_of_action {w : Word} {i : Instr} {s : State} (hgrain : s.cfg.grain = .action)
    (hdecode : decodeHost w = .ok i) : command w s = accept w i s := by
  simp only [command, hdecode, hgrain]

theorem foreignTw_of_idle {s : State} (free : State → Host.Outcome State Fault Refusal) (hidle : s.seq = none) :
    foreignTw free s = free s := by
  simp only [foreignTw, hidle]

theorem busByte_of_decode {b : Byte} {i : Instr} {s : State} (hactive : s.dev.tw.rx.active = true)
    (hdecode : decodeTw s.dev.tw.rx.pos b = .ok i) : busByte b s = exec i s := by
  simp [busByte, hactive, hdecode]

theorem foreignSr_of_idle {s : State} (w : BitVec 16) (hidle : s.seq = none) : foreignSr w s = busWord w s := by
  simp only [foreignSr, hidle]

theorem busWord_of_decode {w : BitVec 16} {i : Instr} {s : State} (hdecode : decodeSr s.cfg.digitRegBase w = .ok i) :
    busWord w s = exec i (onDevices (shiftIn w) s) := by
  simp only [busWord, hdecode]

/-- Settles O2: with no operation in flight nothing stands between the input and the instruction that it decodes to. -/
theorem stepRunsTheDecodedInstruction : Obligations.StepRunsTheDecodedInstruction := by
  refine ⟨fun s rest w i hinput hidle hgrain hdecode => ?_, fun s rest w i hinput hidle hgrain hdecode => ?_,
    fun s rest b i hinput hidle hactive hdecode => ?_, fun s rest w i hinput hidle hdecode => ?_⟩ <;>
    rw [step_of_inputs hinput]
  · exact (hostWrite_cmd_of_idle (s := { s with inputs := rest }) hidle w).trans (command_of_operation hgrain hdecode)
  · exact (hostWrite_cmd_of_idle (s := { s with inputs := rest }) hidle w).trans (command_of_action hgrain hdecode)
  · exact (foreignTw_of_idle (s := { s with inputs := rest }) _ hidle).trans (busByte_of_decode hactive hdecode)
  · exact (foreignSr_of_idle (s := { s with inputs := rest }) w hidle).trans (busWord_of_decode hdecode)

/-! ## Another driver during an operation -/

theorem foreignTw_of_flying {s : State} {f : InFlight} (free : State → Host.Outcome State Fault Refusal)
    (hflying : s.seq = some f) (hport : usesTwPort f.instr = true) (hgap : betweenFrames s.cfg f = false) :
    foreignTw free s = .refused .foreignDriver := by
  simp [foreignTw, hflying, hport, hgap]

theorem foreignSr_of_flying {s : State} {f : InFlight} (w : BitVec 16) (hflying : s.seq = some f)
    (hport : usesSrPort f.instr = true) : foreignSr w s = .refused .foreignDriver := by
  simp [foreignSr, hflying, hport]

/-- Settles O46: the three moves on the two-wire lines go through one check of the operation in flight, and the word on
the shift-register lines through another. -/
theorem anotherDriverDuringAnOperationIsRefused : Obligations.AnotherDriverDuringAnOperationIsRefused := by
  intro s rest f b w hflying
  refine ⟨fun hport hgap hinput => ?_, fun hport hinput => ?_⟩
  · have hrefused (free : State → Host.Outcome State Fault Refusal) :
        foreignTw free { s with inputs := rest } = .refused .foreignDriver :=
      foreignTw_of_flying free hflying hport hgap
    rcases hinput with hstart | hbyte | hstop
    · rw [step_of_inputs hstart, takeInput, hrefused]
    · rw [step_of_inputs hbyte, takeInput, hrefused]
    · rw [step_of_inputs hstop, takeInput, hrefused]
  · rw [step_of_inputs hinput]
    exact foreignSr_of_flying w hflying hport

end Sys2Proof.Machine
end

section
/-! PROOF. The assembler: a command line is one write of its word to CMD, as a sum of shifted fields, and the
pseudo-instructions are lists of accesses (30_encoding.md R94, R95). -/

namespace Sys2Proof.Machine

/-! ## Command lines -/

theorem asmCommand_eq {i : Instr} {w : Word} (fits : Bool) (h : encode i = .host w) :
    asmCommand fits i = if fits = true then some [.hostWrite 0x00 4 w] else none := by
  cases fits <;> simp only [asmCommand, h, Bool.false_eq_true, if_true, if_false]

/-- A command line is a write of the sum of its fields when its operands fit, and is refused when they do not. -/
theorem asmCommand_fields {i : Instr} {fits : Bool} {p : Prop} [Decidable p] (op f c a v : Nat)
    (hencode : encode i = .host (hostWord (BitVec.ofNat 4 op) (f == 1) (BitVec.ofNat 8 c) (BitVec.ofNat 8 a)
      (BitVec.ofNat 8 v)))
    (hfits : fits = true ↔ p) (hp : p → op < 16 ∧ f ≤ 1 ∧ c ≤ 255 ∧ a ≤ 255 ∧ v ≤ 255) :
    asmCommand fits i = if p then some [.hostWrite 0x00 4
      (BitVec.ofNat 32 (op * 2 ^ 28 + f * 2 ^ 24 + c * 2 ^ 16 + a * 2 ^ 8 + v))] else none := by
  rw [asmCommand_eq fits hencode]
  by_cases h : p
  · obtain ⟨hop, hf, hc, ha, hv⟩ := hp h
    rw [if_pos (hfits.2 h), if_pos h, hostWord_eq_ofNat op f c a v hop hf hc ha hv]
  · rw [if_neg (mt hfits.1 h), if_neg h]

/-- Settles O16: each mnemonic's word is the sum of its fields, with 0 in those it does not use. -/
theorem assemblerWritesTheCommandWord : Obligations.AssemblerWritesTheCommandWord := by
  intro x y z
  refine ⟨rfl, rfl, rfl, rfl, rfl, ?twConfig, ?twSetdigit, ?twSetdigits, ?twSethex, ?segEncode, ?srWritereg⟩
  case twConfig =>
    refine (asmCommand_fields (p := x ≤ 255 ∧ y ≤ 1) 0x3 y 0 0 x rfl (by simp) (by omega)).trans ?_
    simp
  case twSetdigit =>
    refine (asmCommand_fields (p := x ≤ 255 ∧ y ≤ 255) 0x4 0 0 y x rfl (by simp) (by omega)).trans ?_
    simp
  case twSetdigits =>
    refine (asmCommand_fields (p := x ≤ 255 ∧ y ≤ 255) 0x5 0 y x 0 rfl (by simp) (by omega)).trans ?_
    simp
  case twSethex =>
    refine (asmCommand_fields (p := x ≤ 255 ∧ y ≤ 1 ∧ z ≤ 255) 0x6 y 0 z x rfl (by simp [and_assoc])
      (by omega)).trans ?_
    simp
  case segEncode =>
    refine (asmCommand_fields (p := x ≤ 255 ∧ y ≤ 1) 0x7 y 0 0 x rfl (by simp) (by omega)).trans ?_
    simp
  case srWritereg =>
    refine (asmCommand_fields (p := x ≤ 255 ∧ y ≤ 255) 0x9 0 0 x y rfl (by simp) (by omega)).trans ?_
    simp

/-! ## Pseudo-instructions -/

theorem asmWrite_of_fits (reg : HostReg) {v : Int} (hlow : -2147483648 ≤ v) (hhigh : v ≤ 4294967295) :
    asmWrite reg v = some [.hostWrite reg.offset 4 (BitVec.ofInt 32 v)] := by
  rw [asmWrite, asmWord, if_pos ⟨hlow, hhigh⟩, Option.map_some]

/-- A byte operand fits, and its field holds it. -/
theorem ofNat_toNat_byte (v : Byte) : BitVec.ofNat 8 v.toNat = v := by
  rw [BitVec.ofNat_toNat, BitVec.setWidth_eq]

/-- One line of sr.setup. -/
theorem asmWriteregWait_toNat {r : Nat} (hr : r ≤ 255) (v : Byte) : asmWriteregWait r v.toNat =
    some [.hostWrite 0x00 4 (hostWord 0x9 false 0 (BitVec.ofNat 8 r) v), .hostWait] := by
  have hv := v.isLt
  have hfits : (decide (r ≤ 255) && decide (v.toNat ≤ 255)) = true := by simp; omega
  rw [asmWriteregWait, hfits, ofNat_toNat_byte]
  rfl

/-- The command of tw.show. -/
theorem asmCommand_twSetdigits_toNat (a c : Byte) :
    asmCommand (a.toNat ≤ 255 && c.toNat ≤ 255) (.twSetdigits a.toNat c.toNat) =
      some [.hostWrite 0x00 4 (0x50000000#32 ||| c.setWidth 32 <<< 16 ||| a.setWidth 32 <<< 8)] := by
  have ha := a.isLt
  have hc := c.isLt
  have hfits : (decide (a.toNat ≤ 255) && decide (c.toNat ≤ 255)) = true := by simp; omega
  have hword : hostWord 0x5 false c a 0 = 0x50000000#32 ||| c.setWidth 32 <<< 16 ||| a.setWidth 32 <<< 8 := by
    simp [hostWord]
  rw [hfits, asmCommand_eq (w := hostWord 0x5 false c a 0) true (by simp [encode]), if_pos rfl, hword]

/-- The patterns of tw.show from entry `k` on. -/
theorem asmPatterns_of_fits {k : Nat} {ps : List Nat} (hlen : k + ps.length ≤ 6) (hps : ∀ p ∈ ps, p < 2 ^ 32) :
    asmPatterns k ps = some ((List.range ps.length).map fun i =>
      .hostWrite (0x10 + 4 * (k + i)) 4 (BitVec.ofNat 32 (ps.getD i 0))) := by
  induction ps generalizing k with
  | nil => rfl
  | cons p ps ih =>
    rw [List.length_cons] at hlen
    have hp := hps p List.mem_cons_self
    have hk : k < 6 := by omega
    have hrest := ih (k := k + 1) (by omega) fun q hq => hps q (List.mem_cons_of_mem p hq)
    rw [asmPatterns, dif_pos hk, asmWrite_of_fits _ (by omega) (by omega), hrest, BitVec.ofInt_natCast]
    simp [List.range_succ_eq_map, HostReg.offset, Nat.add_assoc, Nat.add_comm 1]

/-- PBUF has no entry for a seventh pattern. -/
theorem asmPatterns_of_tooMany {k : Nat} {ps : List Nat} (hlen : 7 ≤ k + ps.length) (hk : k ≤ 6) :
    asmPatterns k ps = none := by
  induction ps generalizing k with
  | nil => simp at hlen; omega
  | cons p ps ih =>
    rw [List.length_cons] at hlen
    rw [asmPatterns]
    split_ifs with h
    · rw [ih (by omega) (by omega)]
      cases asmWrite (.pbuf ⟨k, h⟩) p <;> rfl
    · rfl

/-- Settles O17: each pseudo-instruction is the concatenation of its lines. -/
theorem pseudoInstructionsExpand : Obligations.PseudoInstructionsExpand := by
  refine ⟨rfl, fun n hlow hhigh => ?_, fun d i s p t => ?_, fun a c ps hlen hps => ?_, fun a c ps hlen => ?_⟩
  · simp only [assemble, if_pos hhigh, asmWrite_of_fits .arg hlow (hhigh.trans (by decide))]
    rfl
  · rw [assemble, asmWriteregWait_toNat (by decide), asmWriteregWait_toNat (by decide),
      asmWriteregWait_toNat (by decide), asmWriteregWait_toNat (by decide), asmWriteregWait_toNat (by decide)]
    rfl
  · simp only [assemble, asmPatterns_of_fits ((Nat.zero_add _).trans_le hlen) hps, asmCommand_twSetdigits_toNat]
    simp
  · simp only [assemble, asmPatterns_of_tooMany (hlen.trans_eq (Nat.zero_add _).symm) (Nat.zero_le 6)]
    rfl

end Sys2Proof.Machine
end
